-- ==== Sys2Proof/Word.lean ====
section
/-! DEFINITION. The word types of HUFCORE, one name for each width of `spec/00_scope.md` rule R6.
All values are unsigned (rule R7). -/

namespace Sys2Proof

/-- A command word, CMDW = 16 bits (R6, R45). -/
abbrev CmdWord := BitVec 16

/-- A ByteSymbol, SYMW = 8 bits (R6, R31): every value is a symbol. -/
abbrev Sym := BitVec 8

/-- A byte of the output stream (R38). -/
abbrev Byte := BitVec 8

/-- A node identifier, IDW = 9 bits (R6, R15): 0 to 255 leaves, 256 to 510 internal nodes, 511 names no node. -/
abbrev NodeId := BitVec 9

/-- A counter or a node weight, CNTW = 32 bits (R6). -/
abbrev Count := BitVec 32

/-- A code length, CLENW = 8 bits (R6). -/
abbrev CodeLen := BitVec 8

/-- A code value, CVALW = 255 bits (R6). -/
abbrev CodeVal := BitVec 255

/-- BITCNT and OUTLEN, BITW = 40 bits (R6). -/
abbrev BitCount := BitVec 40

/-- Response data, RSPW = 32 bits (R6). -/
abbrev RspData := BitVec 32

/-- The largest value of INLEN, MAXLEN = 2^32 - 1 (R6, R61). -/
abbrev maxLen : Count := 0xFFFFFFFF#32

end Sys2Proof
end

