-- ==== Sys2Proof/Syntax.lean ====
section
/-! DEFINITION. The command set HUFCMD-1 (`spec/30_encoding.md` rule R48): one constructor for each of the 13 rows of
`spec/opcode_table.json`, with the operands of rule R47 at the width the word gives them. -/

namespace Sys2Proof

/-- A command with its operands. An operand outside its legal range (a register number above 10, node id 511) is a
term of this type, and `Instr.wellFormed` refuses it. -/
inductive Instr where
  /-- CLEAR, format Z: start a new encode (R102). -/
  | clear
  /-- COUNT sym, format S: count one occurrence of a byte (R61). -/
  | count (sym : Sym)
  /-- BUILD, format Z: build the tree from the frequency table (R69). -/
  | build
  /-- DERIVE, format Z: fill the code table from the tree (R81). -/
  | derive
  /-- PACK sym, format S: append the code of one byte of pass 2 (R93). -/
  | pack (sym : Sym)
  /-- FINISH, format Z: end pass 2, pad and emit the last byte (R95). -/
  | finish
  /-- ABORT, format Z: the host reports an I/O failure (R104). -/
  | abort
  /-- RDREG reg, format R: read a status register; legal for reg ≤ 10 (R105). -/
  | rdreg (reg : BitVec 8)
  /-- RDFREQ sym, format S: read one frequency (R63). -/
  | rdfreq (sym : Sym)
  /-- RDNODEW id, format N: read a node's weight; legal for id ≤ 510 (R72). -/
  | rdnodew (id : NodeId)
  /-- RDNODEL id, format N: read a node's kind, membership and children; legal for id ≤ 510 (R73). -/
  | rdnodel (id : NodeId)
  /-- RDCLEN sym, format S: read the length of a symbol's code (R86). -/
  | rdclen (sym : Sym)
  /-- RDCODE sym, w, format W: read 32 bits of a symbol's code value (R87). -/
  | rdcode (sym : Sym) (w : BitVec 3)
  deriving DecidableEq, Repr

end Sys2Proof
end

