-- ==== Sys2Proof/WellFormed.lean ====
section
/-! DEFINITION. Which commands have a word: the operand ranges of `spec/30_encoding.md` rules R46 to R48. The
well-formed commands are the 4110 legal ones. -/

namespace Sys2Proof

/-- The operand ranges of R46: a register number is at most 10, a node id at most 510. Every symbol and every
code word index is legal (R31, R34). -/
def Instr.wellFormed : Instr → Bool
  | .clear => true
  | .count _ => true
  | .build => true
  | .derive => true
  | .pack _ => true
  | .finish => true
  | .abort => true
  | .rdreg reg => decide (reg.toNat ≤ 10)
  | .rdfreq _ => true
  | .rdnodew id => decide (id.toNat ≤ 510)
  | .rdnodel id => decide (id.toNat ≤ 510)
  | .rdclen _ => true
  | .rdcode _ _ => true

end Sys2Proof
end

