-- ==== Sys2Proof/Decode.lean ====
section
/-! DEFINITION. Decoding a command word (`spec/30_encoding.md` rules R45 to R49, R55), and encoding, its inverse
(rules R50 to R54). A word is one 16-bit transfer on the command port, so no byte order enters (R36, R45). -/

namespace Sys2Proof

/-- Why a word is no command: the items of R55. The spec has the one verdict *illegal*; the reason is the model's name
for it and no meaning depends on it (assumption log 14). -/
inductive Illegal where
  /-- Opcode 0x0, 0xE or 0xF. -/
  | unassignedOpcode
  /-- A must-be-zero field is not zero. -/
  | mustBeZero
  /-- RDREG with reg > 10. -/
  | noSuchRegister
  /-- RDNODEW or RDNODEL with id = 511. -/
  | noSuchNode
  deriving DecidableEq, Repr

/-- The answer of `decode`: a command, or the verdict *illegal* with its reason (R49). -/
inductive Decoded where
  | command (i : Instr)
  | illegal (why : Illegal)
  deriving DecidableEq, Repr

/-- Bits 15:12, the major opcode (R45). -/
def opField (w : CmdWord) : BitVec 4 := w.extractLsb' 12 4

/-- Bits 11:8, the modifier (R45). -/
def subField (w : CmdWord) : BitVec 4 := w.extractLsb' 8 4

/-- Bits 7:0, the operand (R45). -/
def argField (w : CmdWord) : BitVec 8 := w.extractLsb' 0 8

/-- id = {sub[0], arg}, format N (R47). -/
def idField (w : CmdWord) : NodeId := w.extractLsb' 0 9

/-- w = sub[2:0], format W (R47). -/
def codeWordField (w : CmdWord) : BitVec 3 := w.extractLsb' 8 3

/-- Format Z: sub and arg must be zero (R46). -/
def decodeZ (i : Instr) (w : CmdWord) : Decoded :=
  if subField w = 0#4 ∧ argField w = 0#8 then .command i else .illegal .mustBeZero

/-- Format S: sub must be zero, arg is the symbol (R46). -/
def decodeS (i : Sym → Instr) (w : CmdWord) : Decoded :=
  if subField w = 0#4 then .command (i (argField w)) else .illegal .mustBeZero

/-- Format R: sub must be zero, arg is a register number, at most 10 (R46). -/
def decodeR (i : BitVec 8 → Instr) (w : CmdWord) : Decoded :=
  if subField w = 0#4 then
    if (argField w).toNat ≤ 10 then .command (i (argField w)) else .illegal .noSuchRegister
  else .illegal .mustBeZero

/-- Format N: sub[3:1] must be zero, {sub[0], arg} is a node id, at most 510 (R46). -/
def decodeN (i : NodeId → Instr) (w : CmdWord) : Decoded :=
  if w.extractLsb' 9 3 = 0#3 then
    if (idField w).toNat ≤ 510 then .command (i (idField w)) else .illegal .noSuchNode
  else .illegal .mustBeZero

/-- Format W: sub[3] must be zero, sub[2:0] is the code word index, arg the symbol (R46). -/
def decodeW (i : Sym → BitVec 3 → Instr) (w : CmdWord) : Decoded :=
  if w.extractLsb' 11 1 = 0#1 then .command (i (argField w) (codeWordField w)) else .illegal .mustBeZero

/-- The opcode map (R48) as the total function of R49. -/
def decode (w : CmdWord) : Decoded :=
  match (opField w).toNat with
  | 0x1 => decodeZ .clear w
  | 0x2 => decodeS .count w
  | 0x3 => decodeZ .build w
  | 0x4 => decodeZ .derive w
  | 0x5 => decodeS .pack w
  | 0x6 => decodeZ .finish w
  | 0x7 => decodeZ .abort w
  | 0x8 => decodeR .rdreg w
  | 0x9 => decodeS .rdfreq w
  | 0xA => decodeN .rdnodew w
  | 0xB => decodeN .rdnodel w
  | 0xC => decodeS .rdclen w
  | 0xD => decodeW .rdcode w
  | _ => .illegal .unassignedOpcode

/-- The word of a format Z command (R46, R50). -/
def encodeZ (op : BitVec 4) : CmdWord := op ++ 0#4 ++ 0#8

/-- The word of a format S command (R46, R51). -/
def encodeS (op : BitVec 4) (sym : Sym) : CmdWord := op ++ 0#4 ++ sym

/-- The word of a format R command (R46, R52). -/
def encodeR (op : BitVec 4) (reg : BitVec 8) : CmdWord := op ++ 0#4 ++ reg

/-- The word of a format N command (R46, R53). -/
def encodeN (op : BitVec 4) (id : NodeId) : CmdWord := op ++ 0#3 ++ id

/-- The word of a format W command (R46, R54). -/
def encodeW (op : BitVec 4) (sym : Sym) (w : BitVec 3) : CmdWord := op ++ 0#1 ++ w ++ sym

/-- The word of a command (R48, R50 to R54); meant for well-formed commands. -/
def encode : Instr → CmdWord
  | .clear => encodeZ 0x1#4
  | .count sym => encodeS 0x2#4 sym
  | .build => encodeZ 0x3#4
  | .derive => encodeZ 0x4#4
  | .pack sym => encodeS 0x5#4 sym
  | .finish => encodeZ 0x6#4
  | .abort => encodeZ 0x7#4
  | .rdreg reg => encodeR 0x8#4 reg
  | .rdfreq sym => encodeS 0x9#4 sym
  | .rdnodew id => encodeN 0xA#4 id
  | .rdnodel id => encodeN 0xB#4 id
  | .rdclen sym => encodeS 0xC#4 sym
  | .rdcode sym w => encodeW 0xD#4 sym w

/-- The command word of a table word: the table numbers a row's 16 bits as R45 numbers the word's, bit 0 the least
significant; bits above `nbits` are zero. -/
def tableWord (nbits w : Nat) : CmdWord := BitVec.ofNat 16 (w % 2 ^ nbits)

/-- The instruction the decoder reads from a word of `spec/opcode_table.json`. -/
def decodeTableWord (nbits w : Nat) : Option Instr :=
  match decode (tableWord nbits w) with
  | .command i => some i
  | .illegal _ => none

end Sys2Proof
end

