-- ==== Sys2Proof/Config.lean ====
section
/-! DEFINITION. The free values of the model. `spec/00_scope.md` rule R6 fixes every parameter of the hardware, so no
implementation choice is left; what stays open is the content of the registers the spec calls UNSPECIFIED
(`spec/10_state.md` rule R26, "the hardware may hold any value, possibly a different one after each reset, and a model
must not give it one"). Each is an uninterpreted constant: it has no body, so nothing can be proved of its value. The
first argument, `epoch`, is the model's counter `State.draws`: it differs after each reset, CLEAR and DERIVE
(assumption log 3, 4). -/

namespace Sys2Proof.Config

/-- NODE_W[id] after reset or CLEAR (R16, R26, U1). -/
opaque freeNodeW (epoch id : Nat) : Count

/-- NODE_L[id] after reset or CLEAR (R17, R26, U1). -/
opaque freeNodeL (epoch id : Nat) : NodeId

/-- NODE_R[id] after reset or CLEAR (R17, R26, U1). -/
opaque freeNodeR (epoch id : Nat) : NodeId

/-- CODE_LEN[s] after reset or CLEAR (R20, R26, U2). -/
opaque freeCodeLen (epoch s : Nat) : CodeLen

/-- CODE_VAL[s] after reset or CLEAR (R20, R26, U2). -/
opaque freeCodeVal (epoch s : Nat) : CodeVal

/-- P_LEN[id] at the start of a DERIVE (R24, U3): scratch that has no value between commands (assumption log 5). -/
opaque freePathLen (epoch id : Nat) : CodeLen

/-- P_VAL[id] at the start of a DERIVE (R24, U3): scratch that has no value between commands (assumption log 5). -/
opaque freePathVal (epoch id : Nat) : CodeVal

/-- What a read of NODE_L or NODE_R gives for an id that has no entry there. Only DERIVE in a state that no run
reaches (ROOT = 511) makes such a read (assumption log 5). -/
opaque freeAbsentLink (epoch id : Nat) : NodeId

end Sys2Proof.Config
end

