-- ==== Sys2Proof/Machine/State.lean ====
section
/-! DEFINITION. The state of HUFCORE (`spec/10_state.md`), as plain data: the tuple of its section 1, and three fields of
the model's own (the command port's pending inputs, the record of what left the ports, the free-value counter). Reset values: rule R26. -/

namespace Sys2Proof.Machine

/-- The five values of PHASE (R11). Values 4 to 6 of the 3-bit register are never held, so the type leaves them out
(U7, assumption log 10). `phaseCode` gives the register's bits. -/
inductive Phase where
  /-- 0: pass 1, frequencies are being counted. -/
  | count
  /-- 1: the tree is built, codes are not yet derived. -/
  | built
  /-- 2: the code table is derived; pass 2. -/
  | pack
  /-- 3: the encode completed. -/
  | done
  /-- 7: a fault was raised; ERR says which. -/
  | fault
  deriving DecidableEq, Repr

/-- The eight values of ERR (R12, R112). Values 8 to 15 of the 4-bit register are never written, so the type leaves
them out (U7, assumption log 10). `errCode` gives the register's bits. These are the hardware's own faults: raising one
is an ordinary next state (R9), not a `Fault` of the model. -/
inductive Err where
  /-- 0 ERR_NONE. -/
  | none
  /-- 1 ERR_ILLEGAL: the word is no legal command. -/
  | illegal
  /-- 2 ERR_SEQ: the command is not accepted in the present phase. -/
  | seq
  /-- 3 ERR_OVERFLOW: COUNT at INLEN = 2^32 - 1. -/
  | overflow
  /-- 4 ERR_NOCODE: PACK of a symbol without a code. -/
  | noCode
  /-- 5 ERR_DEGENERATE: DERIVE when the root is a leaf. -/
  | degenerate
  /-- 6 ERR_PASS: pass 2 has not the length of pass 1. -/
  | pass
  /-- 7 ERR_IO: ABORT. -/
  | io
  deriving DecidableEq, Repr

/-- What the host can present to the hardware: a command word on the command port (R36), or the event `rst` between
two commands (R39, R129). -/
inductive HostInput where
  | word (w : CmdWord)
  | rst
  deriving DecidableEq, Repr

/-- What leaves the hardware: a byte on the output port (R38), or a response on the response port (R37). -/
inductive PortOutput where
  | byte (v : Byte)
  | response (err : Bool) (data : RspData)
  deriving DecidableEq, Repr

/-- The whole state. The first twenty-one fields are the spec's tuple (`spec/10_state.md` section 1); the last three
are the model's own. -/
structure State where
  /-- PHASE, 3 bits (R11). -/
  phase : Phase
  /-- ERR, 4 bits (R12). -/
  err : Err
  /-- FREQ[0..255], 32 bits each (R13). -/
  freq : Vector Count 256
  /-- INLEN, 32 bits (R14). -/
  inlen : Count
  /-- NODE_W[0..510], 32 bits each (R16). -/
  nodeW : Vector Count 511
  /-- NODE_L[256..510], 9 bits each (R17); entry k is the left child of node 256 + k. -/
  nodeL : Vector NodeId 255
  /-- NODE_R[256..510], 9 bits each (R17); entry k is the right child of node 256 + k. -/
  nodeR : Vector NodeId 255
  /-- INQ[0..510], 1 bit each (R18). -/
  inq : Vector Bool 511
  /-- NEXTID, 9 bits (R19). -/
  nextid : NodeId
  /-- QCOUNT, 9 bits (R19). -/
  qcount : BitVec 9
  /-- ROOT, 9 bits (R19). -/
  root : NodeId
  /-- CODE_V[0..255], 1 bit each (R20). -/
  codeV : Vector Bool 256
  /-- CODE_LEN[0..255], 8 bits each (R20). -/
  codeLen : Vector CodeLen 256
  /-- CODE_VAL[0..255], 255 bits each (R20). -/
  codeVal : Vector CodeVal 256
  /-- ACC, 8 bits (R21). -/
  acc : BitVec 8
  /-- ACC_N, 3 bits (R21). -/
  accN : BitVec 3
  /-- PKLEN, 32 bits (R22). -/
  pklen : Count
  /-- BITCNT, 40 bits (R22). -/
  bitcnt : BitCount
  /-- OUTLEN, 40 bits (R22). -/
  outlen : BitCount
  /-- PADN, 3 bits (R22). -/
  padn : BitVec 3
  /-- OUT, the bytes emitted since the last reset or CLEAR, oldest first (R23). -/
  out : List Byte
  /-- The model's own: what the host has still to present, first first (R36, R129; assumption log 1). -/
  hostIn : List HostInput
  /-- The model's own: everything that has left the two output ports, oldest first (R37, R38; assumption log 2). -/
  portOut : List PortOutput
  /-- The model's own: the counter the free values are applied to (assumption log 4). -/
  draws : Nat
  deriving DecidableEq, Repr

/-- No fault of the model exists. The step is total: "every 16-bit word in every state has exactly one outcome", and "a
fault is an ordinary outcome of the step (next state has PHASE = FAULT), not a missing step" (R9). Nothing raises
one, so nothing is unsafe. -/
inductive Fault
  deriving DecidableEq, Repr

/-- No meaning refuses: every one of the 13 commands is modelled, and the hardware's own *refusal* in phase FAULT
(R113 point 3) is a next state with a response. -/
inductive Refusal where
  /-- An instruction without a meaning yet, by its mnemonic. Raised by no arm of `exec`; safe. -/
  | notModelled (mnemonic : String)
  deriving DecidableEq, Repr

/-- The reset table of R26. The arrays it calls unspecified hold the free values of `epoch` (assumption log 3). -/
def State.initial (epoch : Nat) : State where
  phase := .count
  err := .none
  freq := Vector.replicate 256 0#32
  inlen := 0#32
  nodeW := Vector.ofFn fun id => Config.freeNodeW epoch id
  nodeL := Vector.ofFn fun k => Config.freeNodeL epoch (256 + k)
  nodeR := Vector.ofFn fun k => Config.freeNodeR epoch (256 + k)
  inq := Vector.replicate 511 false
  nextid := 256#9
  qcount := 0#9
  root := 0#9
  codeV := Vector.replicate 256 false
  codeLen := Vector.ofFn fun s => Config.freeCodeLen epoch s
  codeVal := Vector.ofFn fun s => Config.freeCodeVal epoch s
  acc := 0#8
  accN := 0#3
  pklen := 0#32
  bitcnt := 0#40
  outlen := 0#40
  padn := 0#3
  out := []
  hostIn := []
  portOut := []
  draws := epoch

/-- The machine right after reset (R26, R128), with nothing presented to it yet. -/
def State.reset : State := State.initial 0

end Sys2Proof.Machine
end

