-- ==== Sys2Proof/Machine/Flags.lean ====
section
/-! DEFINITION. The flags and status (`spec/10_state.md` rules R27, R28; `spec/45_control_and_status.md` rules R107 to
R109): the bits of PHASE and ERR, STATUS, and the two level outputs. There are no arithmetic condition codes (R27). -/

namespace Sys2Proof.Machine

/-- The bits of PHASE (R11). -/
def phaseCode : Phase → BitVec 3
  | .count => 0#3
  | .built => 1#3
  | .pack => 2#3
  | .done => 3#3
  | .fault => 7#3

/-- The bits of ERR (R112). -/
def errCode : Err → BitVec 4
  | .none => 0#4
  | .illegal => 1#4
  | .seq => 2#4
  | .overflow => 3#4
  | .noCode => 4#4
  | .degenerate => 5#4
  | .pass => 6#4
  | .io => 7#4

/-- STATUS, register 0, by its fields (R108): 31:15 zero, 14:12 PADN, 11 zero, 10:8 ACC_N, 7:4 ERR, 3 zero, 2:0
PHASE. It is no stored register but this function of four of them. -/
def statusWord (s : State) : RspData :=
  0#17 ++ s.padn ++ 0#1 ++ s.accN ++ errCode s.err ++ 0#1 ++ phaseCode s.phase

/-- The level output `done` (R39, R121). -/
def donePin (s : State) : Bool := decide (s.phase = .done)

/-- The level output `fault` (R39, R121). -/
def faultPin (s : State) : Bool := decide (s.phase = .fault)

end Sys2Proof.Machine
end

