-- ==== Sys2Proof/Machine/Operands.lean ====
section
/-! DEFINITION. What each operand of a command selects (`spec/20_memory.md` rule R30: the symbol, node, register and
code word spaces). An index is taken whole from the command; there is no address arithmetic. -/

namespace Sys2Proof.Machine

/-- Symbol space: element `sym` of an array of 256. Every value is in range (R31). -/
def symEntry {α : Type} (a : Vector α 256) (sym : Sym) : α := a[sym.toNat]

/-- Symbol space: write element `sym`. -/
def setSymEntry {α : Type} (a : Vector α 256) (sym : Sym) (x : α) : Vector α 256 := a.set sym.toNat x

/-- Node space: entry of an internal node in NODE_L or NODE_R, which exist for 256 to 510 only (R17). An id without
an entry gives a free value (assumption log 5). -/
def linkEntry (epoch : Nat) (a : Vector NodeId 255) (id : Nat) : NodeId :=
  if h : 256 ≤ id ∧ id < 511 then a[id - 256] else Config.freeAbsentLink epoch id

/-- Node space: write the entry of internal node `id` in NODE_L or NODE_R. -/
def setLinkEntry (a : Vector NodeId 255) (id : Nat) (child : NodeId) : Vector NodeId 255 :=
  if 256 ≤ id then a.setIfInBounds (id - 256) child else a

/-- Register space: value(reg) of R107. Numbers 11 to 255 name no register: RDREG of them is an illegal word, and
`execRdreg` does not ask for them. -/
def registerValue (s : State) (reg : BitVec 8) : RspData :=
  match reg.toNat with
  | 0 => statusWord s
  | 1 => s.inlen
  | 2 => s.pklen
  | 3 => s.bitcnt.extractLsb' 0 32
  | 4 => (s.bitcnt.extractLsb' 32 8).setWidth 32
  | 5 => s.outlen.extractLsb' 0 32
  | 6 => (s.outlen.extractLsb' 32 8).setWidth 32
  | 7 => s.root.setWidth 32
  | 8 => s.qcount.setWidth 32
  | 9 => s.nextid.setWidth 32
  | 10 => s.acc.setWidth 32
  | _ => 0#32

/-- Code word space: slice `w` of CODE_VAL widened to 256 bits (R35 point 4, R87). -/
def codeSlice (v : CodeVal) (w : BitVec 3) : RspData := (v.setWidth 256).extractLsb' (32 * w.toNat) 32

end Sys2Proof.Machine
end

