-- ==== Sys2Proof/Machine/Ops.lean ====
section
/-! DEFINITION. The operations the commands share: responding (`spec/20_memory.md` rule R37), the fault primitive and the
refusal of phase FAULT (`spec/60_exceptions.md` rule R113), the phase test (rule R116), the reset table
(`spec/10_state.md` rule R26), and the command port (`spec/20_memory.md` rule R36). -/

namespace Sys2Proof.Machine

/-- `respond(e, d)`: end the command with one response (R8, R37). -/
def respond (e : Bool) (d : RspData) (s : State) : State :=
  { s with portOut := s.portOut ++ [.response e d] }

/-- `respond(0, STATUS)`, STATUS as it stands after the command (R37). -/
def respondStatus (s : State) : State := respond false (statusWord s) s

/-- A command that is refused because PHASE is FAULT: nothing changes, and the answer is (1, STATUS) (R113 point 3). -/
def refuse (s : State) : State := respond true (statusWord s) s

/-- Taking a fault: `raise E` (R113, R117). Every test that raises stands before the command's first write, so `s` is
the state before the command and there is nothing to discard. What is saved is the code, in ERR; there is no vector,
saved register or return: PHASE goes to FAULT, and only CLEAR or reset leaves it (R118). -/
def raise (e : Err) (s : State) : State :=
  if s.phase = .fault then refuse s
  else
    let t := { s with err := e, phase := .fault }
    respond true (statusWord t) t

/-- The phase test (R106, R116): a command accepted in `phases` executes there; in phase FAULT it is refused, in any
other phase it raises ERR_SEQ. -/
def acceptIn (phases : List Phase) (command : State → State) (s : State) : State :=
  if s.phase ∈ phases then command s
  else if s.phase = .fault then refuse s
  else raise .seq s

/-- An illegal word: ERR_ILLEGAL, or refused in phase FAULT (R55, R56, R114). -/
def illegalWord (s : State) : State :=
  if s.phase = .fault then refuse s else raise .illegal s

/-- Every piece of the spec's state at its value in the table of R26. The unspecified arrays take the free values of
the next epoch; the ports' records stay, as bytes and responses cannot be recalled (R38, R129). -/
def clearState (s : State) : State :=
  { State.initial (s.draws + 1) with hostIn := s.hostIn, portOut := s.portOut }

/-- The event `rst` (R128, R129): the reset state; no response, no byte. -/
def applyReset (s : State) : State := clearState s

/-- The command port (R36): the next input the host presents, and the state with it taken. Nothing presented: none. -/
def takeInput (s : State) : Option (HostInput × State) :=
  match s.hostIn with
  | [] => none
  | x :: rest => some (x, { s with hostIn := rest })

/-- The host presents `x` next. -/
def presentInput (x : HostInput) (s : State) : State := { s with hostIn := x :: s.hostIn }

end Sys2Proof.Machine
end

