-- ==== Sys2Proof/Machine/BitPacker.lean ====
section
/-! DEFINITION. The bit packer: Emit, ShiftBit, and the commands PACK and FINISH (`spec/44_bit_packer.md` rules R91 to R98). -/

namespace Sys2Proof.Machine

/-- Emit (R91): one byte on the output port, and into the history OUT. -/
def emit (v : Byte) (s : State) : State :=
  { s with out := s.out ++ [v], outlen := s.outlen + 1#40, portOut := s.portOut ++ [.byte v] }

/-- ShiftBit (R92): append one digit. ACC_N is 8 only inside this procedure. -/
def shiftBit (b : Bool) (s : State) : State :=
  let acc := (s.acc <<< 1) + (BitVec.ofBool b).setWidth 8
  let n := s.accN.toNat + 1
  if n = 8 then { emit acc s with acc := 0#8, accN := 0#3 }
  else { s with acc := acc, accN := BitVec.ofNat 3 n }

/-- ShiftBit for each digit of a list, first digit first. -/
def shiftBits (digits : List Bool) (s : State) : State := digits.foldl (fun s b => shiftBit b s) s

/-- The digits of a code, first digit first: digit k is bit L - 1 - k of the value (R20, R35 point 2). -/
def codeDigits (len : CodeLen) (val : CodeVal) : List Bool :=
  (List.range len.toNat).map fun k => val.getLsbD (len.toNat - 1 - k)

/-- The body of PACK (R93). -/
def packSymbol (sym : Sym) (s : State) : State :=
  let len := symEntry s.codeLen sym
  let t := shiftBits (codeDigits len (symEntry s.codeVal sym)) s
  { t with pklen := t.pklen + 1#32, bitcnt := t.bitcnt + len.setWidth 40 }

/-- PACK sym (R93): ERR_NOCODE (R97), then ERR_PASS (R98), then the code. -/
def execPack (sym : Sym) (s : State) : Host.Outcome State Fault Refusal :=
  .next (acceptIn [.pack]
    (fun s =>
      if symEntry s.codeV sym = false then raise .noCode s
      else if s.pklen = s.inlen then raise .pass s
      else respondStatus (packSymbol sym s)) s)

/-- The body of FINISH (R95, R96): zero digits fill the last byte on the right. -/
def padLastByte (s : State) : State :=
  if s.accN = 0#3 then { s with padn := 0#3, phase := .done }
  else
    let p := 8 - s.accN.toNat
    { shiftBits (List.replicate p false) s with padn := BitVec.ofNat 3 p, phase := .done }

/-- FINISH (R95): ERR_PASS when pass 2 is shorter than pass 1 (R98). -/
def execFinish (s : State) : Host.Outcome State Fault Refusal :=
  .next (acceptIn [.pack]
    (fun s => if s.pklen ≠ s.inlen then raise .pass s else respondStatus (padLastByte s)) s)

end Sys2Proof.Machine
end

