-- ==== Sys2Proof/Machine/CodeDerivation.lean ====
section
/-! DEFINITION. The code-table derivation engine: DERIVE, RDCLEN, RDCODE (`spec/43_code_derivation.md` rules R80 to R87). -/

namespace Sys2Proof.Machine

/-- The scratch arrays P_LEN and P_VAL (R24, R81), with one entry for each 9-bit id; ids 0 to 510 are the spec's, slot
511 is written and read only in states no run reaches (assumption log 5). -/
structure Paths where
  len : Vector CodeLen 512
  val : Vector CodeVal 512
  deriving DecidableEq, Repr

/-- The scratch before DERIVE writes it: free values (U3, assumption log 5). -/
def freshPaths (epoch : Nat) : Paths where
  len := Vector.ofFn fun id => Config.freePathLen epoch id
  val := Vector.ofFn fun id => Config.freePathVal epoch id

/-- P_LEN[id] and P_VAL[id] written together. -/
def setPath (id : NodeId) (len : CodeLen) (val : CodeVal) (p : Paths) : Paths where
  len := p.len.set id.toNat len
  val := p.val.set id.toNat val

/-- The loop body of DERIVE for internal node `n` with children `l` and `r` (R81): a left child appends '0', a right
child '1'. -/
def extendPaths (n l r : NodeId) (p : Paths) : Paths :=
  let p := setPath l (p.len[n.toNat] + 1#8) (p.val[n.toNat] <<< 1) p
  setPath r (p.len[n.toNat] + 1#8) ((p.val[n.toNat] <<< 1) + 1#255) p

/-- `for n from ROOT downto 256` (R81), with `k` nodes left to visit: 255 + k, …, 256. -/
def sweep (s : State) : Nat → Paths → Paths
  | 0, p => p
  | k + 1, p =>
    let n := 256 + k
    sweep s k (extendPaths (BitVec.ofNat 9 n) (linkEntry s.draws s.nodeL n) (linkEntry s.draws s.nodeR n) p)

/-- P_LEN and P_VAL after the sweep (R81): the root has the empty path. -/
def derivePaths (s : State) : Paths :=
  sweep s (s.root.toNat - 255) (setPath s.root 0#8 0#255 (freshPaths s.draws))

/-- The body of DERIVE (R81) when the root is an internal node. -/
def deriveTable (s : State) : State :=
  let p := derivePaths s
  { s with
    codeLen := Vector.ofFn fun (sym : Fin 256) => p.len[sym.val]
    codeVal := Vector.ofFn fun (sym : Fin 256) => p.val[sym.val]
    codeV := Vector.replicate 256 true
    phase := .pack
    draws := s.draws + 1 }

/-- DERIVE (R81); a root that is a leaf raises ERR_DEGENERATE (R84). -/
def execDerive (s : State) : Host.Outcome State Fault Refusal :=
  .next (acceptIn [.built]
    (fun s => if s.root.toNat < 256 then raise .degenerate s else respondStatus (deriveTable s)) s)

/-- RDCLEN sym (R86). -/
def execRdclen (sym : Sym) (s : State) : Host.Outcome State Fault Refusal :=
  .next (acceptIn [.pack, .done] (fun s => respond false ((symEntry s.codeLen sym).setWidth 32) s) s)

/-- RDCODE sym, w (R87). -/
def execRdcode (sym : Sym) (w : BitVec 3) (s : State) : Host.Outcome State Fault Refusal :=
  .next (acceptIn [.pack, .done] (fun s => respond false (codeSlice (symEntry s.codeVal sym) w) s) s)

end Sys2Proof.Machine
end

