-- ==== Sys2Proof/Machine/Control.lean ====
section
/-! DEFINITION. The control commands CLEAR, ABORT and RDREG (`spec/45_control_and_status.md` rules R102 to R105). -/

namespace Sys2Proof.Machine

/-- CLEAR (R102, R103): accepted in every phase; the reset table, then a response. -/
def execClear (s : State) : Host.Outcome State Fault Refusal :=
  .next (acceptIn [.count, .built, .pack, .done, .fault] (fun s => respondStatus (clearState s)) s)

/-- ABORT (R104): raises ERR_IO in every phase but FAULT. -/
def execAbort (s : State) : Host.Outcome State Fault Refusal :=
  .next (acceptIn [.count, .built, .pack, .done] (raise .io) s)

/-- RDREG (R105): accepted in every phase. A register number above 10 makes the word illegal (R52, assumption log 6). -/
def execRdreg (reg : BitVec 8) (s : State) : Host.Outcome State Fault Refusal :=
  if reg.toNat ≤ 10 then
    .next (acceptIn [.count, .built, .pack, .done, .fault] (fun s => respond false (registerValue s reg) s) s)
  else .next (illegalWord s)

end Sys2Proof.Machine
end

