-- ==== Sys2Proof/Machine/FrequencyCounter.lean ====
section
/-! DEFINITION. The frequency counter: COUNT and RDFREQ (`spec/41_frequency_counter.md` rules R60 to R63). -/

namespace Sys2Proof.Machine

/-- FREQ[sym] + 1 and INLEN + 1 (R61). -/
def countSymbol (sym : Sym) (s : State) : State :=
  { s with freq := setSymEntry s.freq sym (symEntry s.freq sym + 1#32), inlen := s.inlen + 1#32 }

/-- COUNT sym (R61). -/
def execCount (sym : Sym) (s : State) : Host.Outcome State Fault Refusal :=
  .next (acceptIn [.count]
    (fun s => if s.inlen = maxLen then raise .overflow s else respondStatus (countSymbol sym s)) s)

/-- RDFREQ sym (R63). -/
def execRdfreq (sym : Sym) (s : State) : Host.Outcome State Fault Refusal :=
  .next (acceptIn [.count, .built, .pack, .done] (fun s => respond false (symEntry s.freq sym) s) s)

end Sys2Proof.Machine
end

