-- ==== Sys2Proof/Machine/TreeBuilder.lean ====
section
/-! DEFINITION. The tree builder: Seed, ExtractMin, MergeStep, and the commands BUILD, RDNODEW, RDNODEL
(`spec/42_tree_builder.md` rules R66 to R73). -/

namespace Sys2Proof.Machine

/-- Seed (R66): the 256 leaves, all in the collection. -/
def seed (s : State) : State :=
  { s with
    nodeW := Vector.ofFn fun (id : Fin 511) => if h : id.val < 256 then s.freq[id.val] else s.nodeW[id]
    inq := Vector.ofFn fun (id : Fin 511) => decide (id.val < 256)
    nextid := 256#9
    qcount := 256#9 }

/-- (NODE_W[i], i) < (NODE_W[j], j), lexicographic (R7, R67). -/
def keyBefore {n : Nat} (w : Vector Count n) (i j : Fin n) : Bool :=
  decide (w[i] < w[j]) || (decide (w[i] = w[j]) && decide (i < j))

/-- One candidate of the search for the minimum: `id` replaces the best so far if it is a member of the collection and
comes before it. -/
def betterMember {n : Nat} (w : Vector Count n) (inq : Vector Bool n) (best : Option (Fin n)) (id : Fin n) :
    Option (Fin n) :=
  if inq[id] then
    match best with
    | none => some id
    | some b => if keyBefore w id b then some id else some b
  else best

/-- The member of the collection with the least (weight, id) (R67); none when the collection is empty. -/
def minMember {n : Nat} (w : Vector Count n) (inq : Vector Bool n) : Option (Fin n) :=
  (List.finRange n).foldl (betterMember w inq) none

/-- ExtractMin (R67): take the minimum out of the collection. Its precondition QCOUNT ≥ 1 holds at every call BUILD
makes (R70 point 2); without a member there is nothing to take: none (assumption log 7). -/
def extractMin (s : State) : Option (Fin 511 × State) :=
  match minMember s.nodeW s.inq with
  | none => none
  | some m => some (m, { s with inq := s.inq.set m.val false, qcount := s.qcount - 1#9 })

/-- The second half of MergeStep (R68): a new internal node with children `a` and `b`, put into the collection. -/
def createNode (a b : Fin 511) (s : State) : State :=
  { s with
    nodeW := s.nodeW.setIfInBounds s.nextid.toNat (s.nodeW[a] + s.nodeW[b])
    nodeL := setLinkEntry s.nodeL s.nextid.toNat (BitVec.ofNat 9 a.val)
    nodeR := setLinkEntry s.nodeR s.nextid.toNat (BitVec.ofNat 9 b.val)
    inq := s.inq.setIfInBounds s.nextid.toNat true
    qcount := s.qcount + 1#9
    nextid := s.nextid + 1#9 }

/-- MergeStep (R68): the first node removed becomes "left", the second "right". Its precondition QCOUNT ≥ 2 holds at
every call BUILD makes; with fewer members nothing happens (assumption log 7). -/
def mergeStep (s : State) : State :=
  match extractMin s with
  | none => s
  | some (a, s₁) =>
    match extractMin s₁ with
    | none => s
    | some (b, s₂) => createNode a b s₂

/-- `while QCOUNT > 1: MergeStep()` (R69), at most `bound` times. -/
def mergeWhile : Nat → State → State
  | 0, s => s
  | bound + 1, s => if 1 < s.qcount.toNat then mergeWhile bound (mergeStep s) else s

/-- The one id with INQ[id] = 1 (R69); none when the collection is empty, which it never is there. -/
def lastMember {n : Nat} (inq : Vector Bool n) : Option (Fin n) := (List.finRange n).find? fun id => inq[id]

/-- The end of BUILD (R69): ROOT is the one id with INQ[id] = 1, and PHASE is BUILT. -/
def closeTree (t : State) : State :=
  match lastMember t.inq with
  | none => { t with phase := .built }
  | some id => { t with root := BitVec.ofNat 9 id.val, phase := .built }

/-- The body of BUILD (R69). The loop body runs exactly 255 times (R70 point 1, R139), within the bound of 256. -/
def buildTree (s : State) : State := closeTree (mergeWhile 256 (seed s))

/-- BUILD (R69). -/
def execBuild (s : State) : Host.Outcome State Fault Refusal :=
  .next (acceptIn [.count] (fun s => respondStatus (buildTree s)) s)

/-- RDNODEW id (R72). Id 511 makes the word illegal (R53, assumption log 6). -/
def execRdnodew (id : NodeId) (s : State) : Host.Outcome State Fault Refusal :=
  if h : id.toNat < 511 then
    .next (acceptIn [.built, .pack, .done] (fun s => respond false s.nodeW[id.toNat] s) s)
  else .next (illegalWord s)

/-- The response word of RDNODEL (R73): bit 31 LEAF, bit 30 INQ[id], bits 24:16 the right child, bits 8:0 the left. -/
def nodeLinkWord (s : State) (id : NodeId) (h : id.toNat < 511) : RspData :=
  if id.toNat < 256 then 1#1 ++ BitVec.ofBool s.inq[id.toNat] ++ 0#30
  else
    0#1 ++ BitVec.ofBool s.inq[id.toNat] ++ 0#5 ++ linkEntry s.draws s.nodeR id.toNat ++ 0#7 ++
      linkEntry s.draws s.nodeL id.toNat

/-- RDNODEL id (R73). Id 511 makes the word illegal (R53, assumption log 6). -/
def execRdnodel (id : NodeId) (s : State) : Host.Outcome State Fault Refusal :=
  if h : id.toNat < 511 then
    .next (acceptIn [.built, .pack, .done] (fun s => respond false (nodeLinkWord s id h) s) s)
  else .next (illegalWord s)

end Sys2Proof.Machine
end

