-- ==== Sys2Proof/Machine/Dispatch.lean ====
section
/-! DEFINITION. One arm for each command of HUFCMD-1 (`spec/30_encoding.md` rule R48). -/

namespace Sys2Proof.Machine

/-- The meaning of a command, its phase test included (`spec/60_exceptions.md` rule R116). -/
def exec (i : Instr) (s : State) : Host.Outcome State Fault Refusal :=
  match i with
  | .clear => Sys2Proof.Machine.execClear s
  | .count sym => Sys2Proof.Machine.execCount sym s
  | .build => Sys2Proof.Machine.execBuild s
  | .derive => Sys2Proof.Machine.execDerive s
  | .pack sym => Sys2Proof.Machine.execPack sym s
  | .finish => Sys2Proof.Machine.execFinish s
  | .abort => Sys2Proof.Machine.execAbort s
  | .rdreg reg => Sys2Proof.Machine.execRdreg reg s
  | .rdfreq sym => Sys2Proof.Machine.execRdfreq sym s
  | .rdnodew id => Sys2Proof.Machine.execRdnodew id s
  | .rdnodel id => Sys2Proof.Machine.execRdnodel id s
  | .rdclen sym => Sys2Proof.Machine.execRdclen sym s
  | .rdcode sym w => Sys2Proof.Machine.execRdcode sym w s

end Sys2Proof.Machine
end

