-- ==== Sys2Proof/Machine/Step.lean ====
section
/-! DEFINITION. One step of the machine (`spec/00_scope.md` rule R9, `spec/60_exceptions.md` rule R116): the complete
execution of the next input the host presents. -/

namespace Sys2Proof.Machine

/-- One step. A command word is decoded and executed, an illegal one takes its fault; `rst` resets (R128, R129); with
nothing presented the hardware holds its state (R127). -/
def step (s : State) : Host.Outcome State Fault Refusal :=
  match takeInput s with
  | none => .next s
  | some (.rst, s') => .next (applyReset s')
  | some (.word w, s') =>
    match decode w with
    | .command i => exec i s'
    | .illegal _ => .next (illegalWord s')

/-- `s` with the table word `w` presented next on the command port (assumption log 1, 11). -/
def State.withFetchWord (s : State) (nbits w : Nat) : State := presentInput (.word (tableWord nbits w)) s

end Sys2Proof.Machine
end

