-- ==== Sys2Proof/Safety.lean ====
section
/-! DEFINITION. The terms claims use: one encode and its end (`spec/70_reset_and_hazards.md` rule R137), the digit
sequence the packer has accepted (`spec/44_bit_packer.md` rule R94), the tree and its paths (`spec/10_state.md` rule R17,
`spec/43_code_derivation.md` rule R80), the invariants by phase (`spec/10_state.md` rule R25), and the states that differ
in unspecified content only (rule R26). -/

namespace Sys2Proof.Machine

/-! ### One encode (R137) -/

/-- The encode is complete. -/
abbrev complete (s : State) : Prop := s.phase = .done

/-- The encode has failed. -/
abbrev failed (s : State) : Prop := s.phase = .fault

/-- The encode is in progress. -/
abbrev inProgress (s : State) : Prop := s.phase = .count ∨ s.phase = .built ∨ s.phase = .pack

/-- A run that ends in `s` is successful. -/
abbrev successful (s : State) : Prop := s.phase = .done ∧ s.err = .none

/-- The result of a successful run: (OUT, INLEN, OUTLEN). -/
def result (s : State) : List Byte × Count × BitCount := (s.out, s.inlen, s.outlen)

/-! ### The digit sequence (R35, R94) -/

/-- The eight digits of an output byte, most significant bit first (R35 point 1). -/
def byteDigits (v : Byte) : List Bool := (List.range 8).map fun k => v.getLsbD (7 - k)

/-- The pending digits: the low ACC_N bits of ACC, oldest in the highest position (R21). -/
def pendingDigits (s : State) : List Bool :=
  (List.range s.accN.toNat).map fun k => s.acc.getLsbD (s.accN.toNat - 1 - k)

/-- Every digit accepted so far: those emitted in OUT, then those pending in ACC (R94). -/
def bitBuffer (s : State) : List Bool := s.out.flatMap byteDigits ++ pendingDigits s

/-- The code of a symbol, first digit first (R20). -/
def codeOf (s : State) (sym : Sym) : List Bool := codeDigits (symEntry s.codeLen sym) (symEntry s.codeVal sym)

/-! ### The frequency table (R14) -/

/-- FREQ[0] + … + FREQ[255], exactly. -/
def freqTotal (s : State) : Nat := (s.freq.toList.map BitVec.toNat).sum

/-! ### The tree (R16, R17) -/

/-- NODE_L[256 + k]. -/
def leftChild (s : State) (k : Fin 255) : Nat := s.nodeL[k].toNat

/-- NODE_R[256 + k]. -/
def rightChild (s : State) (k : Fin 255) : Nat := s.nodeR[k].toNat

/-- `id` is a child of internal node 256 + k. -/
abbrev childOf (s : State) (id : Nat) (k : Fin 255) : Prop := leftChild s k = id ∨ rightChild s k = id

/-- NODE_W[id], exactly; 0 where there is no such node. -/
def weight (s : State) (id : Nat) : Nat := if h : id < 511 then s.nodeW[id].toNat else 0

/-- The link invariants of R17: children have smaller ids than their parent and differ, and every id 0 to 509 has
exactly one parent. That 510 has none follows. -/
structure TreeLinks (s : State) : Prop where
  left_lt : ∀ k : Fin 255, leftChild s k < 256 + k
  right_lt : ∀ k : Fin 255, rightChild s k < 256 + k
  distinct : ∀ k : Fin 255, leftChild s k ≠ rightChild s k
  one_parent : ∀ id < 510, ∃ k, childOf s id k ∧ ∀ j, childOf s id j → j = k

/-- The weight rules of R25: a leaf weighs its frequency, an internal node the sum of its children, the root INLEN. -/
structure TreeWeights (s : State) : Prop where
  leaf : ∀ sym : Fin 256, weight s sym = s.freq[sym].toNat
  inner : ∀ k : Fin 255, weight s (256 + k) = weight s (leftChild s k) + weight s (rightChild s k)
  root : weight s 510 = s.inlen.toNat

/-- path(v) of R80 as a relation: `Path s v p` says that `p` leads from ROOT to node `v`. -/
inductive Path (s : State) : Nat → List Bool → Prop where
  | root : Path s s.root.toNat []
  | left {k : Fin 255} {p : List Bool} : Path s (256 + k) p → Path s (leftChild s k) (p ++ [false])
  | right {k : Fin 255} {p : List Bool} : Path s (256 + k) p → Path s (rightChild s k) (p ++ [true])

/-- (weight, id) order on nodes (R67). -/
abbrev lighter (s : State) (i j : Nat) : Prop := weight s i < weight s j ∨ (weight s i = weight s j ∧ i < j)

/-- `id` is in the collection just before merge `k` (the one that creates 256 + k): it exists and no earlier merge took
it (R15, R67, R68). -/
abbrev waiting (s : State) (k : Nat) (id : Nat) : Prop := id < 256 + k ∧ ∀ j : Fin 255, j.val < k → ¬childOf s id j

/-- The tree is the one of the greedy algorithm with this hardware's tie-break (R65, R67, R68), said without its loop:
merge `k` takes the lightest waiting node as left child and the lightest of the rest as right child. -/
structure GreedyTree (s : State) : Prop where
  left_waits : ∀ k : Fin 255, waiting s k (leftChild s k)
  right_waits : ∀ k : Fin 255, waiting s k (rightChild s k)
  distinct : ∀ k : Fin 255, leftChild s k ≠ rightChild s k
  left_least : ∀ (k : Fin 255) (id : Nat), waiting s k id → id ≠ leftChild s k → lighter s (leftChild s k) id
  right_least : ∀ (k : Fin 255) (id : Nat), waiting s k id → id ≠ leftChild s k → id ≠ rightChild s k →
    lighter s (rightChild s k) id

/-! ### Invariants by phase (R25) -/

/-- The tree builder before BUILD. -/
structure TreeEmpty (s : State) : Prop where
  inq : s.inq = Vector.replicate 511 false
  qcount : s.qcount = 0#9
  nextid : s.nextid = 256#9
  root : s.root = 0#9

/-- The tree builder after BUILD. -/
structure TreeBuilt (s : State) : Prop where
  links : TreeLinks s
  weights : TreeWeights s
  inq : ∀ id : Fin 511, s.inq[id] = decide (id.val = 510)
  qcount : s.qcount = 1#9
  nextid : s.nextid = 511#9
  root : s.root = 510#9

/-- The code table after DERIVE: every symbol has an entry, the root-to-leaf path of its leaf, and no bit above. -/
structure TableDerived (s : State) : Prop where
  valid : s.codeV = Vector.replicate 256 true
  path : ∀ sym : Sym, Path s sym.toNat (codeOf s sym)
  fits : ∀ sym : Sym, (symEntry s.codeVal sym).toNat < 2 ^ (symEntry s.codeLen sym).toNat

/-- The bit packer before pass 2. -/
structure PackerEmpty (s : State) : Prop where
  pklen : s.pklen = 0#32
  bitcnt : s.bitcnt = 0#40
  outlen : s.outlen = 0#40
  acc : s.acc = 0#8
  accN : s.accN = 0#3
  padn : s.padn = 0#3
  out : s.out = []

/-- The bit packer between PACK commands (R21, R94, R101 point 1). -/
structure PackerRunning (s : State) : Prop where
  pklen_le : s.pklen.toNat ≤ s.inlen.toNat
  bitcnt_le : s.bitcnt.toNat ≤ 255 * s.pklen.toNat
  le_bitcnt : s.pklen.toNat ≤ s.bitcnt.toNat
  outlen : s.outlen.toNat = s.bitcnt.toNat / 8
  accN : s.accN.toNat = s.bitcnt.toNat % 8
  acc : s.acc.toNat < 2 ^ s.accN.toNat
  padn : s.padn = 0#3
  out : s.out.length = s.outlen.toNat

/-- The bit packer after FINISH (R25, R96, R99). -/
structure PackerDone (s : State) : Prop where
  pklen : s.pklen = s.inlen
  bitcnt_le : s.bitcnt.toNat ≤ 255 * s.pklen.toNat
  le_bitcnt : s.pklen.toNat ≤ s.bitcnt.toNat
  outlen : s.outlen.toNat = (s.bitcnt.toNat + 7) / 8
  padn : s.padn.toNat = (8 - s.bitcnt.toNat % 8) % 8
  accN : s.accN = 0#3
  acc : s.acc = 0#8
  out : s.out.length = s.outlen.toNat

/-- The line of R25 for a phase, ERR left out. PHASE = FAULT has no line of its own: see `Inv`. -/
def StageInv : Phase → State → Prop
  | .count, s => freqTotal s = s.inlen.toNat ∧ TreeEmpty s ∧ s.codeV = Vector.replicate 256 false ∧ PackerEmpty s
  | .built, s => freqTotal s = s.inlen.toNat ∧ TreeBuilt s ∧ s.codeV = Vector.replicate 256 false ∧ PackerEmpty s
  | .pack, s => freqTotal s = s.inlen.toNat ∧ TreeBuilt s ∧ TableDerived s ∧ PackerRunning s
  | .done, s => freqTotal s = s.inlen.toNat ∧ TreeBuilt s ∧ TableDerived s ∧ PackerDone s
  | .fault, _ => False

/-- The invariant of the machine (R25): ERR is non-zero exactly in phase FAULT, where everything else is as in the phase
the fault was raised in, and the two unreachable codes are never recorded (R84, R97). -/
def Inv (s : State) : Prop :=
  (s.phase ≠ .fault ∧ s.err = .none ∧ StageInv s.phase s) ∨
    (s.phase = .fault ∧ s.err ≠ .none ∧ s.err ≠ .noCode ∧ s.err ≠ .degenerate ∧ ∃ p, StageInv p s)

/-! ### States that differ in unspecified content only (R26) -/

/-- The phases in which the tree is defined and may be read (R26, R106). -/
abbrev treeReadable (p : Phase) : Prop := p = .built ∨ p = .pack ∨ p = .done

/-- The phases in which the code table is defined and may be read (R26, R106). -/
abbrev tableReadable (p : Phase) : Prop := p = .pack ∨ p = .done

/-- `s` and `t` agree on everything but what is unspecified in their phase: the tree arrays before BUILD, the code table
before DERIVE, both in phase FAULT (where neither can be read and only CLEAR or reset leaves), and the model's own
counter of free values. -/
structure SameSpecified (s t : State) : Prop where
  phase : s.phase = t.phase
  err : s.err = t.err
  freq : s.freq = t.freq
  inlen : s.inlen = t.inlen
  tree : treeReadable s.phase → s.nodeW = t.nodeW ∧ s.nodeL = t.nodeL ∧ s.nodeR = t.nodeR
  inq : s.inq = t.inq
  nextid : s.nextid = t.nextid
  qcount : s.qcount = t.qcount
  root : s.root = t.root
  codeV : s.codeV = t.codeV
  table : tableReadable s.phase → s.codeLen = t.codeLen ∧ s.codeVal = t.codeVal
  acc : s.acc = t.acc
  accN : s.accN = t.accN
  pklen : s.pklen = t.pklen
  bitcnt : s.bitcnt = t.bitcnt
  outlen : s.outlen = t.outlen
  padn : s.padn = t.padn
  out : s.out = t.out
  hostIn : s.hostIn = t.hostIn
  portOut : s.portOut = t.portOut

end Sys2Proof.Machine
end

