-- ==== Sys2Proof/Certificates/Slice0/Obligations.lean ====
section
/-! DEFINITION. The statements for the provers, each a def Obligations.<Name> : Prop. A docstring names the rule or section
of `spec/` it formalises; DEDUCED marks a consequence that the spec itself draws and marks as derived, or that it states in
prose about the whole machine. The records `faulted`, `refusedIn`, `answered` and the tables below are the statements' own
wording of rules R37, R106 and R113. A response is written as an entry of `portOut` and a command presented as one of
`hostIn`, the model's own fields (assumption log 1, 2). -/

namespace Sys2Proof.Claims

open Sys2Proof.Machine

/-- The state after a fault with code `e` raised in `s` (R113, R117): ERR, PHASE and the response (1, STATUS). -/
def faulted (e : Err) (s : State) : State :=
  { s with
    err := e
    phase := .fault
    portOut := s.portOut ++ [.response true (statusWord { s with err := e, phase := .fault })] }

/-- The state after a command refused in phase FAULT (R113 point 3): only the response (1, STATUS) is new. -/
def refusedIn (s : State) : State := { s with portOut := s.portOut ++ [.response true (statusWord s)] }

/-- `s` with the response (0, d) (R37). -/
def answered (d : RspData) (s : State) : State := { s with portOut := s.portOut ++ [.response false d] }

/-- What a command out of its phase does: refused in FAULT, ERR_SEQ elsewhere (R106, R116). -/
def outOfPhase (s : State) : State := if s.phase = .fault then refusedIn s else faulted .seq s

/-- The table of R106: the phase after an accepted command; none where the command is not accepted. -/
def phaseAfter : Instr → Phase → Option Phase
  | .clear, _ => some .count
  | .count _, .count => some .count
  | .count _, _ => none
  | .build, .count => some .built
  | .build, _ => none
  | .derive, .built => some .pack
  | .derive, _ => none
  | .pack _, .pack => some .pack
  | .pack _, _ => none
  | .finish, .pack => some .done
  | .finish, _ => none
  | .abort, .fault => none
  | .abort, _ => some .fault
  | .rdreg _, p => some p
  | .rdfreq _, .fault => none
  | .rdfreq _, p => some p
  | .rdnodew _, .built => some .built
  | .rdnodew _, .pack => some .pack
  | .rdnodew _, .done => some .done
  | .rdnodew _, _ => none
  | .rdnodel _, .built => some .built
  | .rdnodel _, .pack => some .pack
  | .rdnodel _, .done => some .done
  | .rdnodel _, _ => none
  | .rdclen _, .pack => some .pack
  | .rdclen _, .done => some .done
  | .rdclen _, _ => none
  | .rdcode _ _, .pack => some .pack
  | .rdcode _ _, .done => some .done
  | .rdcode _ _, _ => none

/-- The faults an accepted command may still raise (R106, R112). -/
def ownFaults : Instr → List Err
  | .count _ => [.overflow]
  | .derive => [.degenerate]
  | .pack _ => [.noCode, .pass]
  | .finish => [.pass]
  | .abort => [.io]
  | _ => []

/-- The six read commands (R32, R126). -/
def isRead : Instr → Bool
  | .rdreg _ => true
  | .rdfreq _ => true
  | .rdnodew _ => true
  | .rdnodel _ => true
  | .rdclen _ => true
  | .rdcode _ _ => true
  | _ => false

/-- The pseudo-instruction ENCODE of R59: one complete encode of a byte string. -/
def encodeCommands (bytes : List Sym) : List Instr :=
  .clear :: bytes.map .count ++ [.build, .derive] ++ bytes.map .pack ++ [.finish]

/-- The commands as the host presents them. -/
def presented (commands : List Instr) : List HostInput := commands.map fun i => .word (encode i)

/-- The byte of an output, if it is one. -/
def byteOf : PortOutput → Option Byte
  | .byte v => some v
  | .response _ _ => none

/-- The response of an output, if it is one. -/
def responseOf : PortOutput → Option (Bool × RspData)
  | .byte _ => none
  | .response e d => some (e, d)

end Sys2Proof.Claims

open Sys2Proof Sys2Proof.Machine Sys2Proof.Claims

/-! ### Encoding -/

/-- DEDUCED, R49: `decode(encode(c)) = c` for every command with in-range operands. -/
def Obligations.DecodingAnEncodedCommandGivesItBack : Prop :=
  ∀ i : Instr, i.wellFormed = true → decode (encode i) = .command i

/-- DEDUCED, R49: `encode(decode(w)) = w` for every legal word, and what is decoded is well-formed. -/
def Obligations.EncodingADecodedWordGivesItBack : Prop :=
  ∀ (w : CmdWord) (i : Instr), decode w = .command i → i.wellFormed = true ∧ encode i = w

/-- R50 to R54: the word of each command as a number. -/
def Obligations.CommandWordsAreTheirFormulas : Prop :=
  (encode .clear).toNat = 0x1000 ∧ (encode .build).toNat = 0x3000 ∧ (encode .derive).toNat = 0x4000 ∧
    (encode .finish).toNat = 0x6000 ∧ (encode .abort).toNat = 0x7000 ∧
    (∀ sym : Sym, (encode (.count sym)).toNat = 0x2000 + sym.toNat ∧ (encode (.pack sym)).toNat = 0x5000 + sym.toNat ∧
      (encode (.rdfreq sym)).toNat = 0x9000 + sym.toNat ∧ (encode (.rdclen sym)).toNat = 0xC000 + sym.toNat) ∧
    (∀ reg : BitVec 8, reg.toNat ≤ 10 → (encode (.rdreg reg)).toNat = 0x8000 + reg.toNat) ∧
    (∀ id : NodeId, id.toNat ≤ 510 → (encode (.rdnodew id)).toNat = 0xA000 + id.toNat ∧
      (encode (.rdnodel id)).toNat = 0xB000 + id.toNat) ∧
    ∀ (sym : Sym) (w : BitVec 3), (encode (.rdcode sym w)).toNat = 0xD000 + 256 * w.toNat + sym.toNat

/-- R55, R56: the illegal words are exactly the listed ones, and executing one raises ERR_ILLEGAL, in phase FAULT
nothing. With op, sub and arg the fields of R45 as numbers. -/
def Obligations.IllegalWordsAreTheListedOnesAndFault : Prop :=
  (∀ w : CmdWord,
    let op := w.toNat / 4096
    let sub := w.toNat / 256 % 16
    let arg := w.toNat % 256
    ((∃ why, decode w = .illegal why) ↔
      (op = 0x0 ∨ op = 0xE ∨ op = 0xF) ∨
      ((op = 0x1 ∨ op = 0x3 ∨ op = 0x4 ∨ op = 0x6 ∨ op = 0x7) ∧ (sub ≠ 0 ∨ arg ≠ 0)) ∨
      ((op = 0x2 ∨ op = 0x5 ∨ op = 0x9 ∨ op = 0xC) ∧ sub ≠ 0) ∨
      (op = 0x8 ∧ (sub ≠ 0 ∨ 10 < arg)) ∨
      ((op = 0xA ∨ op = 0xB) ∧ (2 ≤ sub ∨ 256 * (sub % 2) + arg = 511)) ∨
      (op = 0xD ∧ 8 ≤ sub))) ∧
  ∀ (s : State) (w : CmdWord) (rest : List HostInput) (why : Illegal), s.hostIn = .word w :: rest →
    decode w = .illegal why →
      (s.phase ≠ .fault → step s = .next (faulted .illegal { s with hostIn := rest })) ∧
      (s.phase = .fault → step s = .next (refusedIn { s with hostIn := rest }))

/-- Words of the spec, written out from the bit layouts of R46, decode to their commands (R48; the examples of R50 to
R54). -/
def Obligations.SpecWordsDecodeToTheirCommands : Prop :=
  decode 0b0001000000000000#16 = .command .clear ∧
    decode 0b0010000001000001#16 = .command (.count 0x41#8) ∧
    decode 0b0011000000000000#16 = .command .build ∧
    decode 0b0100000000000000#16 = .command .derive ∧
    decode 0b0101000011111111#16 = .command (.pack 0xFF#8) ∧
    decode 0b0110000000000000#16 = .command .finish ∧
    decode 0b0111000000000000#16 = .command .abort ∧
    decode 0b1000000000001010#16 = .command (.rdreg 10#8) ∧
    decode 0b1001000001100001#16 = .command (.rdfreq 0x61#8) ∧
    decode 0b1010000111111110#16 = .command (.rdnodew 510#9) ∧
    decode 0b1011000100000000#16 = .command (.rdnodel 256#9) ∧
    decode 0b1100000001000001#16 = .command (.rdclen 0x41#8) ∧
    decode 0b1101011101000001#16 = .command (.rdcode 0x41#8 7#3)

/-! ### The step and reset -/

/-- DEDUCED, R9, R116: a step with a legal word next is that command, executed with the word taken from the model's
queue (assumption log 1). -/
def Obligations.StepRunsTheDecodedCommand : Prop :=
  ∀ (s : State) (w : CmdWord) (rest : List HostInput) (i : Instr), s.hostIn = .word w :: rest →
    decode w = .command i → step s = exec i { s with hostIn := rest }

/-- DEDUCED, R127: with nothing presented the hardware holds its state. The queue of inputs is the model's (assumption
log 1). -/
def Obligations.StepWithoutInputHoldsTheState : Prop :=
  ∀ s : State, s.hostIn = [] → step s = .next s

/-- DEDUCED, R9: the step is total: every state has a next state. -/
def Obligations.EveryStepAnswersANextState : Prop :=
  (∀ s : State, ∃ t, step s = .next t) ∧ ∀ (i : Instr) (s : State), ∃ t, exec i s = .next t

/-- R26, R103, R128: the state after the event `rst`, whatever it was before: each register the table gives a value, no
response, no byte; and CLEAR makes the same state, but for its response and for unspecified content. The unspecified
arrays are left open. That `rst` is an entry of `hostIn`, and that `portOut` stays, are the model's choice (assumption
log 1, 2). -/
def Obligations.RstGivesTheResetTable : Prop :=
  ∀ (s : State) (rest : List HostInput), s.hostIn = .rst :: rest →
    ∃ t, step s = .next t ∧
      (∃ u, exec .clear { s with hostIn := rest } = .next u ∧ SameSpecified u (answered 0#32 t)) ∧
      t.phase = .count ∧ t.err = .none ∧ t.freq = Vector.replicate 256 0#32 ∧ t.inlen = 0#32 ∧
      t.inq = Vector.replicate 511 false ∧ t.nextid = 256#9 ∧ t.qcount = 0#9 ∧ t.root = 0#9 ∧
      t.codeV = Vector.replicate 256 false ∧ t.acc = 0#8 ∧ t.accN = 0#3 ∧ t.pklen = 0#32 ∧ t.bitcnt = 0#40 ∧
      t.outlen = 0#40 ∧ t.padn = 0#3 ∧ t.out = [] ∧ t.portOut = s.portOut ∧ t.hostIn = rest ∧
      donePin t = false ∧ faultPin t = false

/-- R26, R108: `State.reset` has the values of the table, and STATUS reads 0. The clause that `portOut` is empty is not
of the table: it is the model's choice (assumption log 2). -/
def Obligations.ResetStateHasTheTableValues : Prop :=
  State.reset.phase = .count ∧ State.reset.err = .none ∧ State.reset.freq = Vector.replicate 256 0#32 ∧
    State.reset.inlen = 0#32 ∧ State.reset.inq = Vector.replicate 511 false ∧ State.reset.nextid = 256#9 ∧
    State.reset.qcount = 0#9 ∧ State.reset.root = 0#9 ∧ State.reset.codeV = Vector.replicate 256 false ∧
    State.reset.acc = 0#8 ∧ State.reset.accN = 0#3 ∧ State.reset.pklen = 0#32 ∧ State.reset.bitcnt = 0#40 ∧
    State.reset.outlen = 0#40 ∧ State.reset.padn = 0#3 ∧ State.reset.out = [] ∧ State.reset.portOut = [] ∧
    statusWord State.reset = 0#32

/-! ### Status -/

/-- R108: STATUS as a number, and so field by field, with the values of PHASE and ERR; it reads 0 after reset, and every
non-read command answers it as it stands after the command. -/
def Obligations.StatusIsItsFourFields : Prop :=
  (∀ s : State, (statusWord s).toNat =
    (phaseCode s.phase).toNat + 16 * (errCode s.err).toNat + 256 * s.accN.toNat + 4096 * s.padn.toNat) ∧
  ((phaseCode .count).toNat = 0 ∧ (phaseCode .built).toNat = 1 ∧ (phaseCode .pack).toNat = 2 ∧
    (phaseCode .done).toNat = 3 ∧ (phaseCode .fault).toNat = 7) ∧
  ((errCode .none).toNat = 0 ∧ (errCode .illegal).toNat = 1 ∧ (errCode .seq).toNat = 2 ∧ (errCode .overflow).toNat = 3 ∧
    (errCode .noCode).toNat = 4 ∧ (errCode .degenerate).toNat = 5 ∧ (errCode .pass).toNat = 6 ∧ (errCode .io).toNat = 7) ∧
  statusWord State.reset = 0#32 ∧
  ∀ (i : Instr) (s t : State), isRead i = false → exec i s = .next t →
    ∃ earlier e, t.portOut = earlier ++ [.response e (statusWord t)]

/-- R112: the seven codes, and for each the exact condition it is raised on, over all words in all phases but FAULT; the
two codes marked unreachable are not raised in a state that meets the invariant. -/
def Obligations.FaultsAreRaisedExactlyAsTabled : Prop :=
  ((errCode .none).toNat = 0 ∧ (errCode .illegal).toNat = 1 ∧ (errCode .seq).toNat = 2 ∧ (errCode .overflow).toNat = 3 ∧
    (errCode .noCode).toNat = 4 ∧ (errCode .degenerate).toNat = 5 ∧ (errCode .pass).toNat = 6 ∧ (errCode .io).toNat = 7) ∧
  ∀ (s t : State) (w : CmdWord) (rest : List HostInput), s.hostIn = .word w :: rest → s.phase ≠ .fault →
    step s = .next t →
    (t = faulted .illegal { s with hostIn := rest } ↔ ∃ why, decode w = .illegal why) ∧
    (t = faulted .seq { s with hostIn := rest } ↔ ∃ i, decode w = .command i ∧ phaseAfter i s.phase = none) ∧
    (t = faulted .overflow { s with hostIn := rest } ↔
      s.phase = .count ∧ s.inlen = 0xFFFFFFFF#32 ∧ ∃ sym, decode w = .command (.count sym)) ∧
    (t = faulted .noCode { s with hostIn := rest } ↔
      s.phase = .pack ∧ ∃ sym, decode w = .command (.pack sym) ∧ s.codeV[sym.toNat] = false) ∧
    (t = faulted .degenerate { s with hostIn := rest } ↔
      s.phase = .built ∧ s.root.toNat < 256 ∧ decode w = .command .derive) ∧
    (t = faulted .pass { s with hostIn := rest } ↔
      s.phase = .pack ∧
        ((s.pklen = s.inlen ∧ ∃ sym, decode w = .command (.pack sym) ∧ s.codeV[sym.toNat] = true) ∨
          (s.pklen ≠ s.inlen ∧ decode w = .command .finish))) ∧
    (t = faulted .io { s with hostIn := rest } ↔ decode w = .command .abort) ∧
    (t.phase = .fault → ∃ c, c ≠ .none ∧ t = faulted c { s with hostIn := rest }) ∧
    (Inv s → t.err ≠ .noCode ∧ t.err ≠ .degenerate)

/-- R121, R39: the two level outputs are functions of PHASE, 0 after reset and never both 1. -/
def Obligations.LevelOutputsFollowPhase : Prop :=
  (∀ s : State, (donePin s = true ↔ (phaseCode s.phase).toNat = 3) ∧ (faultPin s = true ↔ (phaseCode s.phase).toNat = 7) ∧
    ¬(donePin s = true ∧ faultPin s = true)) ∧
  donePin State.reset = false ∧ faultPin State.reset = false

/-! ### Control commands -/

/-- R102: CLEAR, in every phase: the table of R26 and the response (0, 0), the unspecified arrays left open; nothing of the
earlier encode is left: two states that differ only in it become the same, unspecified content apart; and no other
command leaves phase FAULT. That what is presented and what has left the ports stay is the model's choice (assumption
log 1, 2). -/
def Obligations.ClearStartsANewEncode : Prop :=
  (encode .clear).toNat = 0x1000 ∧
  (∀ s : State, ∃ t, exec .clear s = .next t ∧ t.phase = .count ∧ t.err = .none ∧ t.freq = Vector.replicate 256 0#32 ∧
    t.inlen = 0#32 ∧ t.inq = Vector.replicate 511 false ∧ t.nextid = 256#9 ∧ t.qcount = 0#9 ∧ t.root = 0#9 ∧
    t.codeV = Vector.replicate 256 false ∧ t.acc = 0#8 ∧ t.accN = 0#3 ∧ t.pklen = 0#32 ∧ t.bitcnt = 0#40 ∧
    t.outlen = 0#40 ∧ t.padn = 0#3 ∧ t.out = [] ∧ t.hostIn = s.hostIn ∧
    t.portOut = s.portOut ++ [.response false 0#32]) ∧
  (∀ s t : State, s.hostIn = t.hostIn → s.portOut = t.portOut →
    ∃ s' t', exec .clear s = .next s' ∧ exec .clear t = .next t' ∧ SameSpecified s' t') ∧
  ∀ (i : Instr) (s t : State), s.phase = .fault → exec i s = .next t → t.phase ≠ .fault → i = .clear

/-- R104: ABORT raises ERR_IO in every phase but FAULT, where it is refused. -/
def Obligations.AbortRaisesErrIo : Prop :=
  (encode .abort).toNat = 0x7000 ∧
  ∀ s : State, (s.phase ≠ .fault → exec .abort s = .next (faulted .io s)) ∧
    (s.phase = .fault → exec .abort s = .next (refusedIn s))

/-- R105, R107, R109: RDREG answers the register in every phase and changes nothing; another register number, or a
modifier, makes the word illegal. -/
def Obligations.RdregAnswersTheRegister : Prop :=
  (∀ w : CmdWord, w.toNat / 4096 = 0x8 → w.toNat / 256 % 16 ≠ 0 ∨ 10 < w.toNat % 256 →
    ∃ why, decode w = .illegal why) ∧
  (∀ reg : BitVec 8, reg.toNat ≤ 10 → (encode (.rdreg reg)).toNat = 0x8000 + reg.toNat) ∧
  ∀ s : State,
    exec (.rdreg 0#8) s = .next (answered (statusWord s) s) ∧
    exec (.rdreg 1#8) s = .next (answered s.inlen s) ∧
    exec (.rdreg 2#8) s = .next (answered s.pklen s) ∧
    exec (.rdreg 3#8) s = .next (answered (BitVec.ofNat 32 s.bitcnt.toNat) s) ∧
    exec (.rdreg 4#8) s = .next (answered (BitVec.ofNat 32 (s.bitcnt.toNat / 2 ^ 32)) s) ∧
    exec (.rdreg 5#8) s = .next (answered (BitVec.ofNat 32 s.outlen.toNat) s) ∧
    exec (.rdreg 6#8) s = .next (answered (BitVec.ofNat 32 (s.outlen.toNat / 2 ^ 32)) s) ∧
    exec (.rdreg 7#8) s = .next (answered (BitVec.ofNat 32 s.root.toNat) s) ∧
    exec (.rdreg 8#8) s = .next (answered (BitVec.ofNat 32 s.qcount.toNat) s) ∧
    exec (.rdreg 9#8) s = .next (answered (BitVec.ofNat 32 s.nextid.toNat) s) ∧
    exec (.rdreg 10#8) s = .next (answered (BitVec.ofNat 32 s.acc.toNat) s)

/-! ### Frequency counter -/

/-- R61: COUNT in every phase: the new FREQ[sym] and INLEN, the overflow fault, the phase faults; in a state that meets
the invariant both additions are exact and STATUS reads 0; and two pass-1 sequences that are permutations of each other
leave the same state. -/
def Obligations.CountCountsOneOccurrence : Prop :=
  (∀ (sym : Sym) (s : State),
    (encode (.count sym)).toNat = 0x2000 + sym.toNat ∧
    (s.phase = .count → s.inlen ≠ 0xFFFFFFFF#32 →
      exec (.count sym) s = .next (answered (statusWord s)
        { s with freq := s.freq.set sym.toNat (s.freq[sym.toNat] + 1#32), inlen := s.inlen + 1#32 })) ∧
    (s.phase = .count → s.inlen = 0xFFFFFFFF#32 → exec (.count sym) s = .next (faulted .overflow s)) ∧
    (s.phase ≠ .count → exec (.count sym) s = .next (outOfPhase s)) ∧
    (Inv s → s.phase = .count → s.inlen ≠ 0xFFFFFFFF#32 → statusWord s = 0#32 ∧
      (s.inlen + 1#32).toNat = s.inlen.toNat + 1 ∧ (s.freq[sym.toNat] + 1#32).toNat = s.freq[sym.toNat].toNat + 1)) ∧
  ∀ (s : State) (bytes bytes' : List Sym) (rest : List HostInput), bytes.Perm bytes' → s.phase = .count →
    s.inlen.toNat + bytes.length ≤ 2 ^ 32 - 1 →
    ∃ t, Host.Core.run Sys2Proof.core bytes.length { s with hostIn := presented (bytes.map .count) ++ rest } = .next t ∧
      Host.Core.run Sys2Proof.core bytes.length { s with hostIn := presented (bytes'.map .count) ++ rest } = .next t

/-- R63: RDFREQ answers the running count in phases COUNT, BUILT, PACK and DONE, and is refused in FAULT. -/
def Obligations.RdfreqAnswersTheFrequency : Prop :=
  ∀ (sym : Sym) (s : State),
    (encode (.rdfreq sym)).toNat = 0x9000 + sym.toNat ∧
    (s.phase ≠ .fault → exec (.rdfreq sym) s = .next (answered s.freq[sym.toNat] s)) ∧
    (s.phase = .fault → exec (.rdfreq sym) s = .next (refusedIn s))

/-! ### Tree builder -/

/-- R65 to R69: BUILD in phase COUNT, from any frequency table: leaf weights are the frequencies, each internal node the
sum of the two least waiting nodes in the order (weight, id), first taken left; the registers of R19, INQ and PHASE as
R69 says; nothing else changes, and STATUS then reads 1 in a state that meets the invariant. In any other phase it is out
of order. That the one id left in INQ, which R69 makes ROOT, is 510 for every table, with NEXTID = 511, is DEDUCED: R70
points 2 and 3, marked derived there. -/
def Obligations.BuildMakesTheGreedyTree : Prop :=
  (encode .build).toNat = 0x3000 ∧
  ∀ s : State,
    (Inv s → s.phase = .count → statusWord { s with phase := .built } = 1#32) ∧
    (s.phase = .count → ∃ t, exec .build s = .next t ∧ GreedyTree t ∧
      (∀ sym : Fin 256, t.nodeW[sym.val] = s.freq[sym]) ∧
      (∀ (k : Fin 255) (l r : Fin 511), l.val = leftChild t k → r.val = rightChild t k →
        t.nodeW[256 + k.val] = t.nodeW[l] + t.nodeW[r]) ∧
      t = answered (statusWord { s with phase := .built })
        { s with
          phase := .built, nodeW := t.nodeW, nodeL := t.nodeL, nodeR := t.nodeR,
          inq := Vector.ofFn fun id : Fin 511 => decide (id.val = 510), nextid := 511#9, qcount := 1#9,
          root := 510#9 }) ∧
    (s.phase ≠ .count → exec .build s = .next (outOfPhase s))

/-- DEDUCED, R70 points 1 and 2: after `k` merges the collection has 256 - k members, the next id is 256 + k, and both
members a merge takes exist; the loop of BUILD is exactly 255 merges. -/
def Obligations.BuildMergesExactly255Times : Prop :=
  ∀ s : State, mergeWhile 256 (seed s) = mergeStep^[255] (seed s) ∧
    ∀ k : Nat, k ≤ 255 →
      (mergeStep^[k] (seed s)).qcount.toNat = 256 - k ∧ (mergeStep^[k] (seed s)).nextid.toNat = 256 + k ∧
      (k < 255 → ∃ a t b u, extractMin (mergeStep^[k] (seed s)) = some (a, t) ∧ extractMin t = some (b, u))

/-- DEDUCED, R70 points 3 to 6, R17: what every BUILD leaves when the frequencies add up to INLEN: the link invariants,
exact weights with INLEN at the root, and internal weights that do not decrease in creation order. -/
def Obligations.BuiltTreeHasTheTreeProperties : Prop :=
  ∀ s t : State, s.phase = .count → freqTotal s = s.inlen.toNat → exec .build s = .next t →
    TreeLinks t ∧ TreeWeights t ∧ t.root = 510#9 ∧
      ∀ j k : Fin 255, j.val ≤ k.val → weight t (256 + j) ≤ weight t (256 + k)

/-- DEDUCED, R70 point 7: BUILD is a function of FREQ alone. -/
def Obligations.BuildDependsOnFreqAlone : Prop :=
  ∀ s s' t t' : State, s.phase = .count → s'.phase = .count → s.freq = s'.freq → exec .build s = .next t →
    exec .build s' = .next t' → t.nodeW = t'.nodeW ∧ t.nodeL = t'.nodeL ∧ t.nodeR = t'.nodeR

/-- DEDUCED, R71, second bullet: with all frequencies zero the tree is perfectly balanced: node 256 + k has the children
2k and 2k + 1, and every weight is 0. -/
def Obligations.EmptyInputBuildsTheBalancedTree : Prop :=
  ∀ s t : State, s.phase = .count → (∀ sym : Fin 256, s.freq[sym] = 0#32) → exec .build s = .next t →
    (∀ k : Fin 255, leftChild t k = 2 * k ∧ rightChild t k = 2 * k + 1) ∧ ∀ id : Fin 511, t.nodeW[id] = 0#32

/-- R72: RDNODEW answers NODE_W[id] in phases BUILT, PACK and DONE; what it reads there, in a state that meets the
invariant; and the illegal words of its opcode. -/
def Obligations.RdnodewAnswersTheWeight : Prop :=
  (∀ w : CmdWord, w.toNat / 4096 = 0xA → 2 ≤ w.toNat / 256 % 16 ∨ w.toNat % 512 = 511 →
    ∃ why, decode w = .illegal why) ∧
  ∀ (id : NodeId) (s : State) (h : id.toNat < 511),
    (encode (.rdnodew id)).toNat = 0xA000 + id.toNat ∧
    (s.phase = .built ∨ s.phase = .pack ∨ s.phase = .done →
      exec (.rdnodew id) s = .next (answered s.nodeW[id.toNat] s)) ∧
    (s.phase = .count ∨ s.phase = .fault → exec (.rdnodew id) s = .next (outOfPhase s)) ∧
    (Inv s → s.phase = .built ∨ s.phase = .pack ∨ s.phase = .done →
      (∀ hl : id.toNat < 256, s.nodeW[id.toNat] = s.freq[id.toNat]) ∧ (id = 510#9 → s.nodeW[id.toNat] = s.inlen))

/-- R73: RDNODEL answers kind, membership and children in phases BUILT, PACK and DONE; what it reads of a leaf and of
the root, and that the root alone is a member, in a state that meets the invariant; and the illegal words of its opcode.
-/
def Obligations.RdnodelAnswersTheLinks : Prop :=
  (∀ w : CmdWord, w.toNat / 4096 = 0xB → 2 ≤ w.toNat / 256 % 16 ∨ w.toNat % 512 = 511 →
    ∃ why, decode w = .illegal why) ∧
  ∀ (id : NodeId) (s : State) (h : id.toNat < 511),
    (encode (.rdnodel id)).toNat = 0xB000 + id.toNat ∧
    (s.phase = .built ∨ s.phase = .pack ∨ s.phase = .done →
      (id.toNat < 256 →
        exec (.rdnodel id) s = .next (answered (BitVec.ofNat 32 (2 ^ 31 + s.inq[id.toNat].toNat * 2 ^ 30)) s)) ∧
      (∀ k : Fin 255, id.toNat = 256 + k.val →
        exec (.rdnodel id) s =
          .next (answered (BitVec.ofNat 32
            (s.inq[id.toNat].toNat * 2 ^ 30 + s.nodeR[k].toNat * 2 ^ 16 + s.nodeL[k].toNat)) s)) ∧
      (Inv s → s.inq[id.toNat] = decide (id = 510#9)) ∧
      (Inv s → id.toNat < 256 → exec (.rdnodel id) s = .next (answered 0x80000000#32 s)) ∧
      (Inv s → id = 510#9 → exec (.rdnodel id) s =
        .next (answered (BitVec.ofNat 32 (0x40000000 + rightChild s 254 * 65536 + leftChild s 254)) s))) ∧
    (s.phase = .count ∨ s.phase = .fault → exec (.rdnodel id) s = .next (outOfPhase s))

/-! ### Code derivation -/

/-- R80, R81: DERIVE in phase BUILT. From any root that is an internal node it fills the code table, PHASE goes to PACK
and nothing else of the spec's state changes; on the tree BUILD leaves, each symbol's entry is its one root-to-leaf
path, the contract of R80 (that the sweep of R81 computes it is R82's inference), and STATUS then reads 2 in a state that
meets the invariant. A root that is a leaf raises ERR_DEGENERATE; in any other phase DERIVE is out of order. The counter
`draws` is the model's own (assumption log 4). -/
def Obligations.DeriveFillsTheTableWithPaths : Prop :=
  (encode .derive).toNat = 0x4000 ∧
  ∀ s : State,
    (Inv s → s.phase = .built → statusWord { s with phase := .pack } = 2#32) ∧
    (s.phase = .built → s.root.toNat < 256 → exec .derive s = .next (faulted .degenerate s)) ∧
    (s.phase = .built → 256 ≤ s.root.toNat → ∃ t, exec .derive s = .next t ∧
      t.codeV = Vector.replicate 256 true ∧
      t = answered (statusWord { s with phase := .pack })
        { s with phase := .pack, codeV := t.codeV, codeLen := t.codeLen, codeVal := t.codeVal, draws := t.draws } ∧
      (TreeLinks s → s.root = 510#9 →
        ∀ sym : Sym, Path s sym.toNat (codeOf t sym) ∧ (∀ p, Path s sym.toNat p → p = codeOf t sym) ∧
          (symEntry t.codeVal sym).toNat < 2 ^ (symEntry t.codeLen sym).toNat)) ∧
    (s.phase ≠ .built → exec .derive s = .next (outOfPhase s))

/-- R84: a root that is a leaf raises ERR_DEGENERATE, code 5; with 256 leaves seeded the test never succeeds, as BUILD
always leaves ROOT = 510. -/
def Obligations.DeriveRefusesALeafRoot : Prop :=
  (errCode .degenerate).toNat = 5 ∧
  ∀ s : State, s.phase = .built →
    (s.root.toNat < 256 → exec .derive s = .next (faulted .degenerate s)) ∧ (Inv s → s.root = 510#9)

/-- DEDUCED, R83 points 1 to 3: full coverage, prefix-freedom (also in the integer form) and length bounds of the codes
DERIVE stores. -/
def Obligations.DerivedCodesArePrefixFree : Prop :=
  ∀ s t : State, s.phase = .built → TreeLinks s → s.root = 510#9 → exec .derive s = .next t →
    (∀ sym : Sym, symEntry t.codeV sym = true ∧ 1 ≤ (symEntry t.codeLen sym).toNat ∧
      (symEntry t.codeLen sym).toNat ≤ 255) ∧
    ∀ a b : Sym, a ≠ b → ¬codeOf t a <+: codeOf t b ∧
      ((symEntry t.codeLen a).toNat ≤ (symEntry t.codeLen b).toNat →
        (symEntry t.codeVal b).toNat >>> ((symEntry t.codeLen b).toNat - (symEntry t.codeLen a).toNat) ≠
          (symEntry t.codeVal a).toNat)

/-- DEDUCED, R83 point 4: the Kraft sum of the codes is exactly 1, here multiplied by 2^255. -/
def Obligations.DerivedCodesMeetKraftEquality : Prop :=
  ∀ s t : State, s.phase = .built → TreeLinks s → s.root = 510#9 → exec .derive s = .next t →
    ((List.finRange 256).map fun sym => 2 ^ (255 - t.codeLen[sym].toNat)).sum = 2 ^ 255

/-- DEDUCED, R85, first bullet: on the balanced tree of the empty input every code is the byte itself, in eight digits.
-/
def Obligations.BalancedTreeGivesEachByteItself : Prop :=
  ∀ s t : State, s.phase = .built → s.root = 510#9 →
    (∀ k : Fin 255, leftChild s k = 2 * k ∧ rightChild s k = 2 * k + 1) → exec .derive s = .next t →
    ∀ sym : Sym, symEntry t.codeLen sym = 8#8 ∧ (symEntry t.codeVal sym).toNat = sym.toNat

/-- DEDUCED, R71, first bullet, and R85, second bullet: when one symbol alone occurs, the last merge takes node 509
first and its leaf second, and its code is the single digit 1; every other code begins with 0. -/
def Obligations.OneSymbolInputGivesItTheDigitOne : Prop :=
  ∀ (x : Sym) (s t u : State), s.phase = .count → s.freq[x.toNat] ≠ 0#32 →
    (∀ y : Sym, y ≠ x → s.freq[y.toNat] = 0#32) → exec .build s = .next t → exec .derive t = .next u →
    leftChild t 254 = 509 ∧ rightChild t 254 = x.toNat ∧ (∀ id : Fin 510, 256 ≤ id.val → t.nodeW[id.val] = 0#32) ∧
      codeOf u x = [true] ∧ ∀ y : Sym, y ≠ x → ∃ digits, codeOf u y = false :: digits

/-- R86: RDCLEN answers CODE_LEN[sym] in phases PACK and DONE; from 1 to 255 in a state that meets the invariant. -/
def Obligations.RdclenAnswersTheLength : Prop :=
  ∀ (sym : Sym) (s : State),
    (encode (.rdclen sym)).toNat = 0xC000 + sym.toNat ∧
    (s.phase = .pack ∨ s.phase = .done →
      exec (.rdclen sym) s = .next (answered (BitVec.ofNat 32 s.codeLen[sym.toNat].toNat) s)) ∧
    (s.phase = .count ∨ s.phase = .built ∨ s.phase = .fault → exec (.rdclen sym) s = .next (outOfPhase s)) ∧
    (Inv s → s.phase = .pack ∨ s.phase = .done → 1 ≤ s.codeLen[sym.toNat].toNat ∧ s.codeV[sym.toNat] = true)

/-- R87, R35 point 4: RDCODE answers bits 32w + 31 to 32w of CODE_VAL[sym] in phases PACK and DONE; a value of at most
32 bits is all in word 0, and a value has no more bits than its code digits, in a state that meets the invariant; bit 31
of word 7 is 0; and the illegal words of its opcode. -/
def Obligations.RdcodeAnswersASliceOfTheCode : Prop :=
  (∀ v : CodeVal, v.toNat / 2 ^ 224 < 2 ^ 31) ∧
  (∀ w : CmdWord, w.toNat / 4096 = 0xD → 8 ≤ w.toNat / 256 % 16 → ∃ why, decode w = .illegal why) ∧
  ∀ (sym : Sym) (w : BitVec 3) (s : State),
    (encode (.rdcode sym w)).toNat = 0xD000 + 256 * w.toNat + sym.toNat ∧
    (s.phase = .pack ∨ s.phase = .done →
      exec (.rdcode sym w) s =
        .next (answered (BitVec.ofNat 32 (s.codeVal[sym.toNat].toNat / 2 ^ (32 * w.toNat))) s)) ∧
    (Inv s → s.phase = .pack ∨ s.phase = .done →
      s.codeVal[sym.toNat].toNat < 2 ^ s.codeLen[sym.toNat].toNat) ∧
    (s.phase = .pack ∨ s.phase = .done → s.codeVal[sym.toNat].toNat < 2 ^ 32 → w ≠ 0#3 →
      exec (.rdcode sym w) s = .next (answered 0#32 s)) ∧
    (s.phase = .count ∨ s.phase = .built ∨ s.phase = .fault → exec (.rdcode sym w) s = .next (outOfPhase s))

/-! ### Bit packer -/

/-- R93, R92: PACK in every phase. With a code and room in pass 2 the code's digits follow the digits accepted so far,
whole bytes leave in order, and the registers take the stated values; nothing else changes. The faults stand in their
order. In a state that meets the invariant both additions are exact and the response is 2 + 256 · ACC_N. -/
def Obligations.PackAppendsTheCode : Prop :=
  ∀ (sym : Sym) (s : State),
    (encode (.pack sym)).toNat = 0x5000 + sym.toNat ∧
    (s.phase = .pack → s.codeV[sym.toNat] = true → s.pklen ≠ s.inlen →
      ∃ t bytes, exec (.pack sym) s = .next t ∧
        bitBuffer t = bitBuffer s ++ codeOf s sym ∧
        bytes.length = (s.accN.toNat + s.codeLen[sym.toNat].toNat) / 8 ∧ bytes.length ≤ 32 ∧
        t.accN.toNat = (s.accN.toNat + s.codeLen[sym.toNat].toNat) % 8 ∧
        (s.acc.toNat < 2 ^ s.accN.toNat → t.acc.toNat < 2 ^ t.accN.toNat) ∧
        t = { s with
          acc := t.acc, accN := t.accN, pklen := s.pklen + 1#32,
          bitcnt := s.bitcnt + BitVec.ofNat 40 s.codeLen[sym.toNat].toNat, out := s.out ++ bytes,
          outlen := s.outlen + BitVec.ofNat 40 bytes.length,
          portOut := s.portOut ++ bytes.map .byte ++ [.response false (statusWord t)] } ∧
        (Inv s → (statusWord t).toNat = 2 + 256 * t.accN.toNat ∧ t.pklen.toNat = s.pklen.toNat + 1 ∧
          t.bitcnt.toNat = s.bitcnt.toNat + s.codeLen[sym.toNat].toNat)) ∧
    (s.phase = .pack → s.codeV[sym.toNat] = false → exec (.pack sym) s = .next (faulted .noCode s)) ∧
    (s.phase = .pack → s.codeV[sym.toNat] = true → s.pklen = s.inlen →
      exec (.pack sym) s = .next (faulted .pass s)) ∧
    (s.phase ≠ .pack → exec (.pack sym) s = .next (outOfPhase s))

/-- R98, and R97: the two internal-consistency checks. ERR_NOCODE is code 4, and (DEDUCED, marked so in R97)
unreachable: in phase PACK every CODE_V is 1. ERR_PASS is code 6: PACK raises it when pass 2 would become longer than
pass 1, FINISH when it is shorter; so DONE implies equal lengths. Neither looks at the symbols: any pass 2 of the right
length is packed. -/
def Obligations.ConsistencyChecksAreAsStated : Prop :=
  (errCode .noCode).toNat = 4 ∧ (errCode .pass).toNat = 6 ∧
  ∀ (sym : Sym) (s : State),
    (s.phase = .pack → s.codeV[sym.toNat] = false → exec (.pack sym) s = .next (faulted .noCode s)) ∧
    (Inv s → s.phase = .pack → s.codeV[sym.toNat] = true) ∧
    (Inv s → s.phase = .pack →
      (s.pklen = s.inlen → exec (.pack sym) s = .next (faulted .pass s)) ∧
      (s.pklen ≠ s.inlen → exec .finish s = .next (faulted .pass s) ∧ s.pklen.toNat < s.inlen.toNat ∧
        ∃ t, exec (.pack sym) s = .next t ∧ t.phase = .pack ∧ t.err = .none)) ∧
    (Inv s → s.phase = .done → s.pklen = s.inlen)

/-- R95, R96: FINISH in phase PACK after the whole of pass 2: zero digits on the right fill the last byte, PADN counts
them, and PHASE goes to DONE; without pending digits nothing is emitted. ERR_PASS when pass 2 is shorter. In a state
that meets the invariant PADN is what R96 says and the response is 3 + 4096 · PADN. -/
def Obligations.FinishPadsAndCompletes : Prop :=
  (encode .finish).toNat = 0x6000 ∧
  ∀ s : State,
    (s.phase = .pack → s.pklen = s.inlen → s.accN = 0#3 →
      exec .finish s = .next (answered (statusWord { s with padn := 0#3, phase := .done })
        { s with padn := 0#3, phase := .done })) ∧
    (s.phase = .pack → s.pklen = s.inlen → s.accN ≠ 0#3 →
      ∃ t, exec .finish s = .next t ∧
        t = { s with
          acc := 0#8, accN := 0#3, padn := BitVec.ofNat 3 (8 - s.accN.toNat), phase := .done,
          out := s.out ++ [s.acc <<< (8 - s.accN.toNat)], outlen := s.outlen + 1#40,
          portOut := s.portOut ++ [.byte (s.acc <<< (8 - s.accN.toNat)), .response false (statusWord t)] } ∧
        bitBuffer t = bitBuffer s ++ List.replicate t.padn.toNat false) ∧
    (∀ t, Inv s → s.phase = .pack → s.pklen = s.inlen → exec .finish s = .next t →
      t.padn.toNat = (8 - t.bitcnt.toNat % 8) % 8 ∧ (statusWord t).toNat = 3 + 4096 * t.padn.toNat) ∧
    (s.phase = .pack → s.pklen ≠ s.inlen → exec .finish s = .next (faulted .pass s)) ∧
    (s.phase ≠ .pack → exec .finish s = .next (outOfPhase s))

/-! ### The whole machine -/

/-- R106: the phase table, over all commands: an accepted command leaves the phase the table gives, with ERR as it was
(CLEAR: zeroed), or raises one of its own faults, as ABORT always does; any other is refused in FAULT and raises ERR_SEQ
elsewhere; and the row of the illegal words. -/
def Obligations.PhaseTableIsTheControlFlow : Prop :=
  (∀ (i : Instr) (s : State), i.wellFormed = true →
    (phaseAfter i s.phase = none → exec i s = .next (outOfPhase s)) ∧
    ∀ p, phaseAfter i s.phase = some p → ∃ t, exec i s = .next t ∧
      ((i ≠ .abort ∧ t.phase = p ∧ t.err = if i = .clear then .none else s.err) ∨ ∃ e ∈ ownFaults i, t = faulted e s)) ∧
  (∀ s : State, s.phase ≠ .fault → exec .abort s = .next (faulted .io s)) ∧
  ∀ (s : State) (w : CmdWord) (rest : List HostInput) (why : Illegal), s.hostIn = .word w :: rest →
    decode w = .illegal why →
      step s = .next (if s.phase = .fault then refusedIn { s with hostIn := rest }
        else faulted .illegal { s with hostIn := rest })

/-- R113, R117, R118: faults are precise and sticky, refusals change nothing, only CLEAR and reset leave FAULT (both
zero ERR), and rsp_err = 1 marks exactly a command that raised a fault or was refused. -/
def Obligations.FaultsArePreciseAndSticky : Prop :=
  (∀ (s : State) (rest : List HostInput), s.hostIn = .rst :: rest →
    ∃ t, step s = .next t ∧ t.phase = .count ∧ t.err = .none) ∧
  ∀ (s : State) (w : CmdWord) (rest : List HostInput), s.hostIn = .word w :: rest →
    ∃ t bytes e d, step s = .next t ∧ t.portOut = s.portOut ++ bytes.map .byte ++ [.response e d] ∧
      (e = true → bytes = [] ∧ d = statusWord t) ∧
      (e = true → s.phase ≠ .fault → ∃ c, c ≠ .none ∧ t = faulted c { s with hostIn := rest }) ∧
      (e = true → s.phase = .fault → t = refusedIn { s with hostIn := rest }) ∧
      (e = false → t.phase = .fault → s.phase = .fault ∧ t.err = s.err) ∧
      (s.phase = .fault → (e = false ↔ decode w = .command .clear ∨ ∃ reg, decode w = .command (.rdreg reg))) ∧
      (s.phase = .fault → t.phase ≠ .fault → decode w = .command .clear ∧ t.err = .none)

/-- R37, R38, R40 point 2: every command gives one response, after all its bytes; the bytes go to the port and to OUT
alike; only PACK and FINISH emit, at most 32 and 1; and no command touches what the host has still to present. -/
def Obligations.OneResponseAfterTheBytes : Prop :=
  ∀ (i : Instr) (s t : State), exec i s = .next t →
    ∃ bytes e d, t.portOut = s.portOut ++ bytes.map .byte ++ [.response e d] ∧ t.hostIn = s.hostIn ∧
      bytes.length ≤ 32 ∧ (i = .finish → bytes.length ≤ 1) ∧ ((∀ sym, i ≠ .pack sym) → i ≠ .finish → bytes = []) ∧
      (i ≠ .clear → t.out = s.out ++ bytes ∧ t.outlen = s.outlen + BitVec.ofNat 40 bytes.length)

/-- DEDUCED, R13 to R22: every register and array has its writers, and no other command changes it. -/
def Obligations.EveryRegisterHasItsWriters : Prop :=
  ∀ (i : Instr) (s t : State), exec i s = .next t → i ≠ .clear →
    ((∀ sym, i ≠ .count sym) → t.freq = s.freq ∧ t.inlen = s.inlen) ∧
    (i ≠ .build → t.nodeW = s.nodeW ∧ t.nodeL = s.nodeL ∧ t.nodeR = s.nodeR ∧ t.inq = s.inq ∧ t.nextid = s.nextid ∧
      t.qcount = s.qcount ∧ t.root = s.root) ∧
    (i ≠ .derive → t.codeV = s.codeV ∧ t.codeLen = s.codeLen ∧ t.codeVal = s.codeVal) ∧
    ((∀ sym, i ≠ .pack sym) → t.pklen = s.pklen ∧ t.bitcnt = s.bitcnt) ∧
    ((∀ sym, i ≠ .pack sym) → i ≠ .finish → t.acc = s.acc ∧ t.accN = s.accN ∧ t.outlen = s.outlen ∧ t.out = s.out) ∧
    (i ≠ .finish → t.padn = s.padn)

/-- R11: PHASE is written by BUILD, DERIVE, FINISH, CLEAR and `raise` only, each from and to the phase stated, and its
codes are 0, 1, 2, 3 and 7. -/
def Obligations.PhaseChangesOnlyAsStated : Prop :=
  ((phaseCode .count).toNat = 0 ∧ (phaseCode .built).toNat = 1 ∧ (phaseCode .pack).toNat = 2 ∧
    (phaseCode .done).toNat = 3 ∧ (phaseCode .fault).toNat = 7) ∧
  ∀ (i : Instr) (s t : State), exec i s = .next t → t.phase ≠ s.phase →
    (i = .build ∧ s.phase = .count ∧ t.phase = .built) ∨
    (i = .derive ∧ s.phase = .built ∧ t.phase = .pack) ∨
    (i = .finish ∧ s.phase = .pack ∧ t.phase = .done) ∨
    (i = .clear ∧ t.phase = .count) ∨
    (t.phase = .fault ∧ ∃ e, e ≠ .none ∧ t = faulted e s)

/-- DEDUCED, R32, R126, R141: an accepted read command changes nothing but the response port, and repeating it gives the
same response. -/
def Obligations.ReadsChangeNothingAndRepeat : Prop :=
  ∀ (i : Instr) (s : State), isRead i = true → i.wellFormed = true → (phaseAfter i s.phase).isSome →
    ∃ d, exec i s = .next (answered d s) ∧ exec i (answered d s) = .next (answered d (answered d s))

/-- DEDUCED: the invariant of R25 holds after reset. -/
def Obligations.InvariantHoldsAtReset : Prop := Inv State.reset

/-- DEDUCED, R25 (with R12, R14, R84, R97, R101 point 1; without the sum in its BITCNT clause, assumption log 15): every
step keeps the invariant, from every state that meets it. -/
def Obligations.EveryStepKeepsTheInvariant : Prop :=
  ∀ s t : State, Inv s → step s = .next t → Inv t

/-- DEDUCED, R26: no unspecified value is ever observed: two states that agree on all specified content go on agreeing,
responses and output bytes included. -/
def Obligations.UnspecifiedContentIsNeverObserved : Prop :=
  ∀ s t s' : State, Inv s → Inv t → SameSpecified s t → step s = .next s' →
    ∃ t', step t = .next t' ∧ SameSpecified s' t'

/-- DEDUCED, R99, R101 point 1: in phase DONE the output size is the digit count in whole bytes, and every byte of the
input cost 1 to 255 digits. -/
def Obligations.OutputSizeIsTheDigitCountInBytes : Prop :=
  ∀ s t : State, Inv s → exec .finish s = .next t → t.phase = .done →
    t.outlen.toNat = (t.bitcnt.toNat + 7) / 8 ∧ t.out.length = t.outlen.toNat ∧
      t.inlen.toNat ≤ t.bitcnt.toNat ∧ t.bitcnt.toNat ≤ 255 * t.inlen.toNat ∧
      (bitBuffer t).length = 8 * t.outlen.toNat

/-- DEDUCED, R100, the encode law: from any state, ENCODE of any byte string that a counter can hold raises no fault and
ends in phase DONE, with the frequencies of the string, the greedy tree and its paths as the table, and as output the
codes of the bytes one after the other, filled with zero digits to whole bytes. 2n + 4 steps, one response each (R59,
R139). -/
def Obligations.EncodeLaw : Prop :=
  ∀ (s : State) (bytes : List Sym) (rest : List HostInput), bytes.length ≤ 2 ^ 32 - 1 →
    s.hostIn = presented (encodeCommands bytes) ++ rest →
    ∃ (t : State) (left : List PortOutput), Host.Core.run Sys2Proof.core (2 * bytes.length + 4) s = .next t ∧
      t.phase = .done ∧ t.err = .none ∧ t.inlen.toNat = bytes.length ∧ t.pklen.toNat = bytes.length ∧
      (∀ sym : Sym, t.freq[sym.toNat].toNat = bytes.count sym) ∧
      GreedyTree t ∧ TreeWeights t ∧ TableDerived t ∧
      t.bitcnt.toNat = (bytes.flatMap (codeOf t)).length ∧
      t.padn.toNat = (8 - t.bitcnt.toNat % 8) % 8 ∧
      t.outlen.toNat = (t.bitcnt.toNat + 7) / 8 ∧ t.out.length = t.outlen.toNat ∧
      t.out.flatMap byteDigits = bytes.flatMap (codeOf t) ++ List.replicate t.padn.toNat false ∧
      t.hostIn = rest ∧ t.portOut = s.portOut ++ left ∧ left.filterMap byteOf = t.out ∧
      (left.filterMap responseOf).length = 2 * bytes.length + 4 ∧ ∀ r ∈ left.filterMap responseOf, r.1 = false

/-- DEDUCED, R100, R40: two runs of ENCODE on the same string, from any two states, give the same output bytes. -/
def Obligations.EncodingTwiceGivesTheSameBytes : Prop :=
  ∀ (s s' t t' : State) (bytes : List Sym) (rest rest' : List HostInput), bytes.length ≤ 2 ^ 32 - 1 →
    s.hostIn = presented (encodeCommands bytes) ++ rest → s'.hostIn = presented (encodeCommands bytes) ++ rest' →
    Host.Core.run Sys2Proof.core (2 * bytes.length + 4) s = .next t →
    Host.Core.run Sys2Proof.core (2 * bytes.length + 4) s' = .next t' →
    t.out = t'.out ∧ t.bitcnt = t'.bitcnt ∧ t.padn = t'.padn ∧ t.freq = t'.freq ∧ t.nodeW = t'.nodeW ∧
      t.nodeL = t'.nodeL ∧ t.nodeR = t'.nodeR ∧ t.codeLen = t'.codeLen ∧ t.codeVal = t'.codeVal
end

