-- ==== Sys2Proof/Laws/State.lean ====
section
/-! SUPPORT. One lemma per field for each update of State: what the field is afterwards. All true by rfl (of the three that fill whole
arrays, by rfl once unfolded: a plain rfl would first compare the arrays). -/

namespace Sys2Proof.Machine

@[simp] theorem respond_phase (e : Bool) (d : RspData) (s : State) : (respond e d s).phase = s.phase := rfl
@[simp] theorem respond_err (e : Bool) (d : RspData) (s : State) : (respond e d s).err = s.err := rfl
@[simp] theorem respond_freq (e : Bool) (d : RspData) (s : State) : (respond e d s).freq = s.freq := rfl
@[simp] theorem respond_inlen (e : Bool) (d : RspData) (s : State) : (respond e d s).inlen = s.inlen := rfl
@[simp] theorem respond_nodeW (e : Bool) (d : RspData) (s : State) : (respond e d s).nodeW = s.nodeW := rfl
@[simp] theorem respond_nodeL (e : Bool) (d : RspData) (s : State) : (respond e d s).nodeL = s.nodeL := rfl
@[simp] theorem respond_nodeR (e : Bool) (d : RspData) (s : State) : (respond e d s).nodeR = s.nodeR := rfl
@[simp] theorem respond_inq (e : Bool) (d : RspData) (s : State) : (respond e d s).inq = s.inq := rfl
@[simp] theorem respond_nextid (e : Bool) (d : RspData) (s : State) : (respond e d s).nextid = s.nextid := rfl
@[simp] theorem respond_qcount (e : Bool) (d : RspData) (s : State) : (respond e d s).qcount = s.qcount := rfl
@[simp] theorem respond_root (e : Bool) (d : RspData) (s : State) : (respond e d s).root = s.root := rfl
@[simp] theorem respond_codeV (e : Bool) (d : RspData) (s : State) : (respond e d s).codeV = s.codeV := rfl
@[simp] theorem respond_codeLen (e : Bool) (d : RspData) (s : State) : (respond e d s).codeLen = s.codeLen := rfl
@[simp] theorem respond_codeVal (e : Bool) (d : RspData) (s : State) : (respond e d s).codeVal = s.codeVal := rfl
@[simp] theorem respond_acc (e : Bool) (d : RspData) (s : State) : (respond e d s).acc = s.acc := rfl
@[simp] theorem respond_accN (e : Bool) (d : RspData) (s : State) : (respond e d s).accN = s.accN := rfl
@[simp] theorem respond_pklen (e : Bool) (d : RspData) (s : State) : (respond e d s).pklen = s.pklen := rfl
@[simp] theorem respond_bitcnt (e : Bool) (d : RspData) (s : State) : (respond e d s).bitcnt = s.bitcnt := rfl
@[simp] theorem respond_outlen (e : Bool) (d : RspData) (s : State) : (respond e d s).outlen = s.outlen := rfl
@[simp] theorem respond_padn (e : Bool) (d : RspData) (s : State) : (respond e d s).padn = s.padn := rfl
@[simp] theorem respond_out (e : Bool) (d : RspData) (s : State) : (respond e d s).out = s.out := rfl
@[simp] theorem respond_hostIn (e : Bool) (d : RspData) (s : State) : (respond e d s).hostIn = s.hostIn := rfl
@[simp] theorem respond_portOut (e : Bool) (d : RspData) (s : State) : (respond e d s).portOut = s.portOut ++ [.response e d] := rfl
@[simp] theorem respond_draws (e : Bool) (d : RspData) (s : State) : (respond e d s).draws = s.draws := rfl

@[simp] theorem emit_phase (v : Byte) (s : State) : (emit v s).phase = s.phase := rfl
@[simp] theorem emit_err (v : Byte) (s : State) : (emit v s).err = s.err := rfl
@[simp] theorem emit_freq (v : Byte) (s : State) : (emit v s).freq = s.freq := rfl
@[simp] theorem emit_inlen (v : Byte) (s : State) : (emit v s).inlen = s.inlen := rfl
@[simp] theorem emit_nodeW (v : Byte) (s : State) : (emit v s).nodeW = s.nodeW := rfl
@[simp] theorem emit_nodeL (v : Byte) (s : State) : (emit v s).nodeL = s.nodeL := rfl
@[simp] theorem emit_nodeR (v : Byte) (s : State) : (emit v s).nodeR = s.nodeR := rfl
@[simp] theorem emit_inq (v : Byte) (s : State) : (emit v s).inq = s.inq := rfl
@[simp] theorem emit_nextid (v : Byte) (s : State) : (emit v s).nextid = s.nextid := rfl
@[simp] theorem emit_qcount (v : Byte) (s : State) : (emit v s).qcount = s.qcount := rfl
@[simp] theorem emit_root (v : Byte) (s : State) : (emit v s).root = s.root := rfl
@[simp] theorem emit_codeV (v : Byte) (s : State) : (emit v s).codeV = s.codeV := rfl
@[simp] theorem emit_codeLen (v : Byte) (s : State) : (emit v s).codeLen = s.codeLen := rfl
@[simp] theorem emit_codeVal (v : Byte) (s : State) : (emit v s).codeVal = s.codeVal := rfl
@[simp] theorem emit_acc (v : Byte) (s : State) : (emit v s).acc = s.acc := rfl
@[simp] theorem emit_accN (v : Byte) (s : State) : (emit v s).accN = s.accN := rfl
@[simp] theorem emit_pklen (v : Byte) (s : State) : (emit v s).pklen = s.pklen := rfl
@[simp] theorem emit_bitcnt (v : Byte) (s : State) : (emit v s).bitcnt = s.bitcnt := rfl
@[simp] theorem emit_outlen (v : Byte) (s : State) : (emit v s).outlen = s.outlen + 1#40 := rfl
@[simp] theorem emit_padn (v : Byte) (s : State) : (emit v s).padn = s.padn := rfl
@[simp] theorem emit_out (v : Byte) (s : State) : (emit v s).out = s.out ++ [v] := rfl
@[simp] theorem emit_hostIn (v : Byte) (s : State) : (emit v s).hostIn = s.hostIn := rfl
@[simp] theorem emit_portOut (v : Byte) (s : State) : (emit v s).portOut = s.portOut ++ [.byte v] := rfl
@[simp] theorem emit_draws (v : Byte) (s : State) : (emit v s).draws = s.draws := rfl

@[simp] theorem countSymbol_phase (sym : Sym) (s : State) : (countSymbol sym s).phase = s.phase := rfl
@[simp] theorem countSymbol_err (sym : Sym) (s : State) : (countSymbol sym s).err = s.err := rfl
@[simp] theorem countSymbol_freq (sym : Sym) (s : State) : (countSymbol sym s).freq = setSymEntry s.freq sym (symEntry s.freq sym + 1#32) := rfl
@[simp] theorem countSymbol_inlen (sym : Sym) (s : State) : (countSymbol sym s).inlen = s.inlen + 1#32 := rfl
@[simp] theorem countSymbol_nodeW (sym : Sym) (s : State) : (countSymbol sym s).nodeW = s.nodeW := rfl
@[simp] theorem countSymbol_nodeL (sym : Sym) (s : State) : (countSymbol sym s).nodeL = s.nodeL := rfl
@[simp] theorem countSymbol_nodeR (sym : Sym) (s : State) : (countSymbol sym s).nodeR = s.nodeR := rfl
@[simp] theorem countSymbol_inq (sym : Sym) (s : State) : (countSymbol sym s).inq = s.inq := rfl
@[simp] theorem countSymbol_nextid (sym : Sym) (s : State) : (countSymbol sym s).nextid = s.nextid := rfl
@[simp] theorem countSymbol_qcount (sym : Sym) (s : State) : (countSymbol sym s).qcount = s.qcount := rfl
@[simp] theorem countSymbol_root (sym : Sym) (s : State) : (countSymbol sym s).root = s.root := rfl
@[simp] theorem countSymbol_codeV (sym : Sym) (s : State) : (countSymbol sym s).codeV = s.codeV := rfl
@[simp] theorem countSymbol_codeLen (sym : Sym) (s : State) : (countSymbol sym s).codeLen = s.codeLen := rfl
@[simp] theorem countSymbol_codeVal (sym : Sym) (s : State) : (countSymbol sym s).codeVal = s.codeVal := rfl
@[simp] theorem countSymbol_acc (sym : Sym) (s : State) : (countSymbol sym s).acc = s.acc := rfl
@[simp] theorem countSymbol_accN (sym : Sym) (s : State) : (countSymbol sym s).accN = s.accN := rfl
@[simp] theorem countSymbol_pklen (sym : Sym) (s : State) : (countSymbol sym s).pklen = s.pklen := rfl
@[simp] theorem countSymbol_bitcnt (sym : Sym) (s : State) : (countSymbol sym s).bitcnt = s.bitcnt := rfl
@[simp] theorem countSymbol_outlen (sym : Sym) (s : State) : (countSymbol sym s).outlen = s.outlen := rfl
@[simp] theorem countSymbol_padn (sym : Sym) (s : State) : (countSymbol sym s).padn = s.padn := rfl
@[simp] theorem countSymbol_out (sym : Sym) (s : State) : (countSymbol sym s).out = s.out := rfl
@[simp] theorem countSymbol_hostIn (sym : Sym) (s : State) : (countSymbol sym s).hostIn = s.hostIn := rfl
@[simp] theorem countSymbol_portOut (sym : Sym) (s : State) : (countSymbol sym s).portOut = s.portOut := rfl
@[simp] theorem countSymbol_draws (sym : Sym) (s : State) : (countSymbol sym s).draws = s.draws := rfl

@[simp] theorem seed_phase (s : State) : (seed s).phase = s.phase := by unfold seed; rfl
@[simp] theorem seed_err (s : State) : (seed s).err = s.err := by unfold seed; rfl
@[simp] theorem seed_freq (s : State) : (seed s).freq = s.freq := by unfold seed; rfl
@[simp] theorem seed_inlen (s : State) : (seed s).inlen = s.inlen := by unfold seed; rfl
@[simp] theorem seed_nodeW (s : State) : (seed s).nodeW = Vector.ofFn fun (id : Fin 511) => if h : id.val < 256 then s.freq[id.val] else s.nodeW[id] := by unfold seed; rfl
@[simp] theorem seed_nodeL (s : State) : (seed s).nodeL = s.nodeL := by unfold seed; rfl
@[simp] theorem seed_nodeR (s : State) : (seed s).nodeR = s.nodeR := by unfold seed; rfl
@[simp] theorem seed_inq (s : State) : (seed s).inq = Vector.ofFn fun (id : Fin 511) => decide (id.val < 256) := by unfold seed; rfl
@[simp] theorem seed_nextid (s : State) : (seed s).nextid = 256#9 := by unfold seed; rfl
@[simp] theorem seed_qcount (s : State) : (seed s).qcount = 256#9 := by unfold seed; rfl
@[simp] theorem seed_root (s : State) : (seed s).root = s.root := by unfold seed; rfl
@[simp] theorem seed_codeV (s : State) : (seed s).codeV = s.codeV := by unfold seed; rfl
@[simp] theorem seed_codeLen (s : State) : (seed s).codeLen = s.codeLen := by unfold seed; rfl
@[simp] theorem seed_codeVal (s : State) : (seed s).codeVal = s.codeVal := by unfold seed; rfl
@[simp] theorem seed_acc (s : State) : (seed s).acc = s.acc := by unfold seed; rfl
@[simp] theorem seed_accN (s : State) : (seed s).accN = s.accN := by unfold seed; rfl
@[simp] theorem seed_pklen (s : State) : (seed s).pklen = s.pklen := by unfold seed; rfl
@[simp] theorem seed_bitcnt (s : State) : (seed s).bitcnt = s.bitcnt := by unfold seed; rfl
@[simp] theorem seed_outlen (s : State) : (seed s).outlen = s.outlen := by unfold seed; rfl
@[simp] theorem seed_padn (s : State) : (seed s).padn = s.padn := by unfold seed; rfl
@[simp] theorem seed_out (s : State) : (seed s).out = s.out := by unfold seed; rfl
@[simp] theorem seed_hostIn (s : State) : (seed s).hostIn = s.hostIn := by unfold seed; rfl
@[simp] theorem seed_portOut (s : State) : (seed s).portOut = s.portOut := by unfold seed; rfl
@[simp] theorem seed_draws (s : State) : (seed s).draws = s.draws := by unfold seed; rfl

@[simp] theorem deriveTable_phase (s : State) : (deriveTable s).phase = .pack := by unfold deriveTable; rfl
@[simp] theorem deriveTable_err (s : State) : (deriveTable s).err = s.err := by unfold deriveTable; rfl
@[simp] theorem deriveTable_freq (s : State) : (deriveTable s).freq = s.freq := by unfold deriveTable; rfl
@[simp] theorem deriveTable_inlen (s : State) : (deriveTable s).inlen = s.inlen := by unfold deriveTable; rfl
@[simp] theorem deriveTable_nodeW (s : State) : (deriveTable s).nodeW = s.nodeW := by unfold deriveTable; rfl
@[simp] theorem deriveTable_nodeL (s : State) : (deriveTable s).nodeL = s.nodeL := by unfold deriveTable; rfl
@[simp] theorem deriveTable_nodeR (s : State) : (deriveTable s).nodeR = s.nodeR := by unfold deriveTable; rfl
@[simp] theorem deriveTable_inq (s : State) : (deriveTable s).inq = s.inq := by unfold deriveTable; rfl
@[simp] theorem deriveTable_nextid (s : State) : (deriveTable s).nextid = s.nextid := by unfold deriveTable; rfl
@[simp] theorem deriveTable_qcount (s : State) : (deriveTable s).qcount = s.qcount := by unfold deriveTable; rfl
@[simp] theorem deriveTable_root (s : State) : (deriveTable s).root = s.root := by unfold deriveTable; rfl
@[simp] theorem deriveTable_codeV (s : State) : (deriveTable s).codeV = Vector.replicate 256 true := by unfold deriveTable; rfl
@[simp] theorem deriveTable_codeLen (s : State) : (deriveTable s).codeLen = Vector.ofFn fun (sym : Fin 256) => (derivePaths s).len[sym.val] := by unfold deriveTable; rfl
@[simp] theorem deriveTable_codeVal (s : State) : (deriveTable s).codeVal = Vector.ofFn fun (sym : Fin 256) => (derivePaths s).val[sym.val] := by unfold deriveTable; rfl
@[simp] theorem deriveTable_acc (s : State) : (deriveTable s).acc = s.acc := by unfold deriveTable; rfl
@[simp] theorem deriveTable_accN (s : State) : (deriveTable s).accN = s.accN := by unfold deriveTable; rfl
@[simp] theorem deriveTable_pklen (s : State) : (deriveTable s).pklen = s.pklen := by unfold deriveTable; rfl
@[simp] theorem deriveTable_bitcnt (s : State) : (deriveTable s).bitcnt = s.bitcnt := by unfold deriveTable; rfl
@[simp] theorem deriveTable_outlen (s : State) : (deriveTable s).outlen = s.outlen := by unfold deriveTable; rfl
@[simp] theorem deriveTable_padn (s : State) : (deriveTable s).padn = s.padn := by unfold deriveTable; rfl
@[simp] theorem deriveTable_out (s : State) : (deriveTable s).out = s.out := by unfold deriveTable; rfl
@[simp] theorem deriveTable_hostIn (s : State) : (deriveTable s).hostIn = s.hostIn := by unfold deriveTable; rfl
@[simp] theorem deriveTable_portOut (s : State) : (deriveTable s).portOut = s.portOut := by unfold deriveTable; rfl
@[simp] theorem deriveTable_draws (s : State) : (deriveTable s).draws = s.draws + 1 := by unfold deriveTable; rfl

@[simp] theorem clearState_phase (s : State) : (clearState s).phase = (State.initial (s.draws + 1)).phase := by unfold clearState; rfl
@[simp] theorem clearState_err (s : State) : (clearState s).err = (State.initial (s.draws + 1)).err := by unfold clearState; rfl
@[simp] theorem clearState_freq (s : State) : (clearState s).freq = (State.initial (s.draws + 1)).freq := by unfold clearState; rfl
@[simp] theorem clearState_inlen (s : State) : (clearState s).inlen = (State.initial (s.draws + 1)).inlen := by unfold clearState; rfl
@[simp] theorem clearState_nodeW (s : State) : (clearState s).nodeW = (State.initial (s.draws + 1)).nodeW := by unfold clearState; rfl
@[simp] theorem clearState_nodeL (s : State) : (clearState s).nodeL = (State.initial (s.draws + 1)).nodeL := by unfold clearState; rfl
@[simp] theorem clearState_nodeR (s : State) : (clearState s).nodeR = (State.initial (s.draws + 1)).nodeR := by unfold clearState; rfl
@[simp] theorem clearState_inq (s : State) : (clearState s).inq = (State.initial (s.draws + 1)).inq := by unfold clearState; rfl
@[simp] theorem clearState_nextid (s : State) : (clearState s).nextid = (State.initial (s.draws + 1)).nextid := by unfold clearState; rfl
@[simp] theorem clearState_qcount (s : State) : (clearState s).qcount = (State.initial (s.draws + 1)).qcount := by unfold clearState; rfl
@[simp] theorem clearState_root (s : State) : (clearState s).root = (State.initial (s.draws + 1)).root := by unfold clearState; rfl
@[simp] theorem clearState_codeV (s : State) : (clearState s).codeV = (State.initial (s.draws + 1)).codeV := by unfold clearState; rfl
@[simp] theorem clearState_codeLen (s : State) : (clearState s).codeLen = (State.initial (s.draws + 1)).codeLen := by unfold clearState; rfl
@[simp] theorem clearState_codeVal (s : State) : (clearState s).codeVal = (State.initial (s.draws + 1)).codeVal := by unfold clearState; rfl
@[simp] theorem clearState_acc (s : State) : (clearState s).acc = (State.initial (s.draws + 1)).acc := by unfold clearState; rfl
@[simp] theorem clearState_accN (s : State) : (clearState s).accN = (State.initial (s.draws + 1)).accN := by unfold clearState; rfl
@[simp] theorem clearState_pklen (s : State) : (clearState s).pklen = (State.initial (s.draws + 1)).pklen := by unfold clearState; rfl
@[simp] theorem clearState_bitcnt (s : State) : (clearState s).bitcnt = (State.initial (s.draws + 1)).bitcnt := by unfold clearState; rfl
@[simp] theorem clearState_outlen (s : State) : (clearState s).outlen = (State.initial (s.draws + 1)).outlen := by unfold clearState; rfl
@[simp] theorem clearState_padn (s : State) : (clearState s).padn = (State.initial (s.draws + 1)).padn := by unfold clearState; rfl
@[simp] theorem clearState_out (s : State) : (clearState s).out = (State.initial (s.draws + 1)).out := by unfold clearState; rfl
@[simp] theorem clearState_hostIn (s : State) : (clearState s).hostIn = s.hostIn := by unfold clearState; rfl
@[simp] theorem clearState_portOut (s : State) : (clearState s).portOut = s.portOut := by unfold clearState; rfl
@[simp] theorem clearState_draws (s : State) : (clearState s).draws = s.draws + 1 := by unfold clearState; rfl

@[simp] theorem presentInput_phase (x : HostInput) (s : State) : (presentInput x s).phase = s.phase := rfl
@[simp] theorem presentInput_err (x : HostInput) (s : State) : (presentInput x s).err = s.err := rfl
@[simp] theorem presentInput_freq (x : HostInput) (s : State) : (presentInput x s).freq = s.freq := rfl
@[simp] theorem presentInput_inlen (x : HostInput) (s : State) : (presentInput x s).inlen = s.inlen := rfl
@[simp] theorem presentInput_nodeW (x : HostInput) (s : State) : (presentInput x s).nodeW = s.nodeW := rfl
@[simp] theorem presentInput_nodeL (x : HostInput) (s : State) : (presentInput x s).nodeL = s.nodeL := rfl
@[simp] theorem presentInput_nodeR (x : HostInput) (s : State) : (presentInput x s).nodeR = s.nodeR := rfl
@[simp] theorem presentInput_inq (x : HostInput) (s : State) : (presentInput x s).inq = s.inq := rfl
@[simp] theorem presentInput_nextid (x : HostInput) (s : State) : (presentInput x s).nextid = s.nextid := rfl
@[simp] theorem presentInput_qcount (x : HostInput) (s : State) : (presentInput x s).qcount = s.qcount := rfl
@[simp] theorem presentInput_root (x : HostInput) (s : State) : (presentInput x s).root = s.root := rfl
@[simp] theorem presentInput_codeV (x : HostInput) (s : State) : (presentInput x s).codeV = s.codeV := rfl
@[simp] theorem presentInput_codeLen (x : HostInput) (s : State) : (presentInput x s).codeLen = s.codeLen := rfl
@[simp] theorem presentInput_codeVal (x : HostInput) (s : State) : (presentInput x s).codeVal = s.codeVal := rfl
@[simp] theorem presentInput_acc (x : HostInput) (s : State) : (presentInput x s).acc = s.acc := rfl
@[simp] theorem presentInput_accN (x : HostInput) (s : State) : (presentInput x s).accN = s.accN := rfl
@[simp] theorem presentInput_pklen (x : HostInput) (s : State) : (presentInput x s).pklen = s.pklen := rfl
@[simp] theorem presentInput_bitcnt (x : HostInput) (s : State) : (presentInput x s).bitcnt = s.bitcnt := rfl
@[simp] theorem presentInput_outlen (x : HostInput) (s : State) : (presentInput x s).outlen = s.outlen := rfl
@[simp] theorem presentInput_padn (x : HostInput) (s : State) : (presentInput x s).padn = s.padn := rfl
@[simp] theorem presentInput_out (x : HostInput) (s : State) : (presentInput x s).out = s.out := rfl
@[simp] theorem presentInput_hostIn (x : HostInput) (s : State) : (presentInput x s).hostIn = x :: s.hostIn := rfl
@[simp] theorem presentInput_portOut (x : HostInput) (s : State) : (presentInput x s).portOut = s.portOut := rfl
@[simp] theorem presentInput_draws (x : HostInput) (s : State) : (presentInput x s).draws = s.draws := rfl

/-! The reset table (R26), for the fields it gives a value. -/

@[simp] theorem initial_phase (e : Nat) : (State.initial e).phase = .count := rfl
@[simp] theorem initial_err (e : Nat) : (State.initial e).err = .none := rfl
@[simp] theorem initial_freq (e : Nat) : (State.initial e).freq = Vector.replicate 256 0#32 := rfl
@[simp] theorem initial_inlen (e : Nat) : (State.initial e).inlen = 0#32 := rfl
@[simp] theorem initial_inq (e : Nat) : (State.initial e).inq = Vector.replicate 511 false := rfl
@[simp] theorem initial_nextid (e : Nat) : (State.initial e).nextid = 256#9 := rfl
@[simp] theorem initial_qcount (e : Nat) : (State.initial e).qcount = 0#9 := rfl
@[simp] theorem initial_root (e : Nat) : (State.initial e).root = 0#9 := rfl
@[simp] theorem initial_codeV (e : Nat) : (State.initial e).codeV = Vector.replicate 256 false := rfl
@[simp] theorem initial_acc (e : Nat) : (State.initial e).acc = 0#8 := rfl
@[simp] theorem initial_accN (e : Nat) : (State.initial e).accN = 0#3 := rfl
@[simp] theorem initial_pklen (e : Nat) : (State.initial e).pklen = 0#32 := rfl
@[simp] theorem initial_bitcnt (e : Nat) : (State.initial e).bitcnt = 0#40 := rfl
@[simp] theorem initial_outlen (e : Nat) : (State.initial e).outlen = 0#40 := rfl
@[simp] theorem initial_padn (e : Nat) : (State.initial e).padn = 0#3 := rfl
@[simp] theorem initial_out (e : Nat) : (State.initial e).out = [] := rfl
@[simp] theorem initial_hostIn (e : Nat) : (State.initial e).hostIn = [] := rfl
@[simp] theorem initial_portOut (e : Nat) : (State.initial e).portOut = [] := rfl
@[simp] theorem initial_draws (e : Nat) : (State.initial e).draws = e := rfl

end Sys2Proof.Machine
end

