-- ==== Sys2Proof/Laws/Tree.lean ====
section
/-! SUPPORT. What the tree builder's procedures do (`spec/42_tree_builder.md` rules R66 to R70), each said once: the
minimum search, ExtractMin, MergeStep, and the loop invariant of BUILD. -/

namespace Sys2Proof.Machine

/-! ### The order (weight, id) -/

section Collection
variable {n : Nat} {w : Vector Count n} {inq : Vector Bool n}

theorem keyBefore_iff (w : Vector Count n) (i j : Fin n) :
    keyBefore w i j = true ↔ w[i].toNat < w[j].toNat ∨ (w[i].toNat = w[j].toNat ∧ i.val < j.val) := by
  unfold keyBefore
  rw [Bool.or_eq_true, Bool.and_eq_true, decide_eq_true_iff, decide_eq_true_iff, decide_eq_true_iff,
    BitVec.toNat_inj]
  exact Iff.rfl

theorem keyBefore_trans {i j k : Fin n} (h : keyBefore w i j = true) (h' : keyBefore w j k = true) :
    keyBefore w i k = true := by
  rw [keyBefore_iff] at *; omega

theorem keyBefore_total {i j : Fin n} (h : ¬keyBefore w i j = true) (hne : i ≠ j) : keyBefore w j i = true := by
  rw [keyBefore_iff] at *
  have := Fin.val_ne_of_ne hne
  omega

/-! ### ExtractMin (R67) -/

/-- `m` is a member of the collection and comes before every other member. -/
def IsMin (w : Vector Count n) (inq : Vector Bool n) (m : Fin n) : Prop :=
  inq[m] = true ∧ ∀ j : Fin n, inq[j] = true → j ≠ m → keyBefore w m j = true

theorem betterMember_cases (best : Option (Fin n)) (x : Fin n) :
    (inq[x] = false ∧ betterMember w inq best x = best) ∨
    (inq[x] = true ∧ best = none ∧ betterMember w inq best x = some x) ∨
    (inq[x] = true ∧ ∃ b, best = some b ∧
      ((keyBefore w x b = true ∧ betterMember w inq best x = some x) ∨
        (¬keyBefore w x b = true ∧ betterMember w inq best x = some b))) := by
  unfold betterMember
  cases hx : inq[x] with
  | false => exact .inl ⟨rfl, rfl⟩
  | true =>
    cases best with
    | none => exact .inr (.inl ⟨rfl, rfl, rfl⟩)
    | some b =>
      by_cases hk : keyBefore w x b = true
      · exact .inr (.inr ⟨rfl, b, rfl, .inl ⟨hk, by simp only [hk, if_true]⟩⟩)
      · exact .inr (.inr ⟨rfl, b, rfl, .inr ⟨hk, by simp only [hk, if_true]; rfl⟩⟩)

/-- What the search has found after a list of candidates. -/
def Found (w : Vector Count n) (inq : Vector Bool n) (l : List (Fin n)) (best : Option (Fin n)) :
    Option (Fin n) → Prop
  | none => best = none ∧ ∀ j ∈ l, inq[j] = false
  | some m => inq[m] = true ∧ (∀ j ∈ l, inq[j] = true → j ≠ m → keyBefore w m j = true) ∧
      ∀ b, best = some b → b ≠ m → keyBefore w m b = true

theorem foldl_betterMember (l : List (Fin n)) :
    ∀ best : Option (Fin n), (∀ b, best = some b → inq[b] = true) →
      Found w inq l best (l.foldl (betterMember w inq) best) := by
  induction l with
  | nil =>
    intro best hb
    cases best with
    | none => exact ⟨rfl, by simp⟩
    | some b => exact ⟨hb b rfl, by simp, fun c hc hne => absurd (Option.some.inj hc).symm hne⟩
  | cons x l ih =>
    intro best hb
    rw [List.foldl_cons]
    rcases betterMember_cases (w := w) (inq := inq) best x with ⟨hx, he⟩ | ⟨hx, rfl, he⟩ | ⟨hx, b, rfl, h⟩
    · rw [he]
      have := ih best hb
      generalize l.foldl (betterMember w inq) best = r at this
      cases r with
      | none => exact ⟨this.1, List.forall_mem_cons.2 ⟨hx, this.2⟩⟩
      | some m =>
        refine ⟨this.1, List.forall_mem_cons.2 ⟨fun h => ?_, this.2.1⟩, this.2.2⟩
        rw [hx] at h; cases h
    · rw [he]
      have := ih (some x) (by rintro _ ⟨⟩; exact hx)
      generalize l.foldl (betterMember w inq) (some x) = r at this
      cases r with
      | none => cases this.1
      | some m =>
        exact ⟨this.1, List.forall_mem_cons.2 ⟨fun _ hne => this.2.2 x rfl hne, this.2.1⟩, by simp⟩
    · have hb' := hb b rfl
      rcases h with ⟨hk, he⟩ | ⟨hk, he⟩
      · rw [he]
        have := ih (some x) (by rintro _ ⟨⟩; exact hx)
        generalize l.foldl (betterMember w inq) (some x) = r at this
        cases r with
        | none => cases this.1
        | some m =>
          refine ⟨this.1, List.forall_mem_cons.2 ⟨fun _ hne => this.2.2 x rfl hne, this.2.1⟩, ?_⟩
          rintro _ ⟨⟩ hne
          by_cases hxm : x = m
          · exact hxm ▸ hk
          · exact keyBefore_trans (this.2.2 x rfl hxm) hk
      · rw [he]
        have := ih (some b) (by rintro _ ⟨⟩; exact hb')
        generalize l.foldl (betterMember w inq) (some b) = r at this
        cases r with
        | none => cases this.1
        | some m =>
          refine ⟨this.1, List.forall_mem_cons.2 ⟨fun _ hne => ?_, this.2.1⟩, this.2.2⟩
          by_cases hxb : x = b
          · exact this.2.2 x (by rw [hxb]) hne
          · by_cases hbm : b = m
            · exact hbm ▸ keyBefore_total hk hxb
            · exact keyBefore_trans (this.2.2 b rfl hbm) (keyBefore_total hk hxb)

/-- R67: the search finds the least member, and finds none only when there is no member. -/
theorem minMember_spec (w : Vector Count n) (inq : Vector Bool n) :
    (minMember w inq = none ∧ ∀ j : Fin n, inq[j] = false) ∨ ∃ m, minMember w inq = some m ∧ IsMin w inq m := by
  have := foldl_betterMember (w := w) (inq := inq) (List.finRange n) none (by simp)
  unfold minMember
  generalize (List.finRange n).foldl (betterMember w inq) none = r at this
  cases r with
  | none => exact .inl ⟨rfl, fun j => this.2 j (List.mem_finRange j)⟩
  | some m => exact .inr ⟨m, rfl, this.1, fun j => this.2.1 j (List.mem_finRange j)⟩

/-- R67: the least member is unique, and it is the one found. -/
theorem minMember_eq_some {m : Fin n} (h : IsMin w inq m) : minMember w inq = some m := by
  rcases minMember_spec w inq with ⟨_, hnone⟩ | ⟨m', heq, hm'⟩
  · exact absurd (hnone m) (by rw [h.1]; decide)
  · rw [heq]
    by_contra hne
    have hne' : m' ≠ m := fun e => hne (by rw [e])
    have h1 := h.2 m' hm'.1 hne'
    have h2 := hm'.2 m h.1 hne'.symm
    rw [keyBefore_iff] at h1 h2
    omega

/-- The members of the collection. -/
def members (inq : Vector Bool n) : Finset (Fin n) := Finset.univ.filter fun i => inq[i] = true

@[simp] theorem mem_members {i : Fin n} : i ∈ members inq ↔ inq[i] = true := by
  simp [members]

theorem members_set_false (m : Fin n) : members (inq.set m.val false) = (members inq).erase m := by
  ext i
  simp only [mem_members, Finset.mem_erase, Fin.getElem_fin, Vector.getElem_set]
  by_cases h : m = i
  · simp [h]
  · simp [Fin.val_ne_of_ne h, Ne.symm h]

theorem members_set_true (m : Fin n) : members (inq.set m.val true) = insert m (members inq) := by
  ext i
  simp only [mem_members, Finset.mem_insert, Fin.getElem_fin, Vector.getElem_set]
  by_cases h : m = i
  · simp [h]
  · simp [Fin.val_ne_of_ne h, Ne.symm h]

/-- The last member is a member, if there is one. -/
theorem lastMember_spec {m : Fin n} (h : members inq = {m}) : lastMember inq = some m := by
  unfold lastMember
  have hm : ∀ i : Fin n, inq[i] = true ↔ i = m := fun i => by rw [← mem_members, h, Finset.mem_singleton]
  rcases hf : (List.finRange n).find? fun id => inq[id] with _ | i
  · have := List.find?_eq_none.1 hf m (List.mem_finRange m)
    exact absurd ((hm m).2 rfl) (by simpa using this)
  · have := List.find?_some hf
    rw [(hm i).1 (by simpa using this)]

end Collection

/-- ExtractMin has a member to take when the collection is not empty. -/
theorem extractMin_spec (s : State) (h : (members s.inq).Nonempty) :
    ∃ m : Fin 511, IsMin s.nodeW s.inq m ∧
      extractMin s = some (m, { s with inq := s.inq.set m.val false, qcount := s.qcount - 1#9 }) := by
  rcases minMember_spec s.nodeW s.inq with ⟨_, hnone⟩ | ⟨m, heq, hm⟩
  · obtain ⟨j, hj⟩ := h
    rw [mem_members, hnone j] at hj; cases hj
  · exact ⟨m, hm, by unfold extractMin; rw [heq]⟩

/-! ### CreateNode and MergeStep (R68) -/

section Create
variable {s : State} {k : Nat}

theorem nextid_toNat (hk : k < 255) (h : s.nextid = BitVec.ofNat 9 (256 + k)) : s.nextid.toNat = 256 + k := by
  rw [h, BitVec.toNat_ofNat]; exact Nat.mod_eq_of_lt (by omega)

theorem createNode_leftChild (a b : Fin 511) (hk : k < 255) (h : s.nextid = BitVec.ofNat 9 (256 + k)) (j : Fin 255) :
    leftChild (createNode a b s) j = if k = j.val then a.val else leftChild s j := by
  have ha : a.val % 2 ^ 9 = a.val := Nat.mod_eq_of_lt (by omega)
  simp only [leftChild, createNode, setLinkEntry, nextid_toNat hk h, Nat.le_add_right, if_true,
    Nat.add_sub_cancel_left, Fin.getElem_fin, Vector.getElem_setIfInBounds]
  split
  · rw [BitVec.toNat_ofNat, ha]
  · rfl

theorem createNode_rightChild (a b : Fin 511) (hk : k < 255) (h : s.nextid = BitVec.ofNat 9 (256 + k)) (j : Fin 255) :
    rightChild (createNode a b s) j = if k = j.val then b.val else rightChild s j := by
  have hb : b.val % 2 ^ 9 = b.val := Nat.mod_eq_of_lt (by omega)
  simp only [rightChild, createNode, setLinkEntry, nextid_toNat hk h, Nat.le_add_right, if_true,
    Nat.add_sub_cancel_left, Fin.getElem_fin, Vector.getElem_setIfInBounds]
  split
  · rw [BitVec.toNat_ofNat, hb]
  · rfl

theorem createNode_nodeW (a b : Fin 511) (hk : k < 255) (h : s.nextid = BitVec.ofNat 9 (256 + k)) (i : Fin 511) :
    (createNode a b s).nodeW[i] = if 256 + k = i.val then s.nodeW[a] + s.nodeW[b] else s.nodeW[i] := by
  simp only [createNode, nextid_toNat hk h, Fin.getElem_fin, Vector.getElem_setIfInBounds]

theorem createNode_members (a b : Fin 511) (hk : k < 255) (h : s.nextid = BitVec.ofNat 9 (256 + k)) :
    members (createNode a b s).inq = insert ⟨256 + k, by omega⟩ (members s.inq) := by
  rw [← members_set_true]
  congr 1
  simp only [createNode, nextid_toNat hk h]
  ext i hi
  simp [Vector.getElem_setIfInBounds, Vector.getElem_set]

end Create

/-- MergeStep with two members or more: it takes the two least, in order, and creates the next node (R68). -/
theorem mergeStep_spec (s : State) (h : 2 ≤ (members s.inq).card) :
    ∃ a b : Fin 511, IsMin s.nodeW s.inq a ∧ IsMin s.nodeW (s.inq.set a.val false) b ∧
      mergeStep s = createNode a b
        { s with inq := (s.inq.set a.val false).set b.val false, qcount := s.qcount - 1#9 - 1#9 } := by
  obtain ⟨a, ha, hea⟩ := extractMin_spec s (Finset.card_pos.1 (by omega))
  obtain ⟨b, hb, heb⟩ := extractMin_spec { s with inq := s.inq.set a.val false, qcount := s.qcount - 1#9 } (by
    rw [members_set_false, ← Finset.card_pos, Finset.card_erase_of_mem (mem_members.2 ha.1)]; omega)
  exact ⟨a, b, ha, hb, by unfold mergeStep; rw [hea]; simp only [heb]⟩

/-! ### The loop of BUILD (R69, R70) -/

/-- The state of the loop after `k` merges: what R66 to R68 and R70 points 1, 2, 5 say of it, for the nodes that exist. -/
structure Merging (k : Nat) (s : State) : Prop where
  le : k ≤ 255
  nextid : s.nextid = BitVec.ofNat 9 (256 + k)
  qcount : s.qcount = BitVec.ofNat 9 (256 - k)
  card : (members s.inq).card = 256 - k
  inq : ∀ i : Fin 511, s.inq[i] = true ↔ waiting s k i
  leaf : ∀ sym : Fin 256, s.nodeW[sym.val] = s.freq[sym]
  inner : ∀ j : Fin 255, j.val < k → ∀ l r : Fin 511, l.val = leftChild s j → r.val = rightChild s j →
    s.nodeW[256 + j.val] = s.nodeW[l] + s.nodeW[r]
  left_waits : ∀ j : Fin 255, j.val < k → waiting s j (leftChild s j)
  right_waits : ∀ j : Fin 255, j.val < k → waiting s j (rightChild s j)
  distinct : ∀ j : Fin 255, j.val < k → leftChild s j ≠ rightChild s j
  left_least : ∀ (j : Fin 255) (id : Nat), j.val < k → waiting s j id → id ≠ leftChild s j →
    lighter s (leftChild s j) id
  right_least : ∀ (j : Fin 255) (id : Nat), j.val < k → waiting s j id → id ≠ leftChild s j →
    id ≠ rightChild s j → lighter s (rightChild s j) id

theorem weight_eq (s : State) (i : Fin 511) : weight s i = s.nodeW[i].toNat := by
  simp only [weight, i.isLt, dif_pos, Fin.getElem_fin]

theorem waiting_congr {s t : State} {k : Nat} (hl : ∀ j : Fin 255, j.val < k → leftChild t j = leftChild s j)
    (hr : ∀ j : Fin 255, j.val < k → rightChild t j = rightChild s j) (id : Nat) : waiting t k id ↔ waiting s k id := by
  unfold waiting childOf
  constructor
  · rintro ⟨h, hc⟩
    exact ⟨h, fun j hj => by rw [← hl j hj, ← hr j hj]; exact hc j hj⟩
  · rintro ⟨h, hc⟩
    exact ⟨h, fun j hj => by rw [hl j hj, hr j hj]; exact hc j hj⟩

theorem Merging.child_lt {k : Nat} {s : State} (m : Merging k s) {j : Fin 255} (hj : j.val < k) {id : Nat}
    (h : childOf s id j) : id < 256 + j.val := by
  rcases h with h | h
  · exact h ▸ (m.left_waits j hj).1
  · exact h ▸ (m.right_waits j hj).1

/-- One merge keeps the loop invariant (R68, R70). -/
theorem Merging.step {k : Nat} {s : State} (m : Merging k s) (hk : k < 255) : Merging (k + 1) (mergeStep s) := by
  obtain ⟨a, b, ha, hb, he⟩ := mergeStep_spec s (by rw [m.card]; omega)
  set s₂ : State := { s with inq := (s.inq.set a.val false).set b.val false, qcount := s.qcount - 1#9 - 1#9 }
  have hn : s₂.nextid = BitVec.ofNat 9 (256 + k) := m.nextid
  rw [he]
  set t := createNode a b s₂ with ht
  have hL : ∀ j, leftChild t j = if k = j.val then a.val else leftChild s j := createNode_leftChild a b hk hn
  have hR : ∀ j, rightChild t j = if k = j.val then b.val else rightChild s j := createNode_rightChild a b hk hn
  have hW : ∀ i : Fin 511, t.nodeW[i] = if 256 + k = i.val then s.nodeW[a] + s.nodeW[b] else s.nodeW[i] :=
    createNode_nodeW a b hk hn
  have hM : members t.inq = insert ⟨256 + k, by omega⟩ (((members s.inq).erase a).erase b) := by
    rw [ht, createNode_members a b hk hn, members_set_false, members_set_false]
  have hLold : ∀ j : Fin 255, j.val < k → leftChild t j = leftChild s j := fun j hj => by
    rw [hL, if_neg (by omega)]
  have hRold : ∀ j : Fin 255, j.val < k → rightChild t j = rightChild s j := fun j hj => by
    rw [hR, if_neg (by omega)]
  have hwait : ∀ j ≤ k, ∀ id, waiting t j id ↔ waiting s j id := fun j hj =>
    waiting_congr (fun i hi => hLold i (by omega)) (fun i hi => hRold i (by omega))
  have hwt : ∀ id < 256 + k, weight t id = weight s id := fun id hid => by
    have := weight_eq t ⟨id, by omega⟩
    rw [hW, if_neg (by simp only []; omega), ← weight_eq] at this
    exact this
  have hlight : ∀ i j, i < 256 + k → j < 256 + k → (lighter t i j ↔ lighter s i j) := fun i j hi hj => by
    unfold lighter; rw [hwt i hi, hwt j hj]
  -- the two nodes taken
  have haq : waiting s k a := (m.inq a).1 ha.1
  have hba : b ≠ a ∧ s.inq[b] = true := by
    have := mem_members.2 hb.1
    rw [members_set_false, Finset.mem_erase, mem_members] at this
    exact this
  have hbq : waiting s k b := (m.inq b).1 hba.2
  have hmin_a : ∀ id, waiting s k id → id ≠ a.val → lighter s a id := fun id hid hne => by
    have hlt : id < 511 := by have := hid.1; omega
    have := ha.2 ⟨id, hlt⟩ ((m.inq ⟨id, hlt⟩).2 hid) (fun e => hne (by rw [← e]))
    rw [keyBefore_iff, ← weight_eq, ← weight_eq] at this
    exact this
  have hmin_b : ∀ id, waiting s k id → id ≠ a.val → id ≠ b.val → lighter s b id := fun id hid hne hne' => by
    have hlt : id < 511 := by have := hid.1; omega
    have hmem : (⟨id, hlt⟩ : Fin 511) ∈ members (s.inq.set a.val false) := by
      rw [members_set_false, Finset.mem_erase, mem_members]
      exact ⟨fun e => hne (by rw [← e]), (m.inq ⟨id, hlt⟩).2 hid⟩
    have := hb.2 ⟨id, hlt⟩ (mem_members.1 hmem) (fun e => hne' (by rw [← e]))
    rw [keyBefore_iff, ← weight_eq, ← weight_eq] at this
    exact this
  have hkk : ∀ j : Fin 255, j.val < k + 1 → j.val < k ∨ j.val = k := fun j hj => by omega
  refine ⟨by omega, ?_, ?_, ?_, ?_, ?_, ?_, ?_, ?_, ?_, ?_, ?_⟩
  · show s.nextid + 1#9 = _
    rw [m.nextid]
    apply BitVec.eq_of_toNat_eq
    simp only [BitVec.toNat_add, BitVec.toNat_ofNat]
    omega
  · show s.qcount - 1#9 - 1#9 + 1#9 = _
    rw [m.qcount]
    apply BitVec.eq_of_toNat_eq
    simp only [BitVec.toNat_add, BitVec.toNat_sub, BitVec.toNat_ofNat]
    omega
  · rw [hM, Finset.card_insert_of_notMem, Finset.card_erase_of_mem, Finset.card_erase_of_mem, m.card]
    · omega
    · exact mem_members.2 ha.1
    · exact Finset.mem_erase.2 ⟨hba.1, mem_members.2 hba.2⟩
    · intro h
      have := (m.inq _).1 (mem_members.1 (Finset.mem_of_mem_erase (Finset.mem_of_mem_erase h)))
      exact absurd this.1 (by simp)
  · intro i
    rw [← mem_members, hM, Finset.mem_insert, Finset.mem_erase, Finset.mem_erase, mem_members, m.inq]
    unfold waiting
    constructor
    · rintro (h | ⟨hib, hia, hlt, hc⟩)
      · subst h
        refine ⟨by simp only []; omega, fun j hj hch => ?_⟩
        rcases hkk j hj with hj | hj
        · rw [childOf, hLold j hj, hRold j hj] at hch
          have := m.child_lt hj hch
          simp only [] at this; omega
        · have h1 := haq.1; have h2 := hbq.1
          rw [childOf, hL, hR, if_pos hj.symm, if_pos hj.symm] at hch
          simp only [] at hch; omega
      · refine ⟨by omega, fun j hj hch => ?_⟩
        rcases hkk j hj with hj | hj
        · rw [childOf, hLold j hj, hRold j hj] at hch
          exact hc j hj hch
        · rw [childOf, hL, hR, if_pos hj.symm, if_pos hj.symm] at hch
          rcases hch with h | h
          · exact hia (Fin.ext h.symm)
          · exact hib (Fin.ext h.symm)
    · rintro ⟨hlt, hc⟩
      by_cases hik : i.val = 256 + k
      · exact .inl (Fin.ext hik)
      · have hkc := hc ⟨k, hk⟩ (by simp)
        rw [childOf, hL, hR, if_pos rfl, if_pos rfl] at hkc
        refine .inr ⟨fun e => hkc (.inr (by rw [e])), fun e => hkc (.inl (by rw [e])), by omega, fun j hj hch => ?_⟩
        refine hc j (by omega) ?_
        rw [childOf, hLold j hj, hRold j hj]; exact hch
  · intro sym
    have := hW ⟨sym.val, by omega⟩
    rw [if_neg (by simp only []; omega)] at this
    exact this.trans (m.leaf sym)
  · intro j hj l r hl hr
    rcases hkk j hj with hj | hj
    · rw [hLold j hj] at hl; rw [hRold j hj] at hr
      have h1 := (m.left_waits j hj).1; have h2 := (m.right_waits j hj).1
      have := hW ⟨256 + j.val, by omega⟩
      rw [if_neg (by simp only []; omega)] at this
      rw [hW l, hW r, if_neg (by omega), if_neg (by omega)]
      exact this.trans (m.inner j hj l r hl hr)
    · have h1 := haq.1; have h2 := hbq.1
      rw [hL, if_pos hj.symm] at hl; rw [hR, if_pos hj.symm] at hr
      have e1 : l = a := Fin.ext hl
      have e2 : r = b := Fin.ext hr
      have := hW ⟨256 + j.val, by omega⟩
      rw [if_pos (by simp only []; omega)] at this
      rw [hW l, hW r, if_neg (by omega), if_neg (by omega), e1, e2]
      exact this
  · intro j hj
    rw [hwait j (by omega)]
    rcases hkk j hj with hj | hj
    · rw [hLold j hj]; exact m.left_waits j hj
    · rw [hL, if_pos hj.symm, hj]; exact haq
  · intro j hj
    rw [hwait j (by omega)]
    rcases hkk j hj with hj | hj
    · rw [hRold j hj]; exact m.right_waits j hj
    · rw [hR, if_pos hj.symm, hj]; exact hbq
  · intro j hj
    rcases hkk j hj with hj | hj
    · rw [hLold j hj, hRold j hj]; exact m.distinct j hj
    · rw [hL, hR, if_pos hj.symm, if_pos hj.symm]
      exact fun e => hba.1 (Fin.ext e.symm)
  · intro j id hj hid hne
    rw [hwait j (by omega)] at hid
    have hidlt := hid.1
    rcases hkk j hj with hj | hj
    · have := (m.left_waits j hj).1
      rw [hLold j hj] at hne ⊢
      rw [hlight _ _ (by omega) (by omega)]
      exact m.left_least j id hj hid hne
    · have := haq.1
      rw [hL, if_pos hj.symm] at hne ⊢
      rw [hlight _ _ (by omega) (by omega)]
      exact hmin_a id (hj ▸ hid) hne
  · intro j id hj hid hne hne'
    rw [hwait j (by omega)] at hid
    have hidlt := hid.1
    rcases hkk j hj with hj | hj
    · have := (m.right_waits j hj).1
      rw [hLold j hj] at hne; rw [hRold j hj] at hne' ⊢
      rw [hlight _ _ (by omega) (by omega)]
      exact m.right_least j id hj hid hne hne'
    · have := hbq.1
      rw [hL, if_pos hj.symm] at hne; rw [hR, if_pos hj.symm] at hne' ⊢
      rw [hlight _ _ (by omega) (by omega)]
      exact hmin_b id (hj ▸ hid) hne hne'

/-- Seed establishes the loop invariant (R66). -/
theorem merging_seed (s : State) : Merging 0 (seed s) := by
  have hq : ∀ i : Fin 511, (seed s).inq[i] = true ↔ i.val < 256 := fun i => by
    simp only [seed, Fin.getElem_fin, Vector.getElem_ofFn, decide_eq_true_iff]
  have hcard : (members (seed s).inq).card = 256 := by
    have : members (seed s).inq = (Finset.univ : Finset (Fin 256)).map (Fin.castLEEmb (by omega)) := by
      ext i
      rw [mem_members, hq]
      simp only [Finset.mem_map, Finset.mem_univ, true_and, Fin.castLEEmb_apply]
      constructor
      · intro h; exact ⟨⟨i, h⟩, rfl⟩
      · rintro ⟨j, rfl⟩; simp
    rw [this, Finset.card_map, Finset.card_univ, Fintype.card_fin]
  refine ⟨by omega, rfl, rfl, hcard, fun i => ?_, fun sym => ?_, ?_, ?_, ?_, ?_, ?_, ?_⟩
  · rw [hq]; simp [waiting]
  · have h := sym.isLt
    simp only [seed, Vector.getElem_ofFn, h, dif_pos, Fin.getElem_fin]
  all_goals intro j; intros; omega

theorem mergeWhile_spec (bound : Nat) : ∀ {k : Nat} {s : State}, Merging k s → 255 - k ≤ bound →
    Merging 255 (mergeWhile bound s) := by
  induction bound with
  | zero =>
    intro k s m hb
    have : k = 255 := by have := m.le; omega
    exact this ▸ m
  | succ bound ih =>
    intro k s m hb
    have hle := m.le
    have hq : s.qcount.toNat = 256 - k := by
      rw [m.qcount, BitVec.toNat_ofNat]; exact Nat.mod_eq_of_lt (by omega)
    unfold mergeWhile
    by_cases hk : k = 255
    · rw [if_neg (by omega)]; exact hk ▸ m
    · rw [if_pos (by omega)]
      exact ih (m.step (by omega)) (by omega)

/-- The part of the state the loop of BUILD may change (R32). -/
abbrev TreeFrame (s t : State) : Prop :=
  t = { s with nodeW := t.nodeW, nodeL := t.nodeL, nodeR := t.nodeR, inq := t.inq, nextid := t.nextid,
               qcount := t.qcount }

theorem mergeStep_frame (s : State) : TreeFrame s (mergeStep s) := by
  unfold mergeStep extractMin
  cases minMember s.nodeW s.inq with
  | none => rfl
  | some a =>
    simp only []
    cases minMember s.nodeW (s.inq.set a.val false) <;> rfl

theorem mergeWhile_frame (bound : Nat) : ∀ s : State, TreeFrame s (mergeWhile bound s) := by
  induction bound with
  | zero => exact fun s => rfl
  | succ bound ih =>
    intro s
    unfold mergeWhile
    split
    · have h1 := ih (mergeStep s)
      have h2 := mergeStep_frame s
      unfold TreeFrame at *
      rw [h1, h2]
    · rfl

/-! ### Weights are exact sums (R70 point 4) -/

theorem sum_toList {n : Nat} (v : Vector Count n) :
    (v.toList.map BitVec.toNat).sum = ∑ i : Fin n, v[i].toNat := by
  rw [← List.sum_ofFn]
  congr 1
  apply List.ext_getElem
  · simp
  · intro i h1 h2
    simp

theorem freqTotal_eq_sum (s : State) : freqTotal s = ∑ sym : Fin 256, s.freq[sym].toNat := sum_toList s.freq

/-- The total weight of the collection. -/
@[irreducible] def collectionWeight (s : State) : Nat := ∑ i ∈ members s.inq, s.nodeW[i].toNat

theorem collectionWeight_seed (s : State) : collectionWeight (seed s) = freqTotal s := by
  have hq : ∀ i : Fin 511, (seed s).inq[i] = true ↔ i.val < 256 := fun i => by
    simp only [seed, Fin.getElem_fin, Vector.getElem_ofFn, decide_eq_true_iff]
  have hm : members (seed s).inq = (Finset.univ : Finset (Fin 256)).map (Fin.castLEEmb (by omega)) := by
    ext i
    rw [mem_members, hq]
    simp only [Finset.mem_map, Finset.mem_univ, true_and, Fin.castLEEmb_apply]
    constructor
    · intro h; exact ⟨⟨i, h⟩, rfl⟩
    · rintro ⟨j, rfl⟩; simp
  unfold collectionWeight
  rw [hm, Finset.sum_map, freqTotal_eq_sum]
  refine Finset.sum_congr rfl fun sym _ => ?_
  have h := sym.isLt
  simp only [seed, Fin.castLEEmb_apply, Fin.getElem_fin, Vector.getElem_ofFn, Fin.val_castLE, h, dif_pos]

/-- One merge keeps the total weight, and its addition does not wrap. -/
theorem Merging.step_weight {k : Nat} {s : State} (m : Merging k s) (hk : k < 255)
    (hlt : collectionWeight s < 2 ^ 32) :
    collectionWeight (mergeStep s) = collectionWeight s ∧
      weight (mergeStep s) (256 + k) =
        weight (mergeStep s) (leftChild (mergeStep s) ⟨k, hk⟩) +
          weight (mergeStep s) (rightChild (mergeStep s) ⟨k, hk⟩) := by
  obtain ⟨a, b, ha, hb, he⟩ := mergeStep_spec s (by rw [m.card]; omega)
  set s₂ : State := { s with inq := (s.inq.set a.val false).set b.val false, qcount := s.qcount - 1#9 - 1#9 }
  have hn : s₂.nextid = BitVec.ofNat 9 (256 + k) := m.nextid
  rw [he]
  set t := createNode a b s₂ with ht
  have hW : ∀ i : Fin 511, t.nodeW[i] = if 256 + k = i.val then s.nodeW[a] + s.nodeW[b] else s.nodeW[i] :=
    createNode_nodeW a b hk hn
  have hM : members t.inq = insert ⟨256 + k, by omega⟩ (((members s.inq).erase a).erase b) := by
    rw [ht, createNode_members a b hk hn, members_set_false, members_set_false]
  have hba : b ≠ a ∧ s.inq[b] = true := by
    have := mem_members.2 hb.1
    rw [members_set_false, Finset.mem_erase, mem_members] at this
    exact this
  have hal := ((m.inq a).1 ha.1).1
  have hbl := ((m.inq b).1 hba.2).1
  have hbm : b ∈ (members s.inq).erase a := Finset.mem_erase.2 ⟨hba.1, mem_members.2 hba.2⟩
  have hsplit : collectionWeight s =
      s.nodeW[a].toNat + (s.nodeW[b].toNat + ∑ i ∈ ((members s.inq).erase a).erase b, s.nodeW[i].toNat) := by
    unfold collectionWeight
    have h1 := Finset.add_sum_erase (members s.inq) (fun i => s.nodeW[i].toNat) (mem_members.2 ha.1)
    have h2 := Finset.add_sum_erase _ (fun i => s.nodeW[i].toNat) hbm
    rw [← h1, ← h2]
  have hadd : (s.nodeW[a] + s.nodeW[b]).toNat = s.nodeW[a].toNat + s.nodeW[b].toNat := by
    rw [BitVec.toNat_add]; exact Nat.mod_eq_of_lt (by omega)
  have hnew : (⟨256 + k, by omega⟩ : Fin 511) ∉ ((members s.inq).erase a).erase b := fun h => by
    have := (m.inq _).1 (mem_members.1 (Finset.mem_of_mem_erase (Finset.mem_of_mem_erase h)))
    exact absurd this.1 (by simp)
  constructor
  · have hrest : ∑ i ∈ ((members s.inq).erase a).erase b, t.nodeW[i].toNat =
        ∑ i ∈ ((members s.inq).erase a).erase b, s.nodeW[i].toNat :=
      Finset.sum_congr rfl fun i hi => by
        rw [hW i, if_neg (fun h => hnew (by rw [show (⟨256 + k, by omega⟩ : Fin 511) = i from Fin.ext h]; exact hi))]
    rw [hsplit]
    unfold collectionWeight
    rw [hM, Finset.sum_insert hnew, hrest, hW, if_pos rfl, hadd]
    omega
  · have e1 : leftChild t ⟨k, hk⟩ = a.val := by rw [ht, createNode_leftChild a b hk hn, if_pos rfl]
    have e2 : rightChild t ⟨k, hk⟩ = b.val := by rw [ht, createNode_rightChild a b hk hn, if_pos rfl]
    have w1 := weight_eq t ⟨256 + k, by omega⟩
    rw [hW, if_pos rfl, hadd] at w1
    rw [e1, e2, weight_eq t a, weight_eq t b, hW a, hW b, if_neg (by omega), if_neg (by omega)]
    exact w1

/-- A merge writes only the node it creates: older nodes keep their weights and children. -/
theorem Merging.step_old {k : Nat} {s : State} (m : Merging k s) (hk : k < 255) :
    (∀ id < 256 + k, weight (mergeStep s) id = weight s id) ∧
      ∀ j : Fin 255, j.val < k →
        leftChild (mergeStep s) j = leftChild s j ∧ rightChild (mergeStep s) j = rightChild s j := by
  obtain ⟨a, b, ha, hb, he⟩ := mergeStep_spec s (by rw [m.card]; omega)
  set s₂ : State := { s with inq := (s.inq.set a.val false).set b.val false, qcount := s.qcount - 1#9 - 1#9 }
  have hn : s₂.nextid = BitVec.ofNat 9 (256 + k) := m.nextid
  rw [he]
  refine ⟨fun id hid => ?_, fun j hj => ⟨?_, ?_⟩⟩
  · have hlt : id < 511 := by omega
    have h1 := weight_eq (createNode a b s₂) ⟨id, hlt⟩
    rw [createNode_nodeW a b hk hn, if_neg (by simp only []; omega)] at h1
    exact h1.trans (weight_eq s ⟨id, hlt⟩).symm
  · rw [createNode_leftChild a b hk hn, if_neg (by omega)]; rfl
  · rw [createNode_rightChild a b hk hn, if_neg (by omega)]; rfl

/-- The loop invariant on exact weights: nothing is lost from the total, and each internal node made so far weighs the
sum of its children (R70 point 4). -/
structure MergingExact (total k : Nat) (s : State) : Prop where
  total : collectionWeight s = total
  inner : ∀ j : Fin 255, j.val < k → weight s (256 + j) = weight s (leftChild s j) + weight s (rightChild s j)

theorem MergingExact.step {total k : Nat} {s : State} (e : MergingExact total k s) (m : Merging k s) (hk : k < 255)
    (ht : total < 2 ^ 32) : MergingExact total (k + 1) (mergeStep s) := by
  obtain ⟨h1, h2⟩ := m.step_weight hk (by rw [e.total]; exact ht)
  obtain ⟨hw, hc⟩ := m.step_old hk
  refine ⟨h1.trans e.total, fun j hj => ?_⟩
  by_cases hjk : j.val = k
  · have : j = ⟨k, hk⟩ := Fin.ext hjk
    rw [this]; exact h2
  · have hj' : j.val < k := by omega
    have l1 := (m.left_waits j hj').1
    have l2 := (m.right_waits j hj').1
    rw [(hc j hj').1, (hc j hj').2, hw _ (by omega), hw _ (by omega), hw _ (by omega)]
    exact e.inner j hj'

theorem mergeWhile_exact (bound : Nat) : ∀ {total k : Nat} {s : State}, Merging k s → MergingExact total k s →
    total < 2 ^ 32 → 255 - k ≤ bound → MergingExact total 255 (mergeWhile bound s) := by
  induction bound with
  | zero =>
    intro total k s m e ht hb
    have : k = 255 := by have := m.le; omega
    exact this ▸ e
  | succ bound ih =>
    intro total k s m e ht hb
    have hle := m.le
    have hq : s.qcount.toNat = 256 - k := by
      rw [m.qcount, BitVec.toNat_ofNat]; exact Nat.mod_eq_of_lt (by omega)
    unfold mergeWhile
    by_cases hk : k = 255
    · rw [if_neg (by omega)]; exact hk ▸ e
    · rw [if_pos (by omega)]
      exact ih (m.step (by omega)) (e.step m (by omega) ht) ht (by omega)

end Sys2Proof.Machine
end

