-- ==== Sys2Proof/Laws/Build.lean ====
section
/-! SUPPORT. What BUILD does as a whole (`spec/42_tree_builder.md` rules R69, R70), from the loop invariant of
`Sys2Proof/Laws/Tree.lean`. -/

namespace Sys2Proof.Machine

/-- After 255 merges the one member left is node 510. -/
theorem Merging.members_eq {s : State} (m : Merging 255 s) : members s.inq = {⟨510, by omega⟩} := by
  have h510 : (⟨510, by omega⟩ : Fin 511) ∈ members s.inq := by
    refine mem_members.2 ((m.inq _).2 ⟨by simp, fun j hj hch => ?_⟩)
    have := m.child_lt hj hch
    simp only [] at this; omega
  have hcard := m.card
  exact Finset.eq_singleton_iff_unique_mem.2 ⟨h510, fun x hx => by
    obtain ⟨y, hy⟩ := Finset.card_eq_one.1 (by rw [hcard])
    rw [hy, Finset.mem_singleton] at hx h510
    rw [hx, h510]⟩

theorem Merging.greedyTree {s : State} (m : Merging 255 s) : GreedyTree s where
  left_waits := fun k => m.left_waits k k.isLt
  right_waits := fun k => m.right_waits k k.isLt
  distinct := fun k => m.distinct k k.isLt
  left_least := fun k id => m.left_least k id k.isLt
  right_least := fun k id => m.right_least k id k.isLt

theorem Merging.treeLinks {s : State} (m : Merging 255 s) : TreeLinks s where
  left_lt := fun k => (m.left_waits k k.isLt).1
  right_lt := fun k => (m.right_waits k k.isLt).1
  distinct := fun k => m.distinct k k.isLt
  one_parent := by
    intro id hid
    have hno : ¬waiting s 255 id := fun h => by
      have hmem := mem_members.2 ((m.inq ⟨id, by omega⟩).2 h)
      rw [m.members_eq, Finset.mem_singleton, Fin.ext_iff] at hmem
      simp only [] at hmem; omega
    have hex : ∃ k, childOf s id k := by
      by_contra hc
      exact hno ⟨by omega, fun j _ hj => hc ⟨j, hj⟩⟩
    obtain ⟨k, hk⟩ := hex
    have huniq : ∀ i j : Fin 255, childOf s id i → childOf s id j → ¬i.val < j.val := by
      intro i j hi hj hlt
      rcases hj with h | h
      · exact (m.left_waits j j.isLt).2 i hlt (h ▸ hi)
      · exact (m.right_waits j j.isLt).2 i hlt (h ▸ hi)
    refine ⟨k, hk, fun j hj => Fin.ext ?_⟩
    have h1 := huniq j k hj hk
    have h2 := huniq k j hk hj
    omega

/-- The loop of BUILD from any state. -/
theorem merged_spec (s : State) : Merging 255 (mergeWhile 256 (seed s)) :=
  mergeWhile_spec 256 (merging_seed s) (by omega)

/-- The end of BUILD after the loop: ROOT = 510, and the other fields as the loop left them (R69). -/
theorem closeTree_eq {t : State} (m : Merging 255 t) :
    closeTree t =
      { t with
        phase := .built, root := 510#9, nextid := 511#9, qcount := 1#9,
        inq := Vector.ofFn fun id : Fin 511 => decide (id.val = 510) } := by
  have hn : t.nextid = 511#9 := m.nextid
  have hq : t.qcount = 1#9 := m.qcount
  have hinq : t.inq = Vector.ofFn fun id : Fin 511 => decide (id.val = 510) := by
    apply Vector.ext
    intro i hi
    rw [Vector.getElem_ofFn]
    have h1 : t.inq[(⟨i, hi⟩ : Fin 511)] = true ↔ i = 510 := by
      rw [← mem_members, m.members_eq, Finset.mem_singleton, Fin.ext_iff]
    rw [Fin.getElem_fin] at h1
    by_cases h : i = 510
    · rw [decide_eq_true h]; exact h1.2 h
    · rw [decide_eq_false h]; exact Bool.eq_false_iff.2 fun h' => h (h1.1 h')
  unfold closeTree
  rw [lastMember_spec m.members_eq, ← hn, ← hq, ← hinq]

theorem closeTree_frame {s t : State} (m : Merging 255 t) (hf : TreeFrame (seed s) t) :
    closeTree t =
      { s with
        phase := .built, root := 510#9, nextid := 511#9, qcount := 1#9, nodeW := (closeTree t).nodeW,
        nodeL := (closeTree t).nodeL, nodeR := (closeTree t).nodeR,
        inq := Vector.ofFn fun id : Fin 511 => decide (id.val = 510) } := by
  rw [closeTree_eq m]
  unfold TreeFrame at hf
  generalize t.nodeW = w, t.nodeL = l, t.nodeR = r, t.inq = q, t.nextid = n, t.qcount = c at hf
  rw [hf]
  simp only [seed_err, seed_freq, seed_inlen, seed_codeV, seed_codeLen, seed_codeVal, seed_acc, seed_accN,
    seed_pklen, seed_bitcnt, seed_outlen, seed_padn, seed_out, seed_hostIn, seed_portOut, seed_draws]

theorem closeTree_weights {s t : State} (m : Merging 255 t) (hf : TreeFrame (seed s) t) :
    (∀ sym : Fin 256, (closeTree t).nodeW[sym.val] = s.freq[sym]) ∧
      ∀ (k : Fin 255) (l r : Fin 511), l.val = leftChild (closeTree t) k → r.val = rightChild (closeTree t) k →
        (closeTree t).nodeW[256 + k.val] = (closeTree t).nodeW[l] + (closeTree t).nodeW[r] := by
  have hfreq : t.freq = s.freq := by unfold TreeFrame at hf; rw [hf]; simp only [seed_freq]
  rw [closeTree_eq m]
  exact ⟨fun sym => (m.leaf sym).trans (by rw [hfreq]), fun k => m.inner k k.isLt⟩

theorem closeTree_greedy {t : State} (m : Merging 255 t) : GreedyTree (closeTree t) ∧ TreeLinks (closeTree t) := by
  have g := m.greedyTree
  have l := m.treeLinks
  rw [closeTree_eq m]
  exact ⟨⟨g.left_waits, g.right_waits, g.distinct, g.left_least, g.right_least⟩,
    ⟨l.left_lt, l.right_lt, l.distinct, l.one_parent⟩⟩

theorem closeTree_exact {total : Nat} {t : State} (m : Merging 255 t) (e : MergingExact total 255 t) :
    (∀ k : Fin 255, weight (closeTree t) (256 + k) =
      weight (closeTree t) (leftChild (closeTree t) k) + weight (closeTree t) (rightChild (closeTree t) k)) ∧
      weight (closeTree t) 510 = total := by
  have h1 := e.total
  unfold collectionWeight at h1
  rw [m.members_eq, Finset.sum_singleton, ← weight_eq] at h1
  have h2 := e.inner
  rw [closeTree_eq m]
  exact ⟨fun k => h2 k k.isLt, h1⟩

/-- BUILD writes only the tree builder's state and PHASE, and leaves the registers of R19 as stated there (R69). -/
theorem buildTree_frame (s : State) :
    buildTree s =
      { s with
        phase := .built, root := 510#9, nextid := 511#9, qcount := 1#9, nodeW := (buildTree s).nodeW,
        nodeL := (buildTree s).nodeL, nodeR := (buildTree s).nodeR,
        inq := Vector.ofFn fun id : Fin 511 => decide (id.val = 510) } :=
  closeTree_frame (merged_spec s) (mergeWhile_frame 256 (seed s))

/-- The weights BUILD stores: a leaf its frequency, an internal node the 32-bit sum of its children (R66, R68). -/
theorem buildTree_weights (s : State) :
    (∀ sym : Fin 256, (buildTree s).nodeW[sym.val] = s.freq[sym]) ∧
      ∀ (k : Fin 255) (l r : Fin 511), l.val = leftChild (buildTree s) k → r.val = rightChild (buildTree s) k →
        (buildTree s).nodeW[256 + k.val] = (buildTree s).nodeW[l] + (buildTree s).nodeW[r] :=
  closeTree_weights (merged_spec s) (mergeWhile_frame 256 (seed s))

/-- BUILD builds the tree of the greedy algorithm (R65, R67, R68), with the links of R17. -/
theorem buildTree_greedy (s : State) : GreedyTree (buildTree s) ∧ TreeLinks (buildTree s) :=
  closeTree_greedy (merged_spec s)

/-- No addition of BUILD wraps when the frequencies' total fits a counter, and the root weighs that total (R70 point 4). -/
theorem buildTree_exact (s : State) (h : freqTotal s < 2 ^ 32) :
    (∀ k : Fin 255, weight (buildTree s) (256 + k) =
      weight (buildTree s) (leftChild (buildTree s) k) + weight (buildTree s) (rightChild (buildTree s) k)) ∧
      weight (buildTree s) 510 = freqTotal s :=
  closeTree_exact (merged_spec s)
    (mergeWhile_exact 256 (merging_seed s) ⟨collectionWeight_seed s, fun j hj => by omega⟩ h (by omega))

/-! ### The fields after BUILD, but for the tree's three arrays (R69) -/

@[simp] theorem buildTree_phase (s : State) : (buildTree s).phase = .built := by rw [buildTree_frame]
@[simp] theorem buildTree_root (s : State) : (buildTree s).root = 510#9 := by rw [buildTree_frame]
@[simp] theorem buildTree_nextid (s : State) : (buildTree s).nextid = 511#9 := by rw [buildTree_frame]
@[simp] theorem buildTree_qcount (s : State) : (buildTree s).qcount = 1#9 := by rw [buildTree_frame]
@[simp] theorem buildTree_inq (s : State) :
    (buildTree s).inq = Vector.ofFn fun id : Fin 511 => decide (id.val = 510) := by rw [buildTree_frame]
@[simp] theorem buildTree_err (s : State) : (buildTree s).err = s.err := by rw [buildTree_frame]
@[simp] theorem buildTree_freq (s : State) : (buildTree s).freq = s.freq := by rw [buildTree_frame]
@[simp] theorem buildTree_inlen (s : State) : (buildTree s).inlen = s.inlen := by rw [buildTree_frame]
@[simp] theorem buildTree_codeV (s : State) : (buildTree s).codeV = s.codeV := by rw [buildTree_frame]
@[simp] theorem buildTree_codeLen (s : State) : (buildTree s).codeLen = s.codeLen := by rw [buildTree_frame]
@[simp] theorem buildTree_codeVal (s : State) : (buildTree s).codeVal = s.codeVal := by rw [buildTree_frame]
@[simp] theorem buildTree_acc (s : State) : (buildTree s).acc = s.acc := by rw [buildTree_frame]
@[simp] theorem buildTree_accN (s : State) : (buildTree s).accN = s.accN := by rw [buildTree_frame]
@[simp] theorem buildTree_pklen (s : State) : (buildTree s).pklen = s.pklen := by rw [buildTree_frame]
@[simp] theorem buildTree_bitcnt (s : State) : (buildTree s).bitcnt = s.bitcnt := by rw [buildTree_frame]
@[simp] theorem buildTree_outlen (s : State) : (buildTree s).outlen = s.outlen := by rw [buildTree_frame]
@[simp] theorem buildTree_padn (s : State) : (buildTree s).padn = s.padn := by rw [buildTree_frame]
@[simp] theorem buildTree_out (s : State) : (buildTree s).out = s.out := by rw [buildTree_frame]
@[simp] theorem buildTree_hostIn (s : State) : (buildTree s).hostIn = s.hostIn := by rw [buildTree_frame]
@[simp] theorem buildTree_portOut (s : State) : (buildTree s).portOut = s.portOut := by rw [buildTree_frame]
@[simp] theorem buildTree_draws (s : State) : (buildTree s).draws = s.draws := by rw [buildTree_frame]

/-! ### Weights, and uniqueness of the tree -/

/-- The weight of an internal node, addition included as the 32-bit one it is (R68). -/
theorem weight_inner {t : State} (hl : TreeLinks t)
    (h : ∀ (k : Fin 255) (l r : Fin 511), l.val = leftChild t k → r.val = rightChild t k →
      t.nodeW[256 + k.val] = t.nodeW[l] + t.nodeW[r]) (k : Fin 255) :
    weight t (256 + k) = (weight t (leftChild t k) + weight t (rightChild t k)) % 2 ^ 32 := by
  have h1 := hl.left_lt k
  have h2 := hl.right_lt k
  have hadd := h k ⟨leftChild t k, by omega⟩ ⟨rightChild t k, by omega⟩ rfl rfl
  simp only [weight]
  rw [dif_pos (by omega), dif_pos (by omega), dif_pos (by omega), hadd]
  exact BitVec.toNat_add _ _

theorem buildTree_inner (s : State) (k : Fin 255) :
    weight (buildTree s) (256 + k) =
      (weight (buildTree s) (leftChild (buildTree s) k) + weight (buildTree s) (rightChild (buildTree s) k)) % 2 ^ 32 :=
  weight_inner (buildTree_greedy s).2 (buildTree_weights s).2 k

/-- The weight of a leaf (R66). -/
theorem buildTree_leaf (s : State) (sym : Fin 256) : weight (buildTree s) sym = s.freq[sym].toNat := by
  rw [weight, dif_pos (by omega), (buildTree_weights s).1 sym]

/-- The greedy tree of given leaf weights is unique: merge by merge the same two nodes are the lightest (R70 point 7). -/
theorem GreedyTree.unique {s t : State} (hs : GreedyTree s) (ht : GreedyTree t)
    (leaf : ∀ sym : Fin 256, weight s sym = weight t sym)
    (inner : ∀ k : Fin 255, weight s (256 + k) = (weight s (leftChild s k) + weight s (rightChild s k)) % 2 ^ 32)
    (inner' : ∀ k : Fin 255, weight t (256 + k) = (weight t (leftChild t k) + weight t (rightChild t k)) % 2 ^ 32) :
    (∀ k, leftChild s k = leftChild t k ∧ rightChild s k = rightChild t k) ∧ ∀ id < 511, weight s id = weight t id := by
  have main : ∀ k : Nat, k ≤ 255 →
      (∀ j : Fin 255, j.val < k → leftChild s j = leftChild t j ∧ rightChild s j = rightChild t j) ∧
        ∀ id < 256 + k, weight s id = weight t id := by
    intro k
    induction k with
    | zero =>
      intro _
      exact ⟨fun j hj => absurd hj (Nat.not_lt_zero _), fun id hid => leaf ⟨id, by omega⟩⟩
    | succ k ih =>
      intro hk
      obtain ⟨hc, hw⟩ := ih (by omega)
      let K : Fin 255 := ⟨k, by omega⟩
      have hwait : ∀ id, waiting s k id ↔ waiting t k id := fun id =>
        waiting_congr (fun j hj => (hc j hj).1) (fun j hj => (hc j hj).2) id
      have hlt : ∀ {i j}, waiting s k i → waiting s k j → lighter s i j → ¬lighter t j i := by
        intro i j hi hj h h'
        have e1 := hw i hi.1; have e2 := hw j hj.1
        simp only [lighter] at h h'
        omega
      have ls := hs.left_waits K; have rs := hs.right_waits K
      have lt := (hwait _).2 (ht.left_waits K); have rt := (hwait _).2 (ht.right_waits K)
      have el : leftChild s K = leftChild t K := by
        by_contra hne
        exact hlt ls lt (hs.left_least K _ lt (Ne.symm hne)) (ht.left_least K _ ((hwait _).1 ls) hne)
      have er : rightChild s K = rightChild t K := by
        by_contra hne
        exact hlt rs rt (hs.right_least K _ rt (by rw [el]; exact (ht.distinct K).symm) (Ne.symm hne))
          (ht.right_least K _ ((hwait _).1 rs) (by rw [← el]; exact (hs.distinct K).symm) hne)
      refine ⟨fun j hj => ?_, fun id hid => ?_⟩
      · by_cases hjk : j.val = k
        · have : j = K := Fin.ext hjk
          rw [this]; exact ⟨el, er⟩
        · exact hc j (by omega)
      · by_cases hik : id = 256 + k
        · subst hik
          rw [show weight s (256 + k) = _ from inner K, show weight t (256 + k) = _ from inner' K, hw _ ls.1, hw _ rs.1, el,
            er]
        · exact hw id (by omega)
  exact ⟨fun k => (main 255 le_rfl).1 k k.isLt, fun id hid => (main 255 le_rfl).2 id (by omega)⟩

end Sys2Proof.Machine
end

