-- ==== Sys2Proof/Laws/Codes.lean ====
section
/-! SUPPORT. What DERIVE computes (`spec/43_code_derivation.md` rules R80 to R83): on a tree with the links of R17 the sweep
gives every node the root-to-node path, and the codes of distinct symbols are not prefixes of one another. -/

namespace Sys2Proof.Machine

/-! ### Paths and digits -/

/-- Appending a digit to a code in its integer form: shift and add (R20, R81). -/
theorem codeDigits_append (len : CodeLen) (val : CodeVal) (b : Bool) (hlen : len.toNat < 255)
    (hval : val.toNat < 2 ^ len.toNat) :
    codeDigits (len + 1#8) ((val <<< 1) + (BitVec.ofBool b).setWidth 255) = codeDigits len val ++ [b] ∧
      ((val <<< 1) + (BitVec.ofBool b).setWidth 255).toNat < 2 ^ (len.toNat + 1) ∧
      (len + 1#8).toNat = len.toNat + 1 := by
  have h1 : (len + 1#8).toNat = len.toNat + 1 := by
    rw [BitVec.toNat_add]; exact Nat.mod_eq_of_lt (by simp only [BitVec.toNat_ofNat]; omega)
  have hb : (BitVec.ofBool b).toNat ≤ 1 := by cases b <;> decide
  have h254 : 2 ^ len.toNat ≤ 2 ^ 254 := Nat.pow_le_pow_right (by omega) (by omega)
  have hsh : ((val <<< 1) + (BitVec.ofBool b).setWidth 255).toNat = 2 * val.toNat + (BitVec.ofBool b).toNat := by
    rw [BitVec.toNat_add, BitVec.toNat_shiftLeft, BitVec.toNat_setWidth, Nat.shiftLeft_eq]
    have : (2 : Nat) ^ 255 = 2 * 2 ^ 254 := by norm_num
    omega
  refine ⟨?_, by rw [hsh, Nat.pow_succ]; omega, h1⟩
  unfold codeDigits
  rw [h1, List.range_succ, List.map_append, List.map_singleton]
  have hbit : ∀ i, ((val <<< 1) + (BitVec.ofBool b).setWidth 255).getLsbD i =
      (2 * val.toNat + (BitVec.ofBool b).toNat).testBit i := fun i => by
    rw [← hsh]; rfl
  have h2 : 2 * val.toNat + (BitVec.ofBool b).toNat = Nat.bit b val.toNat := by
    cases b <;> simp [Nat.bit]
  congr 1
  · apply List.map_congr_left
    intro k hk
    rw [List.mem_range] at hk
    have h3 : len.toNat + 1 - 1 - k = (len.toNat - 1 - k) + 1 := by omega
    rw [hbit, h2, h3, Nat.testBit_bit_succ]; rfl
  · have h3 : len.toNat + 1 - 1 - len.toNat = 0 := by omega
    rw [hbit, h2, h3, Nat.testBit_bit_zero]

/-- A node's scratch entry holds its path (R82). -/
def Holds (s : State) (p : Paths) (id : NodeId) : Prop :=
  Path s id.toNat (codeDigits p.len[id.toNat] p.val[id.toNat]) ∧ p.val[id.toNat].toNat < 2 ^ p.len[id.toNat].toNat

/-! ### The sweep (R81, R82) -/

/-- Nodes whose scratch entry has been written when the internal nodes with index `k` and above have been visited. -/
def Reached (s : State) (k : Nat) (id : Nat) : Prop := id = 510 ∨ ∃ j : Fin 255, k ≤ j.val ∧ childOf s id j

/-- The invariant of the sweep: every node reached holds its path, with the depth bounds of R6 and R81. -/
def Swept (s : State) (k : Nat) (p : Paths) : Prop :=
  ∀ id : NodeId, Reached s k id.toNat →
    Holds s p id ∧ p.len[id.toNat].toNat ≤ 255 ∧ (256 ≤ id.toNat → p.len[id.toNat].toNat + id.toNat ≤ 510)

theorem setPath_len (id : NodeId) (len : CodeLen) (val : CodeVal) (p : Paths) (i : NodeId) :
    (setPath id len val p).len[i.toNat] = if id = i then len else p.len[i.toNat] := by
  simp only [setPath, Vector.getElem_set, BitVec.toNat_inj]

theorem setPath_val (id : NodeId) (len : CodeLen) (val : CodeVal) (p : Paths) (i : NodeId) :
    (setPath id len val p).val[i.toNat] = if id = i then val else p.val[i.toNat] := by
  simp only [setPath, Vector.getElem_set, BitVec.toNat_inj]

theorem linkEntry_internal (epoch : Nat) (a : Vector NodeId 255) (k : Fin 255) :
    linkEntry epoch a (256 + k.val) = a[k] := by
  have h : 256 ≤ 256 + k.val ∧ 256 + k.val < 511 := by omega
  simp only [linkEntry, h, dif_pos, and_self, Nat.add_sub_cancel_left, Fin.getElem_fin]

/-- A node below the root is reached through its one parent only. -/
theorem TreeLinks.parent_eq {s : State} (h : TreeLinks s) {id : Nat} {i j : Fin 255} (hi : childOf s id i)
    (hj : childOf s id j) : i = j := by
  have hlt : id < 510 := by
    rcases hi with hi | hi
    · have := h.left_lt i; omega
    · have := h.right_lt i; omega
  obtain ⟨k, _, hk⟩ := h.one_parent id hlt
  rw [hk i hi, hk j hj]

theorem swept_step {s : State} (h : TreeLinks s) (k : Fin 255) {p : Paths} (hp : Swept s (k.val + 1) p) :
    Swept s k (extendPaths (BitVec.ofNat 9 (256 + k.val)) s.nodeL[k] s.nodeR[k] p) := by
  set n : NodeId := BitVec.ofNat 9 (256 + k.val) with hn
  have hnv : n.toNat = 256 + k.val := by rw [hn, BitVec.toNat_ofNat]; exact Nat.mod_eq_of_lt (by omega)
  set l := s.nodeL[k] with hl
  set r := s.nodeR[k] with hr
  have hll : l.toNat < 256 + k.val := h.left_lt k
  have hrl : r.toNat < 256 + k.val := h.right_lt k
  have hlr : l ≠ r := fun e => h.distinct k (congrArg BitVec.toNat e)
  have hln : l ≠ n := fun e => by rw [e, hnv] at hll; omega
  have hrn : r ≠ n := fun e => by rw [e, hnv] at hrl; omega
  -- the node visited holds its path
  have hreach : Reached s (k.val + 1) n.toNat := by
    by_cases hk : k.val = 254
    · left; rw [hnv, hk]
    · right
      obtain ⟨j, hj, _⟩ := h.one_parent n.toNat (by omega)
      refine ⟨j, ?_, hj⟩
      rcases hj with hj | hj
      · have := h.left_lt j; omega
      · have := h.right_lt j; omega
  obtain ⟨⟨hpath, hval⟩, hlen, hdepth⟩ := hp n hreach
  have hdepth := hdepth (by omega)
  have hpath : ∀ v, n.toNat = v → Path s v (codeDigits p.len[n.toNat] p.val[n.toNat]) := by rintro _ rfl; exact hpath
  have hpath := hpath _ hnv
  have hnlen : p.len[n.toNat].toNat < 255 := by omega
  obtain ⟨al, bl, cl⟩ := codeDigits_append p.len[n.toNat] p.val[n.toNat] false hnlen hval
  obtain ⟨ar, br, cr⟩ := codeDigits_append p.len[n.toNat] p.val[n.toNat] true hnlen hval
  have e0 : (BitVec.ofBool false).setWidth 255 = 0#255 := by decide
  have e1 : (BitVec.ofBool true).setWidth 255 = 1#255 := by decide
  rw [e0, BitVec.add_zero] at al bl
  rw [e1] at ar br
  -- the scratch after the visit
  have hlen' : ∀ i : NodeId, (extendPaths n l r p).len[i.toNat] =
      if r = i then p.len[n.toNat] + 1#8 else if l = i then p.len[n.toNat] + 1#8 else p.len[i.toNat] := fun i => by
    unfold extendPaths
    simp only [setPath_len, if_neg hln]
  have hval' : ∀ i : NodeId, (extendPaths n l r p).val[i.toNat] =
      if r = i then (p.val[n.toNat] <<< 1) + 1#255 else if l = i then p.val[n.toNat] <<< 1
      else p.val[i.toNat] := fun i => by
    unfold extendPaths
    simp only [setPath_val, if_neg hln]
  intro id hid
  unfold Holds
  rw [hlen', hval']
  by_cases hir : r = id
  · subst hir
    rw [if_pos rfl, if_pos rfl, ar, cr]
    exact ⟨⟨Path.right hpath, br⟩, by omega, fun _ => by omega⟩
  · rw [if_neg hir, if_neg hir]
    by_cases hil : l = id
    · subst hil
      rw [if_pos rfl, if_pos rfl, al, cl]
      exact ⟨⟨Path.left hpath, bl⟩, by omega, fun _ => by omega⟩
    · rw [if_neg hil, if_neg hil]
      refine hp id ?_
      rcases hid with hid | ⟨j, hj, hc⟩
      · exact .inl hid
      · refine .inr ⟨j, ?_, hc⟩
        by_contra hlt
        have hjk : j = k := Fin.ext (by omega)
        subst hjk
        rcases hc with hc | hc
        · exact hil (BitVec.eq_of_toNat_eq hc)
        · exact hir (BitVec.eq_of_toNat_eq hc)

theorem sweep_spec {s : State} (h : TreeLinks s) : ∀ (k : Nat) (p : Paths), k ≤ 255 → Swept s k p →
    Swept s 0 (sweep s k p) := by
  intro k
  induction k with
  | zero => exact fun p _ hp => hp
  | succ k ih =>
    intro p hk hp
    unfold sweep
    simp only [linkEntry_internal _ _ ⟨k, by omega⟩]
    exact ih _ (by omega) (swept_step h ⟨k, by omega⟩ hp)

theorem swept_start {s : State} (hroot : s.root = 510#9) (p : Paths) :
    Swept s 255 (setPath s.root 0#8 0#255 p) := by
  intro id hid
  have hid' : s.root = id := by
    rcases hid with hid | ⟨j, hj, _⟩
    · rw [hroot]; exact (BitVec.eq_of_toNat_eq hid).symm
    · omega
  unfold Holds
  rw [setPath_len, setPath_val, if_pos hid', if_pos hid', ← hid']
  refine ⟨⟨Path.root, by decide⟩, by decide, fun _ => by rw [hroot]; decide⟩

/-- A Path says nothing but the tree's links and the root. -/
theorem Path.congr {s t : State} (hl : t.nodeL = s.nodeL) (hr : t.nodeR = s.nodeR) (hroot : t.root = s.root) {v : Nat}
    {p : List Bool} (h : Path s v p) : Path t v p := by
  have el : ∀ k, leftChild t k = leftChild s k := fun k => by unfold leftChild; rw [hl]
  have er : ∀ k, rightChild t k = rightChild s k := fun k => by unfold rightChild; rw [hr]
  induction h with
  | root => rw [← hroot]; exact Path.root
  | left _ ih => rw [← el]; exact Path.left ih
  | right _ ih => rw [← er]; exact Path.right ih

/-- DERIVE on a tree with the links of R17 fills the table with the paths of the leaves (R80 to R82). -/
theorem deriveTable_spec {s : State} (h : TreeLinks s) (hroot : s.root = 510#9) : TableDerived (deriveTable s) := by
  have hsw : Swept s 0 (derivePaths s) := by
    unfold derivePaths
    rw [show s.root.toNat - 255 = 255 by rw [hroot]; rfl]
    exact sweep_spec h 255 _ (by omega) (swept_start hroot _)
  have hleaf : ∀ sym : Sym, Holds s (derivePaths s) (sym.setWidth 9) ∧ (sym.setWidth 9 : NodeId).toNat = sym.toNat := by
    intro sym
    have hv : (sym.setWidth 9 : NodeId).toNat = sym.toNat := by
      rw [BitVec.toNat_setWidth]; exact Nat.mod_eq_of_lt (by have := sym.isLt; omega)
    refine ⟨(hsw _ (.inr ?_)).1, hv⟩
    obtain ⟨k, hk, _⟩ := h.one_parent (sym.setWidth 9 : NodeId).toNat (by have := sym.isLt; omega)
    exact ⟨k, by omega, hk⟩
  have hlen : ∀ sym : Sym, symEntry (deriveTable s).codeLen sym = (derivePaths s).len[(sym.setWidth 9 : NodeId).toNat] := by
    intro sym
    simp only [symEntry, deriveTable_codeLen, Vector.getElem_ofFn, (hleaf sym).2]
  have hval : ∀ sym : Sym, symEntry (deriveTable s).codeVal sym = (derivePaths s).val[(sym.setWidth 9 : NodeId).toNat] := by
    intro sym
    simp only [symEntry, deriveTable_codeVal, Vector.getElem_ofFn, (hleaf sym).2]
  refine ⟨deriveTable_codeV s, fun sym => ?_, fun sym => ?_⟩
  · unfold codeOf
    rw [hlen, hval]
    have hp : ∀ v, (sym.setWidth 9 : NodeId).toNat = v → Path s v (codeDigits
        (derivePaths s).len[(sym.setWidth 9 : NodeId).toNat] (derivePaths s).val[(sym.setWidth 9 : NodeId).toNat]) := by
      rintro _ rfl; exact (hleaf sym).1.1
    exact (hp _ (hleaf sym).2).congr (deriveTable_nodeL s) (deriveTable_nodeR s) (deriveTable_root s)
  · rw [hlen, hval]; exact (hleaf sym).1.2

/-! ### Properties of the codes (R83) -/

/-- Every node has at most one path (R80). -/
theorem Path.unique {s : State} (h : TreeLinks s) (hroot : s.root = 510#9) {v : Nat} {p : List Bool} (hp : Path s v p) :
    ∀ {q : List Bool}, Path s v q → p = q := by
  have hnot : ∀ (k : Fin 255), ¬childOf s 510 k := fun k hk => by
    rcases hk with hk | hk
    · have := h.left_lt k; omega
    · have := h.right_lt k; omega
  have hroot' : s.root.toNat = 510 := by rw [hroot]; rfl
  induction hp with
  | root =>
    intro q hq
    rw [hroot'] at hq
    generalize hv : 510 = v at hq
    cases hq with
    | root => rfl
    | left _ => exact absurd (.inl hv.symm) (hnot _)
    | right _ => exact absurd (.inr hv.symm) (hnot _)
  | @left k p _ ih =>
    intro q hq
    generalize hv : leftChild s k = v at hq
    cases hq with
    | root => rw [hroot'] at hv; exact absurd (.inl hv) (hnot k)
    | @left j q hq =>
      have hkj : k = j := h.parent_eq (.inl rfl : childOf s (leftChild s k) k) (.inl hv.symm)
      subst hkj; rw [ih hq]
    | @right j q hq =>
      have hkj : k = j := h.parent_eq (.inl rfl : childOf s (leftChild s k) k) (.inr hv.symm)
      subst hkj; exact absurd hv (h.distinct k)
  | @right k p _ ih =>
    intro q hq
    generalize hv : rightChild s k = v at hq
    cases hq with
    | root => rw [hroot'] at hv; exact absurd (.inr hv) (hnot k)
    | @left j q hq =>
      have hkj : k = j := h.parent_eq (.inr rfl : childOf s (rightChild s k) k) (.inl hv.symm)
      subst hkj; exact absurd hv.symm (h.distinct k)
    | @right j q hq =>
      have hkj : k = j := h.parent_eq (.inr rfl : childOf s (rightChild s k) k) (.inr hv.symm)
      subst hkj; rw [ih hq]

/-- A path leads to one node. -/
theorem Path.node_eq {s : State} {u : Nat} {p : List Bool} (h : Path s u p) : ∀ {v : Nat}, Path s v p → u = v := by
  induction h with
  | root =>
    intro v hv
    generalize hp : ([] : List Bool) = p at hv
    cases hv with
    | root => rfl
    | left _ => simp at hp
    | right _ => simp at hp
  | @left k p _ ih =>
    intro v hv
    generalize hq : p ++ [false] = q at hv
    cases hv with
    | root => simp at hq
    | @left j q hv =>
      obtain ⟨rfl, _⟩ := List.append_inj' hq rfl
      have := ih hv
      have hkj : k = j := Fin.ext (by omega)
      rw [hkj]
    | @right j q hv =>
      obtain ⟨_, hb⟩ := List.append_inj' hq rfl
      cases hb
  | @right k p _ ih =>
    intro v hv
    generalize hq : p ++ [true] = q at hv
    cases hv with
    | root => simp at hq
    | @left j q hv =>
      obtain ⟨_, hb⟩ := List.append_inj' hq rfl
      cases hb
    | @right j q hv =>
      obtain ⟨rfl, _⟩ := List.append_inj' hq rfl
      have := ih hv
      have hkj : k = j := Fin.ext (by omega)
      rw [hkj]

/-- A proper prefix of a path leads to an internal node. -/
theorem Path.prefix {s : State} {v : Nat} {q : List Bool} (h : Path s v q) : ∀ {p : List Bool}, p <+: q → p ≠ q →
    ∃ k : Fin 255, Path s (256 + k) p := by
  induction h with
  | root =>
    intro p hp hne
    exact absurd (List.prefix_nil.1 hp) hne
  | @left k q hq ih =>
    intro p hp hne
    rcases List.prefix_concat_iff.1 hp with rfl | hp
    · exact absurd rfl hne
    · by_cases he : p = q
      · exact ⟨k, he ▸ hq⟩
      · exact ih hp he
  | @right k q hq ih =>
    intro p hp hne
    rcases List.prefix_concat_iff.1 hp with rfl | hp
    · exact absurd rfl hne
    · by_cases he : p = q
      · exact ⟨k, he ▸ hq⟩
      · exact ih hp he

/-- The paths of distinct leaves are not prefixes of one another (R83 point 2). -/
theorem Path.prefix_free {s : State} {a b : Nat} {p q : List Bool} (ha : Path s a p) (hb : Path s b q) (hla : a < 256)
    (hpre : p <+: q) : a = b := by
  by_cases he : p = q
  · subst he; exact ha.node_eq hb
  · obtain ⟨k, hk⟩ := hb.prefix hpre he
    have := ha.node_eq hk
    omega

/-! ### Depths, and the nodes as children (R6, R70 point 5, R83) -/

/-- Depth and id together: a child is one deeper than its parent and has a smaller id (R6, R17). -/
theorem Path.length_add_le {s : State} (h : TreeLinks s) (hroot : s.root = 510#9) {v : Nat} {p : List Bool}
    (hp : Path s v p) : p.length + v ≤ 510 := by
  induction hp with
  | root => rw [hroot]; decide
  | left hp ih => rename_i k p; have := h.left_lt k; rw [List.length_append]; simp only [List.length_singleton]; omega
  | right hp ih => rename_i k p; have := h.right_lt k; rw [List.length_append]; simp only [List.length_singleton]; omega

/-- Every node is reached from the root (R80, R82). -/
theorem Path.exists_of_le {s : State} (h : TreeLinks s) (hroot : s.root = 510#9) :
    ∀ (d id : Nat), id + d = 510 → ∃ p, Path s id p := by
  intro d
  induction d using Nat.strong_induction_on with
  | _ d ih =>
    intro id hid
    by_cases h0 : d = 0
    · have := Path.root (s := s)
      rw [hroot] at this
      exact ⟨[], by rw [show id = 510 by omega]; exact this⟩
    · obtain ⟨k, hk, _⟩ := h.one_parent id (by omega)
      have hlt : id < 256 + k := by
        rcases hk with hk | hk
        · exact hk ▸ h.left_lt k
        · exact hk ▸ h.right_lt k
      obtain ⟨p, hp⟩ := ih (510 - (256 + k)) (by omega) (256 + k) (by omega)
      rcases hk with hk | hk
      · exact ⟨_, hk ▸ hp.left⟩
      · exact ⟨_, hk ▸ hp.right⟩

/-- The children of all internal nodes are all nodes but the root, each once (R70 point 5). -/
theorem TreeLinks.sum_children {s : State} (h : TreeLinks s) (f : Nat → Nat) :
    ∑ k : Fin 255, (f (leftChild s k) + f (rightChild s k)) = ∑ id : Fin 510, f id := by
  have hlt : ∀ (k : Fin 255) (b : Bool), (if b then rightChild s k else leftChild s k) < 510 := by
    intro k b
    have := h.left_lt k; have := h.right_lt k
    split <;> omega
  let g : Fin 255 × Bool → Fin 510 := fun x => ⟨_, hlt x.1 x.2⟩
  have hg : Function.Bijective g := by
    rw [Fintype.bijective_iff_surjective_and_card]
    refine ⟨fun id => ?_, by simp⟩
    obtain ⟨k, hk, _⟩ := h.one_parent id id.isLt
    rcases hk with hk | hk
    · exact ⟨(k, false), Fin.ext (by simpa [g] using hk)⟩
    · exact ⟨(k, true), Fin.ext (by simpa [g] using hk)⟩
  rw [← hg.sum_comp (fun id => f id), Fintype.sum_prod_type]
  refine Finset.sum_congr rfl fun k _ => ?_
  rw [Fintype.sum_bool]
  simp only [g, if_true, Bool.false_eq_true, if_false]
  omega

/-- A code's length and value are determined by its digits (R20). -/
theorem codeDigits_inj {len len' : CodeLen} {val val' : CodeVal} (h : codeDigits len val = codeDigits len' val')
    (hv : val.toNat < 2 ^ len.toNat) (hv' : val'.toNat < 2 ^ len'.toNat) : len = len' ∧ val = val' := by
  have hlen : len = len' := BitVec.eq_of_toNat_eq (by
    have := congrArg List.length h
    simpa only [codeDigits, List.length_map, List.length_range] using this)
  subst hlen
  refine ⟨rfl, BitVec.eq_of_getLsbD_eq fun i _ => ?_⟩
  by_cases hi : i < len.toNat
  · have hk : len.toNat - 1 - (len.toNat - 1 - i) = i := by omega
    have := congrArg (fun l => l[len.toNat - 1 - i]?) h
    simp only [codeDigits, List.getElem?_map, List.getElem?_range (show len.toNat - 1 - i < len.toNat by omega),
      Option.map_some, Option.some.injEq, hk] at this
    exact this
  · have hle : 2 ^ len.toNat ≤ 2 ^ i := Nat.pow_le_pow_right (by omega) (by omega)
    simp only [BitVec.getLsbD]
    rw [Nat.testBit_lt_two_pow (hv.trans_le hle), Nat.testBit_lt_two_pow (hv'.trans_le hle)]

end Sys2Proof.Machine
end

