-- ==== Sys2Proof/Laws/Frequency.lean ====
section
/-! SUPPORT. The frequency table's total under COUNT (`spec/10_state.md` rule R14). -/

namespace Sys2Proof.Machine

/-- No frequency exceeds the total. -/
theorem freq_le_total (s : State) (sym : Sym) : s.freq[sym.toNat].toNat ≤ freqTotal s := by
  rw [freqTotal_eq_sum]
  exact Finset.single_le_sum (f := fun i : Fin 256 => s.freq[i].toNat) (fun _ _ => Nat.zero_le _)
    (Finset.mem_univ (⟨sym.toNat, sym.isLt⟩ : Fin 256))

/-- COUNT adds one to the total when its addition does not wrap. -/
theorem freqTotal_countSymbol (sym : Sym) (s : State) (h : s.freq[sym.toNat].toNat + 1 < 2 ^ 32) :
    freqTotal (countSymbol sym s) = freqTotal s + 1 := by
  have hi : sym.toNat < 256 := sym.isLt
  set i : Fin 256 := ⟨sym.toNat, hi⟩ with hidef
  have hother : ∀ j ∈ Finset.univ.erase i, (countSymbol sym s).freq[j].toNat = s.freq[j].toNat := by
    intro j hj
    have : sym.toNat ≠ j.val := fun e => (Finset.ne_of_mem_erase hj) (Fin.ext e.symm)
    simp only [countSymbol_freq, setSymEntry, Fin.getElem_fin, Vector.getElem_set, if_neg this]
  have hself : (countSymbol sym s).freq[i].toNat = s.freq[i].toNat + 1 := by
    simp only [countSymbol_freq, setSymEntry, symEntry, hidef, Fin.getElem_fin, Vector.getElem_set_self,
      BitVec.toNat_add, BitVec.toNat_ofNat]
    omega
  have h1 := Finset.add_sum_erase Finset.univ (fun j : Fin 256 => (countSymbol sym s).freq[j].toNat) (Finset.mem_univ i)
  have h2 := Finset.add_sum_erase Finset.univ (fun j : Fin 256 => s.freq[j].toNat) (Finset.mem_univ i)
  rw [freqTotal_eq_sum, freqTotal_eq_sum, ← h1, ← h2, Finset.sum_congr rfl hother]
  simp only [hself]
  omega

end Sys2Proof.Machine
end

