-- ==== Sys2Proof/Laws/Ops.lean ====
section
/-! SUPPORT. What the shared operations do, each said once (`spec/60_exceptions.md` rules R113, R116). -/

namespace Sys2Proof.Machine

/-- In phase FAULT, `raise` is the refusal. -/
@[simp] theorem raise_fault (e : Err) {s : State} (h : s.phase = .fault) : raise e s = refuse s := by
  unfold raise; rw [if_pos h]

/-- Outside phase FAULT, `raise` writes ERR and PHASE and answers (1, STATUS) (R113 point 1). -/
theorem raise_eq (e : Err) {s : State} (h : s.phase ≠ .fault) :
    raise e s = respond true (statusWord { s with err := e, phase := .fault }) { s with err := e, phase := .fault } := by
  unfold raise; rw [if_neg h]

/-- The three outcomes of the phase test (R116). -/
theorem acceptIn_cases (phases : List Phase) (command : State → State) (s : State) :
    (s.phase ∈ phases ∧ acceptIn phases command s = command s) ∨
    (s.phase ∉ phases ∧ s.phase = .fault ∧ acceptIn phases command s = refuse s) ∨
    (s.phase ∉ phases ∧ s.phase ≠ .fault ∧ acceptIn phases command s = raise .seq s) := by
  unfold acceptIn
  by_cases h : s.phase ∈ phases
  · exact .inl ⟨h, if_pos h⟩
  · by_cases hf : s.phase = .fault
    · exact .inr (.inl ⟨h, hf, by rw [if_neg h, if_pos hf]⟩)
    · exact .inr (.inr ⟨h, hf, by rw [if_neg h, if_neg hf]⟩)

/-- An accepted command executes. -/
theorem acceptIn_of_mem {phases : List Phase} {s : State} (h : s.phase ∈ phases) (command : State → State) :
    acceptIn phases command s = command s := if_pos h

/-- `illegalWord` raises ERR_ILLEGAL, and `raise` is itself the refusal in phase FAULT (R55, R56). -/
theorem illegalWord_eq (s : State) : illegalWord s = raise .illegal s := by
  unfold illegalWord
  by_cases h : s.phase = .fault
  · rw [if_pos h, raise_fault _ h]
  · rw [if_neg h]

/-- Every command answers a next state (R9). -/
theorem exec_next (i : Instr) (s : State) : ∃ t, exec i s = .next t := by
  cases i with
  | rdreg reg => unfold exec execRdreg; simp only []; split <;> exact ⟨_, rfl⟩
  | rdnodew id => unfold exec execRdnodew; simp only []; split <;> exact ⟨_, rfl⟩
  | rdnodel id => unfold exec execRdnodel; simp only []; split <;> exact ⟨_, rfl⟩
  | _ => exact ⟨_, rfl⟩

/-- The step, by what the host presents next (R116, R127, R129). -/
theorem step_nil {s : State} (h : s.hostIn = []) : step s = .next s := by
  unfold step takeInput; rw [h]

theorem step_rst {s : State} {rest : List HostInput} (h : s.hostIn = .rst :: rest) :
    step s = .next (applyReset { s with hostIn := rest }) := by
  unfold step takeInput; rw [h]

theorem step_command {s : State} {rest : List HostInput} {w : CmdWord} {i : Instr} (h : s.hostIn = .word w :: rest)
    (hd : decode w = .command i) : step s = exec i { s with hostIn := rest } := by
  unfold step takeInput; rw [h]; simp only [hd]

theorem step_illegal {s : State} {rest : List HostInput} {w : CmdWord} {why : Illegal} (h : s.hostIn = .word w :: rest)
    (hd : decode w = .illegal why) : step s = .next (illegalWord { s with hostIn := rest }) := by
  unfold step takeInput; rw [h]; simp only [hd]

/-- A run takes its steps one by one. -/
theorem run_succ {n : Nat} {M : Host.Core} {s t : M.State} (h : M.step s = .next t) : M.run (n + 1) s = M.run n t := by
  simp only [Host.Core.run, h]

end Sys2Proof.Machine
end

