-- ==== Sys2Proof/Laws/Packer.lean ====
section
/-! SUPPORT. What the packer's procedures do (`spec/44_bit_packer.md` rules R91, R92, R94): ShiftBit appends one digit to
the digit sequence `bitBuffer`, and bytes leave in groups of eight. -/

namespace Sys2Proof.Machine

/-- The part of the state ShiftBit may change, and how the three records of an emitted byte go together (R91). -/
structure Emits (s t : State) (bytes : List Byte) : Prop where
  frame : t = { s with acc := t.acc, accN := t.accN, out := t.out, outlen := t.outlen, portOut := t.portOut }
  out : t.out = s.out ++ bytes
  outlen : t.outlen = s.outlen + BitVec.ofNat 40 bytes.length
  portOut : t.portOut = s.portOut ++ bytes.map .byte

theorem Emits.refl (s : State) : Emits s s [] := ⟨rfl, by simp, by simp, by simp⟩

theorem Emits.trans {s t u : State} {b c : List Byte} (h : Emits s t b) (h' : Emits t u c) : Emits s u (b ++ c) where
  frame := by
    have h1 := h.frame; have h2 := h'.frame
    generalize u.acc = a, u.accN = n, u.out = o, u.outlen = l, u.portOut = p at h2
    rw [h2, h1]
  out := by rw [h'.out, h.out, List.append_assoc]
  outlen := by rw [h'.outlen, h.outlen, List.length_append, BitVec.add_assoc, BitVec.ofNat_add]
  portOut := by rw [h'.portOut, h.portOut, List.map_append, List.append_assoc]

/-- ACC after the shift, before a full byte leaves it. -/
def shifted (b : Bool) (acc : BitVec 8) : BitVec 8 := (acc <<< 1) + (BitVec.ofBool b).setWidth 8

theorem shifted_eq_or (b : Bool) (acc : BitVec 8) :
    shifted b acc = (acc <<< 1) ||| (BitVec.ofBool b).setWidth 8 := by
  revert acc; revert b; decide +kernel

theorem getLsbD_shifted (b : Bool) (acc : BitVec 8) (i : Nat) :
    (shifted b acc).getLsbD i = if i = 0 then b else decide (i < 8) && acc.getLsbD (i - 1) := by
  rw [shifted_eq_or, BitVec.getLsbD_or, BitVec.getLsbD_shiftLeft, BitVec.getLsbD_setWidth]
  by_cases h : i = 0
  · subst h; simp
  · have : 1 ≤ i := by omega
    simp [h, BitVec.getLsbD_ofBool]

theorem shiftBit_emit (b : Bool) (s : State) (h : s.accN.toNat = 7) :
    shiftBit b s = { emit (shifted b s.acc) s with acc := 0#8, accN := 0#3 } := by
  unfold shiftBit shifted
  simp only [h, if_true]

theorem shiftBit_keep (b : Bool) (s : State) (h : s.accN.toNat < 7) :
    shiftBit b s = { s with acc := shifted b s.acc, accN := BitVec.ofNat 3 (s.accN.toNat + 1) } := by
  unfold shiftBit shifted
  have : ¬s.accN.toNat + 1 = 8 := by omega
  simp only [this, if_false]

/-- The low `n` bits of a register, highest first. -/
def lowDigits {w : Nat} (n : Nat) (v : BitVec w) : List Bool := (List.range n).map fun k => v.getLsbD (n - 1 - k)

theorem lowDigits_shifted (b : Bool) (acc : BitVec 8) (n : Nat) (h : n < 8) :
    lowDigits (n + 1) (shifted b acc) = lowDigits n acc ++ [b] := by
  unfold lowDigits
  rw [List.range_succ, List.map_append, List.map_singleton]
  congr 1
  · apply List.map_congr_left
    intro k hk
    rw [List.mem_range] at hk
    rw [getLsbD_shifted, if_neg (by omega)]
    have h1 : n + 1 - 1 - k < 8 := by omega
    have h2 : n + 1 - 1 - k - 1 = n - 1 - k := by omega
    rw [decide_eq_true h1, h2, Bool.true_and]
  · rw [getLsbD_shifted]; simp

theorem shiftBit_accN (b : Bool) (s : State) : (shiftBit b s).accN.toNat = (s.accN.toNat + 1) % 8 := by
  have := s.accN.isLt
  by_cases h : s.accN.toNat = 7
  · rw [shiftBit_emit b s h]; simp [h]
  · rw [shiftBit_keep b s (by omega)]; simp

/-- ShiftBit emits a byte exactly when it is the eighth digit (R92). -/
theorem shiftBit_emits (b : Bool) (s : State) :
    ∃ bytes, Emits s (shiftBit b s) bytes ∧ bytes.length = (s.accN.toNat + 1) / 8 := by
  have := s.accN.isLt
  by_cases h : s.accN.toNat = 7
  · exact ⟨[shifted b s.acc], by rw [shiftBit_emit b s h]; exact ⟨rfl, rfl, rfl, rfl⟩, by simp [h]⟩
  · refine ⟨[], ?_, ?_⟩
    · rw [shiftBit_keep b s (by omega)]; exact ⟨rfl, by simp, by simp, by simp⟩
    · have : s.accN.toNat < 7 := by omega
      simp only [List.length_nil]; omega

/-- ShiftBit appends its digit to the digit sequence (R92, R94). -/
theorem shiftBit_bitBuffer (b : Bool) (s : State) : bitBuffer (shiftBit b s) = bitBuffer s ++ [b] := by
  have := s.accN.isLt
  by_cases h : s.accN.toNat = 7
  · rw [shiftBit_emit b s h]
    have h8 : byteDigits (shifted b s.acc) = lowDigits 7 s.acc ++ [b] := lowDigits_shifted b s.acc 7 (by omega)
    simp only [bitBuffer, pendingDigits, emit_out, List.flatMap_append, List.flatMap_singleton, h8, h]
    simp [lowDigits]
  · have h7 : s.accN.toNat < 7 := by omega
    rw [shiftBit_keep b s h7]
    have hn : (BitVec.ofNat 3 (s.accN.toNat + 1)).toNat = s.accN.toNat + 1 := by
      rw [BitVec.toNat_ofNat]; omega
    simp only [bitBuffer, pendingDigits, hn]
    rw [List.append_assoc]
    exact congrArg _ (lowDigits_shifted b s.acc _ (by omega))

/-- ACC holds its pending digits and nothing above them (R21). -/
theorem shiftBit_acc_lt (b : Bool) (s : State) (h : s.acc.toNat < 2 ^ s.accN.toNat) :
    (shiftBit b s).acc.toNat < 2 ^ (shiftBit b s).accN.toNat := by
  have := s.accN.isLt
  by_cases h7 : s.accN.toNat = 7
  · rw [shiftBit_emit b s h7]; simp
  · rw [shiftBit_keep b s (by omega)]
    have hn : (BitVec.ofNat 3 (s.accN.toNat + 1)).toNat = s.accN.toNat + 1 := by
      rw [BitVec.toNat_ofNat]; omega
    simp only [hn]
    have hb : (BitVec.ofBool b).toNat ≤ 1 := by cases b <;> decide
    have h64 : 2 ^ s.accN.toNat ≤ 2 ^ 6 := Nat.pow_le_pow_right (by omega) (by omega)
    have hsh : (shifted b s.acc).toNat = 2 * s.acc.toNat + (BitVec.ofBool b).toNat := by
      unfold shifted
      rw [BitVec.toNat_add, BitVec.toNat_shiftLeft, BitVec.toNat_setWidth, Nat.shiftLeft_eq]
      omega
    rw [hsh, Nat.pow_succ]
    omega

/-- What a list of digits does, one ShiftBit each (R92, R94). -/
theorem shiftBits_spec (digits : List Bool) : ∀ s : State,
    bitBuffer (shiftBits digits s) = bitBuffer s ++ digits ∧
      (shiftBits digits s).accN.toNat = (s.accN.toNat + digits.length) % 8 ∧
      (s.acc.toNat < 2 ^ s.accN.toNat →
        (shiftBits digits s).acc.toNat < 2 ^ (shiftBits digits s).accN.toNat) ∧
      ∃ bytes, Emits s (shiftBits digits s) bytes ∧ bytes.length = (s.accN.toNat + digits.length) / 8 := by
  induction digits with
  | nil =>
    intro s
    have := s.accN.isLt
    refine ⟨by simp [shiftBits], ?_, fun h => h, [], Emits.refl s, ?_⟩
    · simp only [shiftBits, List.foldl_nil, List.length_nil]; omega
    · simp only [List.length_nil]; omega
  | cons b ds ih =>
    intro s
    obtain ⟨h1, h2, h3, bytes, h4, h5⟩ := ih (shiftBit b s)
    obtain ⟨bytes', h4', h5'⟩ := shiftBit_emits b s
    have e : shiftBits (b :: ds) s = shiftBits ds (shiftBit b s) := rfl
    rw [e]
    refine ⟨?_, ?_, fun h => h3 (shiftBit_acc_lt b s h), bytes' ++ bytes, h4'.trans h4, ?_⟩
    · rw [h1, shiftBit_bitBuffer, List.append_assoc]; rfl
    · rw [h2, shiftBit_accN, List.length_cons]; omega
    · rw [List.length_append, h5, h5', shiftBit_accN, List.length_cons]; omega

theorem codeDigits_length (len : CodeLen) (val : CodeVal) : (codeDigits len val).length = len.toNat := by
  simp [codeDigits]

end Sys2Proof.Machine
end

