-- ==== Sys2Proof/Laws/Commands.lean ====
section
/-! SUPPORT. What each command answers, by phase: one equation per outcome of `exec`, so that no later proof unfolds a
meaning; and what the bodies of PACK and FINISH do as a whole (`spec/44_bit_packer.md` rules R93 to R95). -/

namespace Sys2Proof.Machine

/-! ### Out of phase (R106, R116) -/

/-- A command whose phase test fails: refused in FAULT, ERR_SEQ elsewhere; both are `raise`. -/
theorem acceptIn_of_not_mem {phases : List Phase} {s : State} (h : s.phase ∉ phases) (command : State → State) :
    acceptIn phases command s = raise .seq s := by
  unfold acceptIn
  rw [if_neg h]
  split
  · rename_i hf; rw [raise_fault _ hf]
  · rfl

/-! ### Each command -/

theorem exec_clear (s : State) : exec .clear s = .next (respondStatus (clearState s)) := by
  show Host.Outcome.next _ = _
  rw [acceptIn_of_mem (by cases s.phase <;> decide)]

theorem exec_abort (s : State) : exec .abort s = .next (raise .io s) := by
  show Host.Outcome.next _ = _
  by_cases h : s.phase = .fault
  · rw [acceptIn_of_not_mem (by rw [h]; decide), raise_fault _ h, raise_fault _ h]
  · rw [acceptIn_of_mem (by cases hp : s.phase <;> simp_all)]

theorem exec_rdreg {reg : BitVec 8} (h : reg.toNat ≤ 10) (s : State) :
    exec (.rdreg reg) s = .next (respond false (registerValue s reg) s) := by
  show execRdreg reg s = _
  unfold execRdreg
  rw [if_pos h, acceptIn_of_mem (by cases s.phase <;> decide)]

theorem exec_count {s : State} (h : s.phase = .count) (sym : Sym) :
    exec (.count sym) s = .next (if s.inlen = maxLen then raise .overflow s else respondStatus (countSymbol sym s)) := by
  show Host.Outcome.next _ = _
  rw [acceptIn_of_mem (by rw [h]; decide)]

theorem exec_count_out {s : State} (h : s.phase ≠ .count) (sym : Sym) : exec (.count sym) s = .next (raise .seq s) := by
  show Host.Outcome.next _ = _
  rw [acceptIn_of_not_mem (by simpa using h)]

theorem exec_rdfreq {s : State} (h : s.phase ≠ .fault) (sym : Sym) :
    exec (.rdfreq sym) s = .next (respond false (symEntry s.freq sym) s) := by
  show Host.Outcome.next _ = _
  rw [acceptIn_of_mem (by cases hp : s.phase <;> simp_all)]

theorem exec_rdfreq_out {s : State} (h : s.phase = .fault) (sym : Sym) :
    exec (.rdfreq sym) s = .next (raise .seq s) := by
  show Host.Outcome.next _ = _
  rw [acceptIn_of_not_mem (by rw [h]; decide)]

theorem exec_build {s : State} (h : s.phase = .count) : exec .build s = .next (respondStatus (buildTree s)) := by
  show Host.Outcome.next _ = _
  rw [acceptIn_of_mem (by rw [h]; decide)]

theorem exec_build_out {s : State} (h : s.phase ≠ .count) : exec .build s = .next (raise .seq s) := by
  show Host.Outcome.next _ = _
  rw [acceptIn_of_not_mem (by simpa using h)]

theorem exec_rdnodew {s : State} (h : treeReadable s.phase) {id : NodeId} (hid : id.toNat < 511) :
    exec (.rdnodew id) s = .next (respond false s.nodeW[id.toNat] s) := by
  show execRdnodew id s = _
  unfold execRdnodew
  rw [dif_pos hid, acceptIn_of_mem (by simpa using h)]

theorem exec_rdnodew_out {s : State} (h : ¬treeReadable s.phase) {id : NodeId} (hid : id.toNat < 511) :
    exec (.rdnodew id) s = .next (raise .seq s) := by
  show execRdnodew id s = _
  unfold execRdnodew
  rw [dif_pos hid, acceptIn_of_not_mem (by simpa using h)]

theorem exec_rdnodel {s : State} (h : treeReadable s.phase) {id : NodeId} (hid : id.toNat < 511) :
    exec (.rdnodel id) s = .next (respond false (nodeLinkWord s id hid) s) := by
  show execRdnodel id s = _
  unfold execRdnodel
  rw [dif_pos hid, acceptIn_of_mem (by simpa using h)]

theorem exec_rdnodel_out {s : State} (h : ¬treeReadable s.phase) {id : NodeId} (hid : id.toNat < 511) :
    exec (.rdnodel id) s = .next (raise .seq s) := by
  show execRdnodel id s = _
  unfold execRdnodel
  rw [dif_pos hid, acceptIn_of_not_mem (by simpa using h)]

theorem exec_derive {s : State} (h : s.phase = .built) :
    exec .derive s = .next (if s.root.toNat < 256 then raise .degenerate s else respondStatus (deriveTable s)) := by
  show Host.Outcome.next _ = _
  rw [acceptIn_of_mem (by rw [h]; decide)]

theorem exec_derive_out {s : State} (h : s.phase ≠ .built) : exec .derive s = .next (raise .seq s) := by
  show Host.Outcome.next _ = _
  rw [acceptIn_of_not_mem (by simpa using h)]

theorem exec_rdclen {s : State} (h : tableReadable s.phase) (sym : Sym) :
    exec (.rdclen sym) s = .next (respond false ((symEntry s.codeLen sym).setWidth 32) s) := by
  show Host.Outcome.next _ = _
  rw [acceptIn_of_mem (by simpa using h)]

theorem exec_rdclen_out {s : State} (h : ¬tableReadable s.phase) (sym : Sym) :
    exec (.rdclen sym) s = .next (raise .seq s) := by
  show Host.Outcome.next _ = _
  rw [acceptIn_of_not_mem (by simpa using h)]

theorem exec_rdcode {s : State} (h : tableReadable s.phase) (sym : Sym) (w : BitVec 3) :
    exec (.rdcode sym w) s = .next (respond false (codeSlice (symEntry s.codeVal sym) w) s) := by
  show Host.Outcome.next _ = _
  rw [acceptIn_of_mem (by simpa using h)]

theorem exec_rdcode_out {s : State} (h : ¬tableReadable s.phase) (sym : Sym) (w : BitVec 3) :
    exec (.rdcode sym w) s = .next (raise .seq s) := by
  show Host.Outcome.next _ = _
  rw [acceptIn_of_not_mem (by simpa using h)]

theorem exec_pack {s : State} (h : s.phase = .pack) (sym : Sym) :
    exec (.pack sym) s = .next
      (if symEntry s.codeV sym = false then raise .noCode s
      else if s.pklen = s.inlen then raise .pass s
      else respondStatus (packSymbol sym s)) := by
  show Host.Outcome.next _ = _
  rw [acceptIn_of_mem (by rw [h]; decide)]

theorem exec_pack_out {s : State} (h : s.phase ≠ .pack) (sym : Sym) : exec (.pack sym) s = .next (raise .seq s) := by
  show Host.Outcome.next _ = _
  rw [acceptIn_of_not_mem (by simpa using h)]

theorem exec_finish {s : State} (h : s.phase = .pack) :
    exec .finish s = .next (if s.pklen ≠ s.inlen then raise .pass s else respondStatus (padLastByte s)) := by
  show Host.Outcome.next _ = _
  rw [acceptIn_of_mem (by rw [h]; decide)]

theorem exec_finish_out {s : State} (h : s.phase ≠ .pack) : exec .finish s = .next (raise .seq s) := by
  show Host.Outcome.next _ = _
  rw [acceptIn_of_not_mem (by simpa using h)]

/-! ### The bodies of PACK and FINISH -/

theorem packSymbol_eq (sym : Sym) (s : State) :
    packSymbol sym s = { shiftBits (codeDigits (symEntry s.codeLen sym) (symEntry s.codeVal sym)) s with
      pklen := (shiftBits (codeDigits (symEntry s.codeLen sym) (symEntry s.codeVal sym)) s).pklen + 1#32,
      bitcnt := (shiftBits (codeDigits (symEntry s.codeLen sym) (symEntry s.codeVal sym)) s).bitcnt +
        (symEntry s.codeLen sym).setWidth 40 } := rfl

/-- The body of PACK (R93, R94). -/
theorem packSymbol_spec (sym : Sym) (s : State) :
    ∃ bytes, bitBuffer (packSymbol sym s) = bitBuffer s ++ codeOf s sym ∧
      bytes.length = (s.accN.toNat + (symEntry s.codeLen sym).toNat) / 8 ∧
      (packSymbol sym s).accN.toNat = (s.accN.toNat + (symEntry s.codeLen sym).toNat) % 8 ∧
      (s.acc.toNat < 2 ^ s.accN.toNat → (packSymbol sym s).acc.toNat < 2 ^ (packSymbol sym s).accN.toNat) ∧
      packSymbol sym s = { s with
        acc := (packSymbol sym s).acc, accN := (packSymbol sym s).accN, pklen := s.pklen + 1#32,
        bitcnt := s.bitcnt + (symEntry s.codeLen sym).setWidth 40, out := s.out ++ bytes,
        outlen := s.outlen + BitVec.ofNat 40 bytes.length, portOut := s.portOut ++ bytes.map .byte } := by
  obtain ⟨h1, h2, h3, bytes, h4, h5⟩ := shiftBits_spec (codeDigits (symEntry s.codeLen sym) (symEntry s.codeVal sym)) s
  rw [codeDigits_length] at h2 h5
  refine ⟨bytes, h1, h5, h2, h3, ?_⟩
  rw [packSymbol_eq]
  generalize shiftBits (codeDigits (symEntry s.codeLen sym) (symEntry s.codeVal sym)) s = t at *
  have hf := h4.frame
  have ho := h4.out; have hl := h4.outlen; have hp := h4.portOut
  rw [ho, hl, hp] at hf
  generalize t.acc = a, t.accN = n at hf
  subst hf
  rfl

@[simp] theorem packSymbol_phase (sym : Sym) (s : State) : (packSymbol sym s).phase = s.phase := by
  obtain ⟨_, _, _, _, _, h⟩ := packSymbol_spec sym s; rw [h]
@[simp] theorem packSymbol_err (sym : Sym) (s : State) : (packSymbol sym s).err = s.err := by
  obtain ⟨_, _, _, _, _, h⟩ := packSymbol_spec sym s; rw [h]
@[simp] theorem packSymbol_inlen (sym : Sym) (s : State) : (packSymbol sym s).inlen = s.inlen := by
  obtain ⟨_, _, _, _, _, h⟩ := packSymbol_spec sym s; rw [h]
@[simp] theorem packSymbol_pklen (sym : Sym) (s : State) : (packSymbol sym s).pklen = s.pklen + 1#32 := by
  obtain ⟨_, _, _, _, _, h⟩ := packSymbol_spec sym s; rw [h]
@[simp] theorem packSymbol_bitcnt (sym : Sym) (s : State) :
    (packSymbol sym s).bitcnt = s.bitcnt + (symEntry s.codeLen sym).setWidth 40 := by
  obtain ⟨_, _, _, _, _, h⟩ := packSymbol_spec sym s; rw [h]

/-- The body of FINISH with nothing pending (R95). -/
theorem padLastByte_zero {s : State} (h : s.accN = 0#3) : padLastByte s = { s with padn := 0#3, phase := .done } := by
  unfold padLastByte
  rw [if_pos h]

theorem shifted_false (acc : BitVec 8) : shifted false acc = acc <<< 1 := by
  simp [shifted]

/-- Zero digits up to the end of the byte: the pending digits leave in its high bits (R95, R96). -/
theorem shiftBits_zeros (p : Nat) : ∀ s : State, 1 ≤ p → s.accN.toNat + p = 8 →
    shiftBits (List.replicate p false) s = { emit (s.acc <<< p) s with acc := 0#8, accN := 0#3 } := by
  induction p with
  | zero => intro s h; omega
  | succ p ih =>
    intro s _ h
    show shiftBits (List.replicate p false) (shiftBit false s) = _
    by_cases hp : p = 0
    · subst hp
      rw [shiftBit_emit false s (by omega), shifted_false]
      rfl
    · rw [shiftBit_keep false s (by omega), shifted_false, ih _ (by omega)]
      · simp only [emit, ← BitVec.shiftLeft_add, Nat.add_comm 1 p]
      · simp only [BitVec.toNat_ofNat]; omega

@[simp] theorem padLastByte_phase (s : State) : (padLastByte s).phase = .done := by
  unfold padLastByte; split <;> rfl

/-- The body of FINISH with digits pending (R95, R96). -/
theorem padLastByte_pending {s : State} (h : s.accN ≠ 0#3) :
    padLastByte s = { s with
        acc := 0#8, accN := 0#3, padn := BitVec.ofNat 3 (8 - s.accN.toNat), phase := .done,
        out := s.out ++ [s.acc <<< (8 - s.accN.toNat)], outlen := s.outlen + 1#40,
        portOut := s.portOut ++ [.byte (s.acc <<< (8 - s.accN.toNat))] } ∧
      bitBuffer (padLastByte s) = bitBuffer s ++ List.replicate (8 - s.accN.toNat) false := by
  have hn : s.accN.toNat ≠ 0 := fun e => h (BitVec.eq_of_toNat_eq e)
  have hlt := s.accN.isLt
  have hz := shiftBits_zeros (8 - s.accN.toNat) s (by omega) (by omega)
  have hb := (shiftBits_spec (List.replicate (8 - s.accN.toNat) false) s).1
  have e : padLastByte s = { shiftBits (List.replicate (8 - s.accN.toNat) false) s with
      padn := BitVec.ofNat 3 (8 - s.accN.toNat), phase := .done } := by
    unfold padLastByte
    rw [if_neg h]
  refine ⟨?_, ?_⟩
  · rw [e, hz]; rfl
  · rw [← hb, e]; rfl

end Sys2Proof.Machine
end

