-- ==== Sys2Proof/Laws/Invariant.lean ====
section
/-! SUPPORT. The invariants of `spec/10_state.md` rule R25: what they look at, and that the bodies of the commands lead from
one line of the table to the next. -/

namespace Sys2Proof.Machine

/-! ### What the invariants look at -/

/-- `t` is `s` but for the fields no invariant looks at: PHASE, ERR, the ports and the counter of free values. -/
abbrev SameStage (s t : State) : Prop :=
  t = { s with phase := t.phase, err := t.err, hostIn := t.hostIn, portOut := t.portOut, draws := t.draws }

theorem TreeLinks.congr {s t : State} (h : TreeLinks s) (hl : t.nodeL = s.nodeL) (hr : t.nodeR = s.nodeR) :
    TreeLinks t := by
  have el : ∀ k, leftChild t k = leftChild s k := fun k => by unfold leftChild; rw [hl]
  have er : ∀ k, rightChild t k = rightChild s k := fun k => by unfold rightChild; rw [hr]
  refine ⟨?_, ?_, ?_, ?_⟩ <;> simp only [childOf, el, er]
  · exact h.left_lt
  · exact h.right_lt
  · exact h.distinct
  · exact h.one_parent

theorem TreeWeights.congr {s t : State} (h : TreeWeights s) (hl : t.nodeL = s.nodeL) (hr : t.nodeR = s.nodeR)
    (hw : t.nodeW = s.nodeW) (hf : t.freq = s.freq) (hi : t.inlen = s.inlen) : TreeWeights t := by
  have el : ∀ k, leftChild t k = leftChild s k := fun k => by unfold leftChild; rw [hl]
  have er : ∀ k, rightChild t k = rightChild s k := fun k => by unfold rightChild; rw [hr]
  have ew : ∀ id, weight t id = weight s id := fun id => by unfold weight; rw [hw]
  refine ⟨?_, ?_, ?_⟩ <;> simp only [el, er, ew, hf, hi]
  · exact h.leaf
  · exact h.inner
  · exact h.root

theorem TreeBuilt.congr {s t : State} (h : TreeBuilt s) (hl : t.nodeL = s.nodeL) (hr : t.nodeR = s.nodeR)
    (hw : t.nodeW = s.nodeW) (hf : t.freq = s.freq) (hi : t.inlen = s.inlen) (hq : t.inq = s.inq)
    (hc : t.qcount = s.qcount) (hn : t.nextid = s.nextid) (hroot : t.root = s.root) : TreeBuilt t where
  links := h.links.congr hl hr
  weights := h.weights.congr hl hr hw hf hi
  inq := by rw [hq]; exact h.inq
  qcount := hc.trans h.qcount
  nextid := hn.trans h.nextid
  root := hroot.trans h.root

theorem TableDerived.congr {s t : State} (h : TableDerived s) (hl : t.nodeL = s.nodeL) (hr : t.nodeR = s.nodeR)
    (hroot : t.root = s.root) (hv : t.codeV = s.codeV) (hlen : t.codeLen = s.codeLen) (hval : t.codeVal = s.codeVal) :
    TableDerived t where
  valid := hv.trans h.valid
  path := fun sym => by
    have e : codeOf t sym = codeOf s sym := by unfold codeOf; rw [hlen, hval]
    rw [e]; exact Path.congr hl hr hroot (h.path sym)
  fits := by rw [hlen, hval]; exact h.fits

theorem StageInv.congr {p : Phase} {s t : State} (h : StageInv p s) (e : SameStage s t) : StageInv p t := by
  unfold SameStage at e
  generalize t.phase = a, t.err = b, t.hostIn = c, t.portOut = d, t.draws = f at e
  subst e
  cases p with
  | count =>
    obtain ⟨x, ⟨a1, a2, a3, a4⟩, y, ⟨b1, b2, b3, b4, b5, b6, b7⟩⟩ := h
    exact ⟨x, ⟨a1, a2, a3, a4⟩, y, ⟨b1, b2, b3, b4, b5, b6, b7⟩⟩
  | built =>
    obtain ⟨x, y, z, ⟨b1, b2, b3, b4, b5, b6, b7⟩⟩ := h
    exact ⟨x, y.congr rfl rfl rfl rfl rfl rfl rfl rfl rfl, z, ⟨b1, b2, b3, b4, b5, b6, b7⟩⟩
  | pack =>
    obtain ⟨x, y, z, ⟨b1, b2, b3, b4, b5, b6, b7, b8⟩⟩ := h
    exact ⟨x, y.congr rfl rfl rfl rfl rfl rfl rfl rfl rfl, z.congr rfl rfl rfl rfl rfl rfl,
      ⟨b1, b2, b3, b4, b5, b6, b7, b8⟩⟩
  | done =>
    obtain ⟨x, y, z, ⟨b1, b2, b3, b4, b5, b6, b7, b8⟩⟩ := h
    exact ⟨x, y.congr rfl rfl rfl rfl rfl rfl rfl rfl rfl, z.congr rfl rfl rfl rfl rfl rfl,
      ⟨b1, b2, b3, b4, b5, b6, b7, b8⟩⟩
  | fault => exact h.elim

/-- In a phase other than FAULT the invariant is that phase's line. -/
theorem Inv.stage {s : State} (h : Inv s) {p : Phase} (hp : s.phase = p) (hf : p ≠ .fault) :
    s.err = .none ∧ StageInv p s := by
  subst hp
  rcases h with ⟨_, b, c⟩ | ⟨a, _⟩
  · exact ⟨b, c⟩
  · exact absurd a hf

theorem Inv.of_stage {s : State} {p : Phase} (hp : s.phase = p) (hf : p ≠ .fault) (he : s.err = .none)
    (h : StageInv p s) : Inv s := .inl ⟨by rw [hp]; exact hf, he, by rw [hp]; exact h⟩

/-- The invariant looks at neither port and not at the counter of free values. -/
theorem Inv.congr {s t : State} (h : Inv s) (e : t = { s with hostIn := t.hostIn, portOut := t.portOut, draws := t.draws }) :
    Inv t := by
  have hp : t.phase = s.phase := by rw [e]
  have he : t.err = s.err := by rw [e]
  have hs : SameStage s t := by unfold SameStage; rw [hp, he]; exact e
  rcases h with ⟨a, b, c⟩ | ⟨a, b, c, d, p, hst⟩
  · exact .inl ⟨by rw [hp]; exact a, he.trans b, by rw [hp]; exact c.congr hs⟩
  · exact .inr ⟨hp.trans a, by rw [he]; exact b, by rw [he]; exact c, by rw [he]; exact d, p, hst.congr hs⟩

theorem Inv.respond {s : State} (h : Inv s) (e : Bool) (d : RspData) : Inv (respond e d s) := h.congr rfl

/-- Raising one of the reachable faults (R113). -/
theorem Inv.raise {s : State} (h : Inv s) {e : Err} (h1 : e ≠ .none) (h2 : e ≠ .noCode) (h3 : e ≠ .degenerate) :
    Inv (raise e s) := by
  by_cases hf : s.phase = .fault
  · rw [raise_fault _ hf]; exact h.respond _ _
  · rw [raise_eq _ hf]
    refine Inv.respond (.inr ⟨rfl, h1, h2, h3, ?_⟩) _ _
    rcases h with ⟨_, _, c⟩ | ⟨a, _⟩
    · exact ⟨s.phase, c.congr rfl⟩
    · exact absurd a hf

/-! ### From line to line -/

theorem freqTotal_initial (epoch : Nat) : freqTotal (State.initial epoch) = 0 := by
  rw [freqTotal_eq_sum]
  simp only [initial_freq, Fin.getElem_fin, Vector.getElem_replicate, BitVec.toNat_ofNat, Nat.zero_mod,
    Finset.sum_const_zero]

/-- The state after CLEAR or reset, whatever was before (R102, R128). -/
theorem clearState_inv (s : State) : Inv (clearState s) := by
  have h : StageInv .count (State.initial (s.draws + 1)) := by
    refine ⟨?_, ⟨rfl, rfl, rfl, rfl⟩, rfl, ⟨rfl, rfl, rfl, rfl, rfl, rfl, rfl⟩⟩
    rw [freqTotal_initial]; rfl
  exact .of_stage (p := .count) (clearState_phase s) (by decide) (clearState_err s) (h.congr rfl)

/-- An accepted COUNT (R61). -/
theorem countSymbol_inv {s : State} (h : Inv s) (hp : s.phase = .count) (sym : Sym) (hn : s.inlen ≠ maxLen) :
    Inv (countSymbol sym s) := by
  obtain ⟨he, hf, ht, hv, hpk⟩ := h.stage hp (by decide)
  have hle := freq_le_total s sym
  have hl := s.inlen.isLt
  have hne : s.inlen.toNat ≠ 0xFFFFFFFF := fun e => hn (BitVec.eq_of_toNat_eq e)
  refine .of_stage (p := .count) hp (by decide) he
    ⟨?_, ⟨ht.1, ht.2, ht.3, ht.4⟩, hv, ⟨hpk.1, hpk.2, hpk.3, hpk.4, hpk.5, hpk.6, hpk.7⟩⟩
  rw [freqTotal_countSymbol _ _ (by omega), countSymbol_inlen, BitVec.toNat_add, hf]
  simp only [BitVec.toNat_ofNat]
  omega

/-- An accepted BUILD (R69, R70). -/
theorem buildTree_inv {s : State} (h : Inv s) (hp : s.phase = .count) : Inv (buildTree s) := by
  obtain ⟨he, hf, ht, hv, hpk⟩ := h.stage hp (by decide)
  have hx := buildTree_exact s (by have := s.inlen.isLt; omega)
  have hg := (buildTree_greedy s).2
  have hw := (buildTree_weights s).1
  have hfr := buildTree_frame s
  generalize buildTree s = t at *
  have hfq : t.freq = s.freq := by rw [hfr]
  have hil : t.inlen = s.inlen := by rw [hfr]
  refine .of_stage (p := .built) (by rw [hfr]) (by decide) (by rw [hfr]; exact he)
    ⟨by unfold freqTotal; rw [hfq, hil]; exact hf,
      ⟨hg, ⟨fun sym => ?_, hx.1, by rw [hx.2, hil]; exact hf⟩, fun id => ?_, by rw [hfr], by rw [hfr], by rw [hfr]⟩,
      by rw [hfr]; exact hv, by rw [hfr]; exact ⟨hpk.1, hpk.2, hpk.3, hpk.4, hpk.5, hpk.6, hpk.7⟩⟩
  · rw [hfq, ← hw sym, weight, dif_pos (by omega)]
  · rw [hfr]; simp

/-- An accepted DERIVE (R81). -/
theorem deriveTable_inv {s : State} (h : Inv s) (hp : s.phase = .built) : Inv (deriveTable s) := by
  obtain ⟨he, hf, ht, hv, hpk⟩ := h.stage hp (by decide)
  obtain ⟨b1, b2, b3, b4, b5, b6, b7⟩ := hpk
  have hd := deriveTable_spec ht.links ht.root
  have hpk' : PackerRunning (deriveTable s) := by
    refine ⟨?_, ?_, ?_, ?_, ?_, ?_, ?_, ?_⟩ <;>
      simp only [deriveTable_pklen, deriveTable_inlen, deriveTable_bitcnt, deriveTable_outlen, deriveTable_accN,
        deriveTable_acc, deriveTable_padn, deriveTable_out, b1, b2, b3, b4, b5, b6, b7]
    · exact Nat.zero_le _
    · decide
    · decide
    · decide
    · decide
    · decide
    · decide
  have hb : TreeBuilt (deriveTable s) :=
    ht.congr (deriveTable_nodeL s) (deriveTable_nodeR s) (deriveTable_nodeW s) (deriveTable_freq s) (deriveTable_inlen s)
      (deriveTable_inq s) (deriveTable_qcount s) (deriveTable_nextid s) (deriveTable_root s)
  have hft : freqTotal (deriveTable s) = (deriveTable s).inlen.toNat := by
    unfold freqTotal; rw [deriveTable_freq, deriveTable_inlen]; exact hf
  exact .of_stage (deriveTable_phase s) (by decide) (by rw [deriveTable_err]; exact he) ⟨hft, hb, hd, hpk'⟩

/-- The root of a built tree is no leaf, so ERR_DEGENERATE is unreachable (R84). -/
theorem TreeBuilt.root_internal {s : State} (h : TreeBuilt s) : ¬s.root.toNat < 256 := by rw [h.root]; decide

/-- Every symbol has a code, so ERR_NOCODE is unreachable (R97). -/
theorem TableDerived.codeV {s : State} (h : TableDerived s) (sym : Sym) : symEntry s.codeV sym = true := by
  simp only [symEntry, h.valid, Vector.getElem_replicate]

/-- No code is empty (R83 point 3). -/
theorem TableDerived.one_le_codeLen {s : State} (h : TableDerived s) (hroot : s.root = 510#9) (sym : Sym) :
    1 ≤ (symEntry s.codeLen sym).toNat := by
  by_contra hc
  have h0 : codeOf s sym = [] := by
    rw [← List.length_eq_zero_iff, codeOf, codeDigits_length]; omega
  have hp := h.path sym
  rw [h0] at hp
  have := (Path.root (s := s)).node_eq hp
  rw [hroot] at this
  have h2 := sym.isLt
  simp only [BitVec.toNat_ofNat] at this
  omega

/-- An accepted PACK (R93, R94). -/
theorem packSymbol_inv {s : State} (h : Inv s) (hp : s.phase = .pack) (sym : Sym) (hn : s.pklen ≠ s.inlen) :
    Inv (packSymbol sym s) := by
  obtain ⟨he, hf, ht, hd, hpk⟩ := h.stage hp (by decide)
  have hlb := hd.one_le_codeLen ht.root sym
  have hub := (symEntry s.codeLen sym).isLt
  obtain ⟨bytes, h1, h2, h3, h4, h5⟩ := packSymbol_spec sym s
  generalize packSymbol sym s = t at *
  generalize hL : symEntry s.codeLen sym = L at *
  have h4' := h4 hpk.acc
  have hil := s.inlen.isLt
  have hne : s.pklen.toNat ≠ s.inlen.toNat := fun e => hn (BitVec.eq_of_toNat_eq e)
  have hle := hpk.pklen_le; have hb1 := hpk.bitcnt_le; have hb2 := hpk.le_bitcnt; have ho := hpk.outlen
  have ha := hpk.accN; have hou := hpk.out
  have hL' : (L.setWidth 40).toNat = L.toNat := by rw [BitVec.toNat_setWidth]; omega
  have hpkl : t.pklen.toNat = s.pklen.toNat + 1 := by
    rw [h5]; simp only [BitVec.toNat_add, BitVec.toNat_ofNat]; omega
  have hinl : t.inlen = s.inlen := by rw [h5]
  have hbit : t.bitcnt.toNat = s.bitcnt.toNat + L.toNat := by rw [h5]; simp only [BitVec.toNat_add, hL']; omega
  have hol : t.outlen.toNat = s.outlen.toNat + bytes.length := by
    rw [h5]; simp only [BitVec.toNat_add, BitVec.toNat_ofNat]; omega
  have hout : t.out = s.out ++ bytes := by rw [h5]
  have hpad : t.padn = s.padn := by rw [h5]
  have hT : TreeBuilt t := by
    refine ht.congr ?_ ?_ ?_ ?_ ?_ ?_ ?_ ?_ ?_ <;> rw [h5]
  have hD : TableDerived t := by
    refine hd.congr ?_ ?_ ?_ ?_ ?_ ?_ <;> rw [h5]
  refine .of_stage (p := .pack) (by rw [h5]; exact hp) (by decide) (by rw [h5]; exact he)
    ⟨by rw [h5]; exact hf, hT, hD, ⟨by rw [hinl]; omega, by omega, by omega, by omega, by omega, h4', hpad.trans hpk.padn, ?_⟩⟩
  rw [hout, List.length_append, hol, hou]

/-- An accepted FINISH (R95, R96). -/
theorem padLastByte_inv {s : State} (h : Inv s) (hp : s.phase = .pack) (hn : s.pklen = s.inlen) :
    Inv (padLastByte s) := by
  obtain ⟨he, hf, ht, hd, hpk⟩ := h.stage hp (by decide)
  have hb1 := hpk.bitcnt_le; have hb2 := hpk.le_bitcnt; have ho := hpk.outlen
  have ha := hpk.accN; have hou := hpk.out; have hacc := hpk.acc
  have hil := s.inlen.isLt
  have hlt := s.accN.isLt
  by_cases hz : s.accN = 0#3
  · have e := padLastByte_zero hz
    have h0 : s.accN.toNat = 0 := by rw [hz]; rfl
    generalize padLastByte s = t at *
    have hpd : t.padn.toNat = 0 := by rw [e]; rfl
    have hbt : t.bitcnt = s.bitcnt := by rw [e]
    have hot : t.outlen = s.outlen := by rw [e]
    have hpk' : PackerDone t := by
      refine ⟨by rw [e]; exact hn, by rw [e]; exact hb1, by rw [e]; exact hb2, by rw [hot, hbt]; omega,
        by rw [hpd, hbt]; omega, by rw [e]; exact hz, ?_, by rw [e]; exact hou⟩
      rw [h0] at hacc
      rw [e]
      exact BitVec.eq_of_toNat_eq (by simp only [BitVec.toNat_ofNat]; omega)
    exact .of_stage (p := .done) (by rw [e]) (by decide) (by rw [e]; exact he)
      ⟨by rw [e]; exact hf, by refine ht.congr ?_ ?_ ?_ ?_ ?_ ?_ ?_ ?_ ?_ <;> rw [e],
        by refine hd.congr ?_ ?_ ?_ ?_ ?_ ?_ <;> rw [e], hpk'⟩
  · have e := (padLastByte_pending hz).1
    have hnz : s.accN.toNat ≠ 0 := fun e => hz (BitVec.eq_of_toNat_eq e)
    generalize padLastByte s = t at *
    have hpd : t.padn.toNat = 8 - s.accN.toNat := by rw [e]; simp only [BitVec.toNat_ofNat]; omega
    have hbt : t.bitcnt = s.bitcnt := by rw [e]
    have hot : t.outlen.toNat = s.outlen.toNat + 1 := by
      rw [e]; simp only [BitVec.toNat_add, BitVec.toNat_ofNat]; omega
    have hout : t.out.length = s.out.length + 1 := by rw [e]; simp
    have hpk' : PackerDone t :=
      ⟨by rw [e]; exact hn, by rw [e]; exact hb1, by rw [e]; exact hb2, by rw [hot, hbt]; omega,
        by rw [hpd, hbt]; omega, by rw [e], by rw [e], by omega⟩
    exact .of_stage (p := .done) (by rw [e]) (by decide) (by rw [e]; exact he)
      ⟨by rw [e]; exact hf, by refine ht.congr ?_ ?_ ?_ ?_ ?_ ?_ ?_ ?_ ?_ <;> rw [e],
        by refine hd.congr ?_ ?_ ?_ ?_ ?_ ?_ <;> rw [e], hpk'⟩

end Sys2Proof.Machine
end

