-- ==== Sys2Proof/Laws/Encode.lean ====
section
/-! SUPPORT. Runs of COUNT and of PACK commands (`spec/44_bit_packer.md` rule R100), for the encode law. -/

namespace Sys2Proof.Machine

open Sys2Proof.Claims

/-- Since `base` left the ports, exactly `n` responses have, none of them an error, and the bytes of OUT. -/
structure Answers (base : List PortOutput) (n : Nat) (s : State) : Prop where
  ex : ∃ left, s.portOut = base ++ left ∧ left.filterMap byteOf = s.out ∧ (left.filterMap responseOf).length = n ∧
    ∀ r ∈ left.filterMap responseOf, r.1 = false

theorem filterMap_byteOf (bytes : List Byte) : (bytes.map PortOutput.byte).filterMap byteOf = bytes := by
  induction bytes with
  | nil => rfl
  | cons a l ih => simp [byteOf, ih]

theorem filterMap_responseOf (bytes : List Byte) : (bytes.map PortOutput.byte).filterMap responseOf = [] := by
  induction bytes with
  | nil => rfl
  | cons a l ih => simp [responseOf]

/-- One more command that neither faults nor is refused. -/
theorem Answers.step {base : List PortOutput} {n : Nat} {s t : State} (h : Answers base n s) (bytes : List Byte)
    (d : RspData) (hp : t.portOut = s.portOut ++ bytes.map .byte ++ [.response false d]) (ho : t.out = s.out ++ bytes) :
    Answers base (n + 1) t := by
  obtain ⟨left, h1, h2, h3, h4⟩ := h.ex
  refine ⟨left ++ bytes.map .byte ++ [.response false d], ?_, ?_, ?_, ?_⟩
  · rw [hp, h1]; simp
  · rw [List.filterMap_append, List.filterMap_append, h2, filterMap_byteOf, ho]; simp [byteOf]
  · rw [List.filterMap_append, List.filterMap_append, filterMap_responseOf]; simp [responseOf, h3]
  · intro r hr
    rw [List.filterMap_append, List.filterMap_append, filterMap_responseOf] at hr
    simp only [List.append_nil, List.mem_append] at hr
    rcases hr with hr | hr
    · exact h4 r hr
    · simp [responseOf] at hr; rw [hr]

theorem decode_encode_count (sym : Sym) : decode (encode (.count sym)) = .command (.count sym) := by
  revert sym; decide +kernel

theorem decode_encode_pack (sym : Sym) : decode (encode (.pack sym)) = .command (.pack sym) := by
  revert sym; decide +kernel

/-- The first step of a run. -/
theorem run_command {s t : State} {i : Instr} {rest : List HostInput} (hq : s.hostIn = .word (encode i) :: rest)
    (hd : decode (encode i) = .command i) (h : exec i { s with hostIn := rest } = .next t) (n : Nat) :
    Host.Core.run Sys2Proof.core (n + 1) s = Host.Core.run Sys2Proof.core n t :=
  run_succ (M := Sys2Proof.core) ((step_command hq hd).trans h)

/-- Two runs one after the other. -/
theorem run_trans {M : Host.Core} {a b : Nat} : ∀ {s t u : M.State}, M.run a s = .next t → M.run b t = .next u →
    M.run (b + a) s = .next u := by
  induction a with
  | zero => intro s t u h h'; cases h; exact h'
  | succ a ih =>
    intro s t u h h'
    rw [← Nat.add_assoc]
    cases hs : M.step s with
    | next v => rw [run_succ hs] at h ⊢; exact ih h h'
    | fault r => simp [Host.Core.run, hs] at h
    | refused r => simp [Host.Core.run, hs] at h

/-- Pass 1: COUNT of each byte of a string (R61). -/
theorem run_counts {base : List PortOutput} (bytes : List Sym) : ∀ {n : Nat} {rest : List HostInput} {s : State},
    s.phase = .count → Inv s → s.hostIn = presented (bytes.map .count) ++ rest →
    s.inlen.toNat + bytes.length ≤ 2 ^ 32 - 1 → Answers base n s →
    ∃ t, Host.Core.run Sys2Proof.core bytes.length s = .next t ∧ t.phase = .count ∧ Inv t ∧ t.hostIn = rest ∧
      t.inlen.toNat = s.inlen.toNat + bytes.length ∧
      (∀ sym : Sym, t.freq[sym.toNat].toNat = s.freq[sym.toNat].toNat + bytes.count sym) ∧
      Answers base (n + bytes.length) t := by
  induction bytes with
  | nil => intro n rest s hp hi hq hl hpr; exact ⟨s, rfl, hp, hi, hq, rfl, fun sym => rfl, hpr⟩
  | cons b bs ih =>
    intro n rest s hp hi hq hl hpr
    have hne : s.inlen ≠ maxLen := by
      intro e; rw [e] at hl; simp [maxLen] at hl
    set u : State := { s with hostIn := presented (bs.map .count) ++ rest } with hu
    have hiu : Inv u := hi.congr rfl
    have hex : exec (.count b) u = .next (respondStatus (countSymbol b u)) := by rw [exec_count (s := u) hp, if_neg hne]
    have hle := freq_le_total u b
    have hfr := (hiu.stage hp (by decide)).2.1
    have hlen : bs.length + 1 = (b :: bs).length := rfl
    have hfi : (countSymbol b u).inlen.toNat = s.inlen.toNat + 1 := by
      show (s.inlen + 1#32).toNat = _
      rw [BitVec.toNat_add]; simp; rw [← hlen] at hl; omega
    obtain ⟨t, h1, h2, h3, h4, h5, h6, h7⟩ := ih (n := n + 1) (rest := rest)
      (s := respondStatus (countSymbol b u)) hp ((countSymbol_inv hiu hp b hne).respond _ _) rfl (by
        show (countSymbol b u).inlen.toNat + _ ≤ _; rw [hfi]; rw [← hlen] at hl; omega)
      (hpr.step [] (statusWord (countSymbol b u)) (by simp [respondStatus, hu]) (by simp [respondStatus, hu]))
    refine ⟨t, ?_, h2, h3, h4, ?_, ?_, ?_⟩
    · rw [← hlen, run_command hq (decode_encode_count b) hex]; exact h1
    · rw [h5]; show (countSymbol b u).inlen.toNat + _ = _; rw [hfi, ← hlen]; omega
    · intro sym
      rw [h6 sym, List.count_cons]
      show (countSymbol b u).freq[sym.toNat].toNat + _ = _
      simp only [countSymbol_freq, setSymEntry, symEntry, Vector.getElem_set]
      have hil : u.inlen = s.inlen := rfl
      by_cases e : b = sym
      · subst e
        simp only [if_true, beq_self_eq_true, BitVec.toNat_add]
        have : u.freq[b.toNat].toNat + 1 < 2^32 := by
          have : u.inlen.toNat < 2^32-1 := by
            rw [hil]; rw [← hlen] at hl; omega
          omega
        have e2 : u.freq = s.freq := rfl
        simp only [e2] at this ⊢
        simp; omega
      · have : b.toNat ≠ sym.toNat := fun h => e (BitVec.eq_of_toNat_eq h)
        simp [this, e, hu]
    · rw [← hlen]; rw [show n + (bs.length + 1) = n + 1 + bs.length by omega]; exact h7

/-- Pass 2: PACK of each byte of a string no longer than what is left of pass 1 (R93, R94). -/
theorem run_packs {base : List PortOutput} (bytes : List Sym) : ∀ {n : Nat} {rest : List HostInput} {s : State},
    s.phase = .pack → Inv s → s.hostIn = presented (bytes.map .pack) ++ rest →
    s.pklen.toNat + bytes.length ≤ s.inlen.toNat → Answers base n s →
    ∃ t, Host.Core.run Sys2Proof.core bytes.length s = .next t ∧ t.phase = .pack ∧ Inv t ∧ t.hostIn = rest ∧
      t.pklen.toNat = s.pklen.toNat + bytes.length ∧ bitBuffer t = bitBuffer s ++ bytes.flatMap (codeOf s) ∧
      t.bitcnt.toNat = s.bitcnt.toNat + (bytes.flatMap (codeOf s)).length ∧
      (t.freq = s.freq ∧ t.inlen = s.inlen ∧ t.nodeW = s.nodeW ∧ t.nodeL = s.nodeL ∧ t.nodeR = s.nodeR ∧
        t.codeLen = s.codeLen ∧ t.codeVal = s.codeVal) ∧
      Answers base (n + bytes.length) t := by
  induction bytes with
  | nil => intro n rest s hp hi hq hl hpr; exact ⟨s, rfl, hp, hi, hq, rfl, by simp, by simp, by simp, hpr⟩
  | cons b bs ih =>
    intro n rest s hp hi hq hl hpr
    have hlen : bs.length + 1 = (b :: bs).length := rfl
    rw [← hlen] at hl
    have hne : s.pklen ≠ s.inlen := by
      intro e; rw [e] at hl; omega
    set u : State := { s with hostIn := presented (bs.map .pack) ++ rest } with hu
    have hiu : Inv u := hi.congr rfl
    have hst := (hiu.stage hp (by decide)).2
    have hv := hst.2.2.1.codeV b
    have hex : exec (.pack b) u = .next (respondStatus (packSymbol b u)) := by
      rw [exec_pack (s := u) hp, if_neg (by rw [hv]; decide), if_neg hne]
    have hinv := packSymbol_inv hiu hp b hne
    obtain ⟨by', k1, k2, k3, k4, k5⟩ := packSymbol_spec b u
    have hbc := hst.2.2.2.bitcnt_le
    have hpl := hst.2.2.2.pklen_le
    generalize hpk : packSymbol b u = v at *
    have hpv : v.phase = .pack := by rw [k5]; exact hp
    have hpkl : v.pklen.toNat = s.pklen.toNat + 1 := by
      rw [k5]; show (s.pklen + 1#32).toNat = _; rw [BitVec.toNat_add]; simp; omega
    have hil : v.inlen = s.inlen := by rw [k5]
    have hcl : v.codeLen = s.codeLen := by rw [k5]
    have hcv : v.codeVal = s.codeVal := by rw [k5]
    have hco : codeOf v = codeOf s := by funext x; unfold codeOf; rw [hcl, hcv]
    have hbit : v.bitcnt.toNat = s.bitcnt.toNat + (codeOf s b).length := by
      rw [codeOf, codeDigits_length, k5]
      have : (symEntry s.codeLen b).toNat < 2^8 := (symEntry s.codeLen b).isLt
      have e : u.bitcnt = s.bitcnt := rfl
      have e2 : u.pklen = s.pklen := rfl
      have e3 : u.codeLen = s.codeLen := rfl
      have := s.inlen.isLt
      rw [e, e2] at hbc
      simp only [BitVec.toNat_add, BitVec.toNat_setWidth, e, e3]
      omega
    obtain ⟨t, h1, h2, h3, h4, h5, h6, h7, h8, h9⟩ := ih (n := n + 1) (rest := rest) (s := respondStatus v) hpv
      (hinv.respond _ _) (by show v.hostIn = _; rw [k5])
      (by show v.pklen.toNat + _ ≤ v.inlen.toNat; rw [hpkl, hil]; omega)
      (hpr.step by' (statusWord v) (by show v.portOut ++ _ = _; rw [k5]) (by show v.out = _; rw [k5]))
    refine ⟨t, ?_, h2, h3, h4, ?_, ?_, ?_, ?_, ?_⟩
    · rw [← hlen, run_command hq (decode_encode_pack b) hex]; exact h1
    · rw [h5]; show v.pklen.toNat + _ = _; rw [hpkl, ← hlen]; omega
    · rw [h6]
      show bitBuffer v ++ List.flatMap (codeOf v) bs = _
      rw [k1, hco, List.flatMap_cons, List.append_assoc]; rfl
    · rw [h7]
      show v.bitcnt.toNat + (List.flatMap (codeOf v) bs).length = _
      rw [hbit, hco, List.flatMap_cons, List.length_append]; omega
    · obtain ⟨a1,a2,a3,a4,a5,a6,a7⟩ := h8
      refine ⟨a1.trans ?_, a2.trans ?_, a3.trans ?_, a4.trans ?_, a5.trans ?_, a6.trans hcl, a7.trans hcv⟩ <;>
        (simp only [respondStatus, respond_freq, respond_inlen, respond_nodeW, respond_nodeL, respond_nodeR]
         rw [k5])
    · rw [← hlen]; rw [show n + (bs.length + 1) = n + 1 + bs.length by omega]; exact h9

end Sys2Proof.Machine
end

