-- ==== Sys2Proof/Laws/PerInstr.lean ====
section
/-! SUPPORT. Statements for all instructions, one lemma per constructor of Instr. Family `OpcodeRow`: the word of a
command has the bits that its row of `spec/30_encoding.md` rule R48 fixes. -/

namespace Sys2Proof.Laws.OpcodeRow

/-- The columns mask and match of R48. -/
def row : Instr → CmdWord × CmdWord
  | .clear => (0xFFFF#16, 0x1000#16)
  | .count _ => (0xFF00#16, 0x2000#16)
  | .build => (0xFFFF#16, 0x3000#16)
  | .derive => (0xFFFF#16, 0x4000#16)
  | .pack _ => (0xFF00#16, 0x5000#16)
  | .finish => (0xFFFF#16, 0x6000#16)
  | .abort => (0xFFFF#16, 0x7000#16)
  | .rdreg _ => (0xFFF0#16, 0x8000#16)
  | .rdfreq _ => (0xFF00#16, 0x9000#16)
  | .rdnodew _ => (0xFE00#16, 0xA000#16)
  | .rdnodel _ => (0xFE00#16, 0xB000#16)
  | .rdclen _ => (0xFF00#16, 0xC000#16)
  | .rdcode _ _ => (0xF800#16, 0xD000#16)

/-- (word AND mask) = match (R48). -/
def Statement (i : Instr) : Prop := i.wellFormed = true → encode i &&& (row i).1 = (row i).2

/-- Format S: mask and match act on op and sub, and leave the symbol out. -/
theorem formatS (op : BitVec 4) (sym : Sym) :
    encodeS op sym &&& (0xF#4 ++ 0xF#4 ++ 0#8) = op ++ 0#4 ++ 0#8 := by
  unfold encodeS
  rw [BitVec.and_append, BitVec.and_append, BitVec.and_zero, BitVec.zero_and, show 0xF#4 = BitVec.allOnes 4 from rfl,
    BitVec.and_allOnes]

/-- Format N: mask and match act on op and sub[3:1], and leave the node id out. -/
theorem formatN (op : BitVec 4) (id : NodeId) :
    encodeN op id &&& (0xF#4 ++ 0x7#3 ++ 0#9) = op ++ 0#3 ++ 0#9 := by
  unfold encodeN
  rw [BitVec.and_append, BitVec.and_append, BitVec.and_zero, BitVec.zero_and, show 0xF#4 = BitVec.allOnes 4 from rfl,
    BitVec.and_allOnes]

/-- Format W: mask and match act on op and sub[3], and leave the symbol and the code word index out. -/
theorem formatW (op : BitVec 4) (sym : Sym) (w : BitVec 3) :
    encodeW op sym w &&& (0xF#4 ++ 0x1#1 ++ 0#3 ++ 0#8) = op ++ 0#1 ++ 0#3 ++ 0#8 := by
  unfold encodeW
  rw [BitVec.and_append, BitVec.and_append, BitVec.and_append, BitVec.and_zero, BitVec.and_zero, BitVec.zero_and,
    show 0xF#4 = BitVec.allOnes 4 from rfl, BitVec.and_allOnes]

theorem clear : Statement .clear := fun _ => by decide
theorem count (sym : Sym) : Statement (.count sym) := fun _ => formatS 0x2#4 sym
theorem build : Statement .build := fun _ => by decide
theorem derive : Statement .derive := fun _ => by decide
theorem pack (sym : Sym) : Statement (.pack sym) := fun _ => formatS 0x5#4 sym
theorem finish : Statement .finish := fun _ => by decide
theorem abort : Statement .abort := fun _ => by decide
theorem rdreg (reg : BitVec 8) : Statement (.rdreg reg) := by
  have h : ∀ r : Fin 11, encode (.rdreg (BitVec.ofNat 8 r.val)) &&& 0xFFF0#16 = 0x8000#16 := by decide
  intro hw
  have hr : reg.toNat ≤ 10 := of_decide_eq_true hw
  have := h ⟨reg.toNat, by omega⟩
  rwa [BitVec.ofNat_toNat, BitVec.setWidth_eq] at this
theorem rdfreq (sym : Sym) : Statement (.rdfreq sym) := fun _ => formatS 0x9#4 sym
theorem rdnodew (id : NodeId) : Statement (.rdnodew id) := fun _ => formatN 0xA#4 id
theorem rdnodel (id : NodeId) : Statement (.rdnodel id) := fun _ => formatN 0xB#4 id
theorem rdclen (sym : Sym) : Statement (.rdclen sym) := fun _ => formatS 0xC#4 sym
theorem rdcode (sym : Sym) (w : BitVec 3) : Statement (.rdcode sym w) := fun _ => formatW 0xD#4 sym w

end Sys2Proof.Laws.OpcodeRow
end

