-- ==== Sys2Proof/Tests/Slice0.lean ====
section
/-! SUPPORT. Tests of the model, and witnesses that the hypotheses of the obligations can be met. Expected values come from
`spec/95_test_vectors.md` and the worked examples of the rules; the source stands in each comment. -/

namespace Sys2Proof.Tests

open Sys2Proof Sys2Proof.Machine Sys2Proof.Claims

/-- The state after a command; the state itself where it answers no next state. -/
def after (i : Instr) (s : State) : State :=
  match exec i s with
  | .next t => t
  | .fault _ => s
  | .refused _ => s

/-- The last thing that left a port. -/
def answer (i : Instr) (s : State) : Option PortOutput := (after i s).portOut.getLast?

/-- The reset state in another phase. -/
def inPhase (p : Phase) : State := { State.reset with phase := p }

/-! ### WellFormed refuses (R46) -/

theorem test_wellFormed_rdreg : (Instr.rdreg 10#8).wellFormed = true ∧ (Instr.rdreg 11#8).wellFormed = false := by decide
theorem test_wellFormed_rdnodew : (Instr.rdnodew 510#9).wellFormed = true ∧ (Instr.rdnodew 511#9).wellFormed = false := by
  decide
theorem test_wellFormed_rdnodel : (Instr.rdnodel 510#9).wellFormed = true ∧ (Instr.rdnodel 511#9).wellFormed = false := by
  decide

/-! ### Decoding, by words written out from R46 and R48 (values: V-ENC-1) -/

theorem test_decode_clear : decode 0b0001_0000_00000000#16 = .command .clear := by decide
theorem test_decode_count : decode 0b0010_0000_11111111#16 = .command (.count 0xFF#8) := by decide
theorem test_decode_build : decode 0b0011_0000_00000000#16 = .command .build := by decide
theorem test_decode_derive : decode 0b0100_0000_00000000#16 = .command .derive := by decide
theorem test_decode_pack : decode 0b0101_0000_10000001#16 = .command (.pack 0x81#8) := by decide
theorem test_decode_finish : decode 0b0110_0000_00000000#16 = .command .finish := by decide
theorem test_decode_abort : decode 0b0111_0000_00000000#16 = .command .abort := by decide
theorem test_decode_rdreg : decode 0b1000_0000_00001010#16 = .command (.rdreg 10#8) := by decide
theorem test_decode_rdfreq : decode 0b1001_0000_01100001#16 = .command (.rdfreq 0x61#8) := by decide
theorem test_decode_rdnodew : decode 0b1010_0001_11111110#16 = .command (.rdnodew 510#9) := by decide
theorem test_decode_rdnodel : decode 0b1011_0001_00000000#16 = .command (.rdnodel 256#9) := by decide
theorem test_decode_rdclen : decode 0b1100_0000_01000001#16 = .command (.rdclen 0x41#8) := by decide
theorem test_decode_rdcode : decode 0b1101_0110_01000001#16 = .command (.rdcode 0x41#8 6#3) := by decide

/-- V-ENC-2: illegal words nearest to legal ones. -/
theorem test_decode_unassigned : [0x0000#16, 0x0FFF#16, 0xE000#16, 0xF000#16, 0xFFFF#16].map decode =
    List.replicate 5 (.illegal .unassignedOpcode) := by decide
theorem test_decode_mustBeZero :
    [0x1001#16, 0x3100#16, 0x7010#16, 0x2100#16, 0x5841#16, 0x8100#16, 0xA200#16, 0xD841#16].map decode =
      List.replicate 8 (.illegal .mustBeZero) := by decide
theorem test_decode_range : [0x800B#16, 0xA1FF#16, 0xB1FF#16].map decode =
    [.illegal .noSuchRegister, .illegal .noSuchNode, .illegal .noSuchNode] := by decide

/-- The table word of a command is the word on the port (R45). -/
theorem test_tableWord : decodeTableWord 16 0xD7FF = some (.rdcode 0xFF#8 7#3) ∧ decodeTableWord 16 0xE000 = none := by decide

/-- The word given to `withFetchWord` is the next one to run (assumption log 1). -/
theorem test_withFetchWord : (State.reset.withFetchWord 16 0x2041).hostIn = [.word 0x2041#16] := by decide

/-! ### One command each -/

/-- V-PH-1: CLEAR in phase FAULT answers (0, 0) and leaves it. -/
theorem test_clear : answer .clear (inPhase .fault) = some (.response false 0#32) ∧ (after .clear (inPhase .fault)).phase = .count := by
  decide

/-- V-CS-1, V-FLT-7: ABORT in phase COUNT. -/
theorem test_abort : answer .abort State.reset = some (.response true 0x00000077#32) := by decide

/-- R104, example: ABORT in phase PACK with three digits pending. -/
theorem test_abort_pending : answer .abort { inPhase .pack with accN := 3#3 } = some (.response true 0x00000377#32) := by decide

/-- V-RST-1: NEXTID reads 256 after reset. -/
theorem test_rdreg_nextid : answer (.rdreg 9#8) State.reset = some (.response false 0x100#32) := by decide

/-- R35 point 4: the two halves of a 40-bit register. -/
theorem test_rdreg_wide :
    answer (.rdreg 3#8) { State.reset with bitcnt := 0xAB12345678#40 } = some (.response false 0x12345678#32) ∧
    answer (.rdreg 4#8) { State.reset with bitcnt := 0xAB12345678#40 } = some (.response false 0xAB#32) := by decide

/-- V-FC-1. -/
theorem test_count : (after (.count 0x41#8) State.reset).inlen = 1#32 ∧
    symEntry (after (.count 0x41#8) State.reset).freq 0x41#8 = 1#32 := by decide

/-- V-FC-5: the overflow guard. -/
theorem test_count_overflow : answer (.count 0x41#8) { State.reset with inlen := 0xFFFFFFFF#32 } =
    some (.response true 0x00000037#32) := by decide

/-- V-FC-2. -/
theorem test_rdfreq : answer (.rdfreq 0x41#8) (after (.count 0x41#8) State.reset) = some (.response false 1#32) ∧
    answer (.rdfreq 0x42#8) (after (.count 0x41#8) State.reset) = some (.response false 0#32) := by decide

/-- V-FC-6: BUILD after BUILD is out of phase. -/
theorem test_build_seq : answer .build (inPhase .built) = some (.response true 0x00000027#32) := by decide

/-- R67: the least weight is taken, and of equal weights the smallest id. -/
theorem test_minMember : minMember #v[5#32, 2#32, 2#32, 1#32] #v[true, true, true, false] = some 1 := by decide

/-- R68: the first node removed becomes the left child, the second the right; the new node is 256 and weighs their sum. -/
theorem test_createNode :
    let t := createNode 3 1 { State.reset with
      nodeW := ((Vector.replicate 511 0#32).set 3 2#32).set 1 5#32, nodeL := Vector.replicate 255 0#9,
      nodeR := Vector.replicate 255 0#9 }
    t.nodeL[0] = 3#9 ∧ t.nodeR[0] = 1#9 ∧ t.nodeW[256] = 7#32 ∧ t.inq[256] = true ∧ t.nextid = 257#9 := by
  decide +kernel

/-- V-TB-2: RDNODEW of a leaf of weight 10. -/
theorem test_rdnodew : answer (.rdnodew 0x41#9) { inPhase .built with nodeW := (Vector.replicate 511 0#32).set 0x41 10#32 } =
    some (.response false 10#32) := by decide

/-- V-TB-1: RDNODEL of the root of the balanced tree, and of a leaf. -/
theorem test_rdnodel :
    answer (.rdnodel 510#9) { inPhase .built with
      nodeL := (Vector.replicate 255 0#9).set 254 508#9, nodeR := (Vector.replicate 255 0#9).set 254 509#9, inq := (Vector.replicate 511 false).set 510 true } =
      some (.response false 0x41FD01FC#32) ∧
    answer (.rdnodel 0#9) (inPhase .built) = some (.response false 0x80000000#32) := by decide +kernel

/-- The scratch of DERIVE with node 256 at path `10`. -/
def scratch : Paths := setPath 256#9 2#8 0b10#255 ⟨Vector.replicate 512 0#8, Vector.replicate 512 0#255⟩

/-- R81: stepping to the left child 5 appends 0, to the right child 7 appends 1. -/
theorem test_derive_step :
    (extendPaths 256#9 5#9 7#9 scratch).len[5] = 3#8 ∧ (extendPaths 256#9 5#9 7#9 scratch).val[5] = 0b100#255 ∧
    (extendPaths 256#9 5#9 7#9 scratch).len[7] = 3#8 ∧ (extendPaths 256#9 5#9 7#9 scratch).val[7] = 0b101#255 := by
  decide +kernel

/-- V-CD-6: a root that is a leaf. -/
theorem test_derive_degenerate : answer .derive { inPhase .built with root := 5#9 } = some (.response true 0x00000057#32) := by
  decide

/-- A code of 44 digits, all 1 (V-CD-5, symbol 0). -/
def longCode : State := { inPhase .pack with
  codeLen := (Vector.replicate 256 0#8).set 0 44#8, codeVal := (Vector.replicate 256 0#255).set 0 0xFFFFFFFFFFF#255 }

/-- V-CD-5. -/
theorem test_rdclen : answer (.rdclen 0#8) longCode = some (.response false 44#32) := by decide

/-- V-CD-5: the words of the value, low one first. -/
theorem test_rdcode :
    answer (.rdcode 0#8 0#3) longCode = some (.response false 0xFFFFFFFF#32) ∧
    answer (.rdcode 0#8 1#3) longCode = some (.response false 0x00000FFF#32) ∧
    answer (.rdcode 0#8 7#3) longCode = some (.response false 0#32) := by decide

/-- Phase PACK with symbol 0 coded as `000000010` and seven digits pending (V-BP-3). -/
def straddle : State := { inPhase .pack with
  codeV := Vector.replicate 256 true, codeLen := (Vector.replicate 256 0#8).set 0 9#8, codeVal := (Vector.replicate 256 0#255).set 0 2#255,
  acc := 0x7F#8, accN := 7#3, inlen := 8#32, pklen := 7#32, bitcnt := 7#40 }

/-- V-BP-3: a code that straddles two bytes. -/
theorem test_pack : (after (.pack 0#8) straddle).portOut = [.byte 0xFE#8, .byte 0x02#8, .response false 0x00000002#32] := by
  decide

/-- V-BP-3: the counters. -/
theorem test_pack_counters : (after (.pack 0#8) straddle).bitcnt = 16#40 ∧ (after (.pack 0#8) straddle).outlen = 2#40 ∧
    (after (.pack 0#8) straddle).pklen = 8#32 ∧ (after (.pack 0#8) straddle).accN = 0#3 := by decide

/-- R95, example: two digits pending at FINISH. -/
theorem test_finish :
    (after .finish { inPhase .pack with acc := 0b11#8, accN := 2#3, outlen := 1#40 }).portOut =
      [.byte 0xC0#8, .response false 0x00006003#32] ∧
    (after .finish { inPhase .pack with acc := 0b11#8, accN := 2#3, outlen := 1#40 }).outlen = 2#40 := by decide

/-- V-FLT-6: FINISH too early. -/
theorem test_finish_pass : answer .finish { inPhase .pack with inlen := 2#32, pklen := 1#32, acc := 1#8, accN := 1#3 } =
    some (.response true 0x00000167#32) := by decide

/-- V-FLT-1: an illegal word at reset. -/
theorem test_illegal_step : step { State.reset with hostIn := [.word 0x0000#16] } = .next (faulted .illegal State.reset) := by
  exact step_illegal rfl (by decide : decode 0x0000#16 = .illegal .unassignedOpcode)

/-! ## Witnesses: the hypotheses of each obligation, met together

The encode of the one byte 0x41, phase by phase, is the state most of them use. -/

/-- Phase COUNT, one byte presented and nothing counted. -/
def start : State := { State.reset with hostIn := [.word 0x2041#16] }

/-- Phase COUNT, one byte counted. -/
def counted : State := countSymbol 0x41#8 start

/-- Phase BUILT. -/
def built : State := buildTree counted

/-- Phase PACK, before pass 2. -/
def derived : State := deriveTable built

/-- Phase PACK, after the whole of pass 2. -/
def packed : State := packSymbol 0x41#8 derived

/-- Phase DONE. -/
def finished : State := padLastByte packed

/-- Phase FAULT, raised in phase COUNT. -/
def aborted : State := raise .io counted

theorem start_inv : Inv start := by
  refine Inv.of_stage (p := .count) rfl (by decide) rfl
    ⟨?_, ⟨rfl, rfl, rfl, rfl⟩, rfl, ⟨rfl, rfl, rfl, rfl, rfl, rfl, rfl⟩⟩
  show freqTotal (State.initial 0) = 0
  exact freqTotal_initial 0

theorem counted_inv : Inv counted ∧ counted.phase = .count :=
  ⟨countSymbol_inv start_inv rfl 0x41#8 (by decide), rfl⟩

theorem built_inv : Inv built ∧ built.phase = .built :=
  ⟨buildTree_inv counted_inv.1 counted_inv.2, buildTree_phase counted⟩

theorem derived_inv : Inv derived ∧ derived.phase = .pack :=
  ⟨deriveTable_inv built_inv.1 built_inv.2, deriveTable_phase built⟩

/-- Pass 2 of `derived` is empty and pass 1 has one byte. -/
theorem derived_lengths : derived.pklen = 0#32 ∧ derived.inlen = 1#32 := by
  unfold derived built
  rw [deriveTable_pklen, deriveTable_inlen, buildTree_pklen, buildTree_inlen]
  decide

theorem derived_room : derived.pklen ≠ derived.inlen := by
  rw [derived_lengths.1, derived_lengths.2]; decide

theorem packed_frame : packed.phase = .pack ∧ packed.pklen = packed.inlen := by
  unfold packed
  rw [packSymbol_phase, packSymbol_pklen, packSymbol_inlen, derived_lengths.1, derived_lengths.2]
  exact ⟨derived_inv.2, by decide⟩

theorem packed_inv : Inv packed := packSymbol_inv derived_inv.1 derived_inv.2 0x41#8 derived_room

theorem finished_inv : Inv finished ∧ finished.phase = .done :=
  ⟨padLastByte_inv packed_inv packed_frame.1 packed_frame.2, padLastByte_phase packed⟩

theorem aborted_inv : Inv aborted ∧ aborted.phase = .fault :=
  ⟨counted_inv.1.raise (by decide) (by decide) (by decide), by
    unfold aborted; rw [raise_eq _ (by rw [counted_inv.2]; decide)]; rfl⟩

/-- The tree of `built`, by its invariant. -/
theorem built_tree : TreeLinks built ∧ built.root = 510#9 :=
  have h := (built_inv.1.stage built_inv.2 (by decide)).2.2.1
  ⟨h.links, h.root⟩

/-! ### Encoding and the step -/

theorem witness_DecodingAnEncodedCommandGivesItBack :
    (Instr.rdreg 10#8).wellFormed = true ∧ (Instr.rdnodew 510#9).wellFormed = true ∧
    (Instr.rdnodel 0#9).wellFormed = true ∧ (Instr.rdcode 0xFF#8 7#3).wellFormed = true := by decide

theorem witness_EncodingADecodedWordGivesItBack : decode 0xD7FF#16 = .command (.rdcode 0xFF#8 7#3) := by decide

theorem witness_CommandWordsAreTheirFormulas : (10#8).toNat ≤ 10 ∧ (510#9).toNat ≤ 510 := by decide

/-- A state in phase COUNT, and one in phase FAULT, with an illegal word next. -/
theorem witness_IllegalWordsAreTheListedOnesAndFault :
    (({ State.reset with hostIn := [.word 0xFFFF#16] } : State).hostIn = .word 0xFFFF#16 :: [] ∧
      decode 0xFFFF#16 = .illegal .unassignedOpcode ∧ State.reset.phase ≠ .fault) ∧
    (({ inPhase .fault with hostIn := [.word 0xD800#16] } : State).hostIn = .word 0xD800#16 :: [] ∧
      decode 0xD800#16 = .illegal .mustBeZero ∧ (inPhase .fault).phase = .fault) := by decide

theorem witness_StepRunsTheDecodedCommand :
    start.hostIn = .word 0x2041#16 :: [] ∧ decode 0x2041#16 = .command (.count 0x41#8) := by decide

theorem witness_StepWithoutInputHoldsTheState : State.reset.hostIn = [] := rfl

theorem witness_RstGivesTheResetTable : ({ aborted with hostIn := [.rst] } : State).hostIn = .rst :: [] := rfl

/-! ### Control -/

theorem witness_ClearStartsANewEncode :
    (({ start with phase := .fault, err := .seq } : State).hostIn = start.hostIn ∧
      ({ start with phase := .fault, err := .seq } : State).portOut = start.portOut) ∧
    ∃ t, aborted.phase = .fault ∧ exec .clear aborted = .next t ∧ t.phase ≠ .fault := by
  refine ⟨⟨rfl, rfl⟩, _, aborted_inv.2, exec_clear aborted, ?_⟩
  rw [respondStatus, respond_phase, clearState_phase, initial_phase]; decide

theorem witness_AbortRaisesErrIo : (inPhase .done).phase ≠ .fault ∧ (inPhase .fault).phase = .fault := by decide

theorem witness_RdregAnswersTheRegister :
    (10#8).toNat ≤ 10 ∧ ((0x800B#16).toNat / 4096 = 0x8 ∧ 10 < (0x800B#16).toNat % 256) ∧
    ((0x8F00#16).toNat / 4096 = 0x8 ∧ (0x8F00#16).toNat / 256 % 16 ≠ 0) := by decide

/-! ### Frequency counter -/

/-- The last COUNT that is accepted, the first that is not, one out of phase, one under the invariant; and two
permutations of one another. -/
theorem witness_CountCountsOneOccurrence :
    (({ State.reset with inlen := 0xFFFFFFFE#32 } : State).phase = .count ∧
      ({ State.reset with inlen := 0xFFFFFFFE#32 } : State).inlen ≠ 0xFFFFFFFF#32) ∧
    ({ State.reset with inlen := 0xFFFFFFFF#32 } : State).phase = .count ∧ (inPhase .done).phase ≠ .count ∧
    (Inv counted ∧ counted.phase = .count ∧ counted.inlen ≠ 0xFFFFFFFF#32) ∧
    ([1#8, 2#8, 1#8].Perm [2#8, 1#8, 1#8] ∧ start.phase = .count ∧
      start.inlen.toNat + [1#8, 2#8, 1#8].length ≤ 2 ^ 32 - 1) :=
  ⟨by decide, rfl, by decide, ⟨counted_inv.1, counted_inv.2, by decide⟩, .swap .., rfl, by decide⟩

theorem witness_RdfreqAnswersTheFrequency : (inPhase .done).phase ≠ .fault ∧ (inPhase .fault).phase = .fault := by decide

/-! ### Tree builder -/

theorem witness_BuildMakesTheGreedyTree :
    (Inv counted ∧ counted.phase = .count) ∧ (inPhase .pack).phase ≠ .count := ⟨counted_inv, by decide⟩

theorem witness_BuiltTreeHasTheTreeProperties :
    ∃ t, counted.phase = .count ∧ freqTotal counted = counted.inlen.toNat ∧ exec .build counted = .next t :=
  have h := (counted_inv.1.stage counted_inv.2 (by decide)).2.1
  have ⟨t, ht⟩ := exec_next .build counted
  ⟨t, counted_inv.2, h, ht⟩

/-- Two states that differ in all of the tree's content before BUILD. -/
theorem witness_BuildDependsOnFreqAlone :
    ∃ t t', State.reset.phase = .count ∧ (State.initial 1).phase = .count ∧ State.reset.freq = (State.initial 1).freq ∧
      exec .build State.reset = .next t ∧ exec .build (State.initial 1) = .next t' :=
  have ⟨t, ht⟩ := exec_next .build State.reset
  have ⟨t', ht'⟩ := exec_next .build (State.initial 1)
  ⟨t, t', rfl, rfl, rfl, ht, ht'⟩

theorem witness_EmptyInputBuildsTheBalancedTree :
    ∃ t, State.reset.phase = .count ∧ (∀ sym : Fin 256, State.reset.freq[sym] = 0#32) ∧
      exec .build State.reset = .next t :=
  have ⟨t, ht⟩ := exec_next .build State.reset
  ⟨t, rfl, fun sym => by show (Vector.replicate 256 0#32)[sym] = 0#32; simp, ht⟩

theorem witness_BuildMergesExactly255Times : 255 ≤ 255 ∧ 254 < 255 := by decide

/-- The smallest and the largest leaf, the first and the last internal node, in each phase that reads the tree, and a
phase that does not. -/
theorem witness_RdnodewAnswersTheWeight :
    ((0#9).toNat < 256 ∧ (255#9).toNat < 256 ∧ (256#9).toNat < 511 ∧ (510#9).toNat < 511) ∧
    (Inv built ∧ built.phase = .built) ∧ (Inv derived ∧ derived.phase = .pack) ∧
    (Inv finished ∧ finished.phase = .done) ∧ (inPhase .count).phase = .count ∧ (inPhase .fault).phase = .fault ∧
    ((0xA1FF#16).toNat / 4096 = 0xA ∧ (0xA1FF#16).toNat % 512 = 511) ∧
    ((0xA200#16).toNat / 4096 = 0xA ∧ 2 ≤ (0xA200#16).toNat / 256 % 16) :=
  ⟨by decide, built_inv, derived_inv, finished_inv, rfl, rfl, by decide, by decide⟩

/-- As above; node 256 is k = 0 and node 510 is k = 254. -/
theorem witness_RdnodelAnswersTheLinks :
    ((255#9).toNat < 256 ∧ (256#9).toNat = 256 + (0 : Fin 255).val ∧ (510#9).toNat = 256 + (254 : Fin 255).val) ∧
    (Inv built ∧ built.phase = .built) ∧ (Inv derived ∧ derived.phase = .pack) ∧
    (Inv finished ∧ finished.phase = .done) ∧ (inPhase .count).phase = .count ∧ (inPhase .fault).phase = .fault ∧
    ((0xB1FF#16).toNat / 4096 = 0xB ∧ (0xB1FF#16).toNat % 512 = 511) ∧
    ((0xB200#16).toNat / 4096 = 0xB ∧ 2 ≤ (0xB200#16).toNat / 256 % 16) :=
  ⟨by decide, built_inv, derived_inv, finished_inv, rfl, rfl, by decide, by decide⟩

/-! ### Code derivation -/

/-- The smallest internal root, the largest leaf as root, the built tree, and a phase out of order. -/
theorem witness_DeriveFillsTheTableWithPaths :
    (({ inPhase .built with root := 256#9 } : State).phase = .built ∧
      256 ≤ ({ inPhase .built with root := 256#9 } : State).root.toNat) ∧
    (({ inPhase .built with root := 255#9 } : State).phase = .built ∧
      ({ inPhase .built with root := 255#9 } : State).root.toNat < 256) ∧
    (Inv built ∧ built.phase = .built ∧ 256 ≤ built.root.toNat ∧ TreeLinks built ∧ built.root = 510#9) ∧
    (inPhase .count).phase ≠ .built :=
  ⟨by decide, by decide, ⟨built_inv.1, built_inv.2, by rw [built_tree.2]; decide, built_tree⟩, by decide⟩

theorem witness_DeriveRefusesALeafRoot :
    (({ inPhase .built with root := 255#9 } : State).phase = .built ∧
      ({ inPhase .built with root := 255#9 } : State).root.toNat < 256) ∧ built.phase = .built ∧ Inv built :=
  ⟨by decide, built_inv.2, built_inv.1⟩

theorem witness_DerivedCodesArePrefixFree :
    (∃ t, built.phase = .built ∧ TreeLinks built ∧ built.root = 510#9 ∧ exec .derive built = .next t) ∧
      (0#8 : Sym) ≠ 255#8 :=
  have ⟨t, ht⟩ := exec_next .derive built
  ⟨⟨t, built_inv.2, built_tree.1, built_tree.2, ht⟩, by decide⟩

theorem witness_DerivedCodesMeetKraftEquality :
    ∃ t, built.phase = .built ∧ TreeLinks built ∧ built.root = 510#9 ∧ exec .derive built = .next t :=
  witness_DerivedCodesArePrefixFree.1

/-- Phase BUILT with the balanced tree, written out. -/
def balanced : State := { inPhase .built with
  root := 510#9, nodeL := Vector.ofFn fun k => BitVec.ofNat 9 (2 * k.val),
  nodeR := Vector.ofFn fun k => BitVec.ofNat 9 (2 * k.val + 1) }

theorem witness_BalancedTreeGivesEachByteItself :
    ∃ t, balanced.phase = .built ∧ balanced.root = 510#9 ∧
      (∀ k : Fin 255, leftChild balanced k = 2 * k ∧ rightChild balanced k = 2 * k + 1) ∧
      exec .derive balanced = .next t := by
  obtain ⟨t, ht⟩ := exec_next .derive balanced
  refine ⟨t, rfl, rfl, fun k => ⟨?_, ?_⟩, ht⟩
  · simp only [leftChild, balanced, Fin.getElem_fin, Vector.getElem_ofFn, BitVec.toNat_ofNat]; omega
  · simp only [rightChild, balanced, Fin.getElem_fin, Vector.getElem_ofFn, BitVec.toNat_ofNat]; omega

/-- One byte 0x41 counted. -/
theorem witness_OneSymbolInputGivesItTheDigitOne :
    ∃ t u, counted.phase = .count ∧ counted.freq[(0x41#8 : Sym).toNat] ≠ 0#32 ∧
      (∀ y : Sym, y ≠ 0x41#8 → counted.freq[y.toNat] = 0#32) ∧ exec .build counted = .next t ∧
      exec .derive t = .next u := by
  obtain ⟨t, ht⟩ := exec_next .build counted
  obtain ⟨u, hu⟩ := exec_next .derive t
  have h : ∀ y : Sym, counted.freq[y.toNat] = if 0x41 = y.toNat then 1#32 else 0#32 := by
    intro y
    show (setSymEntry (Vector.replicate 256 0#32) 0x41#8 _)[y.toNat] = _
    simp [setSymEntry, symEntry, Vector.getElem_set, start, State.reset, State.initial]
  refine ⟨t, u, counted_inv.2, ?_, fun y hy => ?_, ht, hu⟩
  · rw [h]; decide
  · rw [h, if_neg]
    exact fun e => hy (BitVec.eq_of_toNat_eq e.symm)

theorem witness_RdclenAnswersTheLength :
    (Inv derived ∧ derived.phase = .pack) ∧ (Inv finished ∧ finished.phase = .done) ∧
    (inPhase .count).phase = .count ∧ (inPhase .built).phase = .built ∧ (inPhase .fault).phase = .fault :=
  ⟨derived_inv, finished_inv, rfl, rfl, rfl⟩

/-- Each phase, the invariant, a value of 32 bits asked for its last word, and a word with sub[3] set. -/
theorem witness_RdcodeAnswersASliceOfTheCode :
    ((inPhase .pack).phase = .pack ∧ (inPhase .done).phase = .done ∧ (inPhase .count).phase = .count ∧
      (inPhase .built).phase = .built ∧ (inPhase .fault).phase = .fault) ∧
    (Inv derived ∧ derived.phase = .pack) ∧ (straddle.phase = .pack ∧
      ({ straddle with codeVal := Vector.replicate 256 0xFFFFFFFF#255 } : State).codeVal[(0#8 : Sym).toNat].toNat < 2 ^ 32 ∧
      7#3 ≠ 0#3) ∧ ((0xD800#16).toNat / 4096 = 0xD ∧ 8 ≤ (0xD800#16).toNat / 256 % 16) :=
  ⟨⟨rfl, rfl, rfl, rfl, rfl⟩, derived_inv, by decide, by decide⟩

/-! ### Bit packer -/

/-- A code and room; the same under the invariant; no code; pass 2 as long as pass 1; out of phase. -/
theorem witness_PackAppendsTheCode :
    (straddle.phase = .pack ∧ straddle.codeV[(255#8 : Sym).toNat] = true ∧ straddle.pklen ≠ straddle.inlen ∧
      straddle.acc.toNat < 2 ^ straddle.accN.toNat) ∧
    (Inv derived ∧ derived.phase = .pack ∧ derived.codeV[(0#8 : Sym).toNat] = true ∧ derived.pklen ≠ derived.inlen) ∧
    ((inPhase .pack).phase = .pack ∧ (inPhase .pack).codeV[(0#8 : Sym).toNat] = false) ∧
    (({ straddle with pklen := 8#32 } : State).phase = .pack ∧
      ({ straddle with pklen := 8#32 } : State).codeV[(0#8 : Sym).toNat] = true ∧
      ({ straddle with pklen := 8#32 } : State).pklen = ({ straddle with pklen := 8#32 } : State).inlen) ∧
    (inPhase .done).phase ≠ .pack :=
  ⟨by decide, ⟨derived_inv.1, derived_inv.2,
    (derived_inv.1.stage derived_inv.2 (by decide)).2.2.2.1.codeV 0#8, derived_room⟩, by decide, by decide, by decide⟩

/-- Phase PACK with a symbol without a code; with room and without under the invariant; and phase DONE. -/
theorem witness_ConsistencyChecksAreAsStated :
    ((inPhase .pack).phase = .pack ∧ (inPhase .pack).codeV[(0#8 : Sym).toNat] = false) ∧
    (Inv derived ∧ derived.phase = .pack ∧ derived.pklen ≠ derived.inlen) ∧
    (Inv packed ∧ packed.phase = .pack ∧ packed.pklen = packed.inlen) ∧ (Inv finished ∧ finished.phase = .done) :=
  ⟨by decide, ⟨derived_inv.1, derived_inv.2, derived_room⟩, ⟨packed_inv, packed_frame⟩, finished_inv⟩

/-- Nothing pending; one and seven digits pending; pass 2 too short; out of phase. -/
theorem witness_FinishPadsAndCompletes :
    ((inPhase .pack).phase = .pack ∧ (inPhase .pack).pklen = (inPhase .pack).inlen ∧ (inPhase .pack).accN = 0#3) ∧
    (({ inPhase .pack with accN := 1#3 } : State).accN ≠ 0#3 ∧ ({ inPhase .pack with accN := 7#3 } : State).accN ≠ 0#3) ∧
    ({ inPhase .pack with inlen := 1#32 } : State).pklen ≠ ({ inPhase .pack with inlen := 1#32 } : State).inlen ∧
    (inPhase .done).phase ≠ .pack ∧
    ∃ t, Inv packed ∧ packed.phase = .pack ∧ packed.pklen = packed.inlen ∧ exec .finish packed = .next t :=
  have ⟨t, ht⟩ := exec_next .finish packed
  ⟨by decide, by decide, by decide, by decide, t, packed_inv, packed_frame.1, packed_frame.2, ht⟩

/-! ### The whole machine -/

/-- A command out of its phase; FINISH in its phase; CLEAR, RDREG in FAULT; ABORT; and an illegal word next. -/
theorem witness_PhaseTableIsTheControlFlow :
    (Instr.derive.wellFormed = true ∧ phaseAfter .derive (inPhase .count).phase = none) ∧
    phaseAfter .finish (inPhase .pack).phase = some .done ∧
    (phaseAfter .clear (inPhase .fault).phase = some .count ∧
      phaseAfter (.rdreg 10#8) (inPhase .fault).phase = some .fault ∧ (Instr.rdreg 10#8).wellFormed = true) ∧
    (phaseAfter .abort (inPhase .done).phase = some .fault ∧ (inPhase .done).phase ≠ .fault) ∧
    (({ State.reset with hostIn := [.word 0x0000#16] } : State).hostIn = .word 0x0000#16 :: [] ∧
      decode 0x0000#16 = .illegal .unassignedOpcode) := by decide

/-- A non-read command. -/
theorem witness_StatusIsItsFourFields : ∃ t, isRead .finish = false ∧ exec .finish packed = .next t :=
  have ⟨t, ht⟩ := exec_next .finish packed
  ⟨t, rfl, ht⟩

/-- `start` has the word of COUNT 0x41 next, in phase COUNT and under the invariant. -/
theorem witness_FaultsAreRaisedExactlyAsTabled :
    ∃ t, start.hostIn = .word 0x2041#16 :: [] ∧ start.phase ≠ .fault ∧ step start = .next t ∧ Inv start := by
  obtain ⟨t, ht⟩ := exec_next (.count 0x41#8) { start with hostIn := [] }
  refine ⟨t, rfl, by decide, ?_, start_inv⟩
  rw [step_command (rest := []) rfl (by decide : decode 0x2041#16 = .command (.count 0x41#8))]
  exact ht

/-- In phase COUNT and in phase FAULT; and `rst` next. -/
theorem witness_FaultsArePreciseAndSticky :
    ({ inPhase .fault with hostIn := [.rst] } : State).hostIn = .rst :: [] ∧
    start.hostIn = .word 0x2041#16 :: [] ∧
    (({ inPhase .fault with hostIn := [.word 0x1000#16] } : State).hostIn = .word 0x1000#16 :: [] ∧
      (inPhase .fault).phase = .fault ∧ decode 0x1000#16 = .command .clear) := ⟨rfl, by decide⟩

theorem witness_OneResponseAfterTheBytes : ∃ t, exec .finish packed = .next t := exec_next .finish packed

theorem witness_EveryRegisterHasItsWriters :
    (∃ t, exec .build counted = .next t) ∧ Instr.build ≠ .clear := ⟨exec_next .build counted, by decide⟩

/-- PHASE changes by each of its writers. -/
theorem witness_PhaseChangesOnlyAsStated :
    (∃ t, exec .build counted = .next t ∧ t.phase ≠ counted.phase) ∧
    (∃ t, exec .derive built = .next t ∧ t.phase ≠ built.phase) ∧
    (∃ t, exec .finish packed = .next t ∧ t.phase ≠ packed.phase) ∧
    (∃ t, exec .clear aborted = .next t ∧ t.phase ≠ aborted.phase) ∧
    (∃ t, exec .abort counted = .next t ∧ t.phase ≠ counted.phase) := by
  refine ⟨⟨_, exec_build counted_inv.2, ?_⟩, ⟨_, exec_derive built_inv.2, ?_⟩, ⟨_, exec_finish packed_frame.1, ?_⟩,
    ⟨_, exec_clear aborted, ?_⟩, ⟨_, exec_abort counted, ?_⟩⟩
  · rw [counted_inv.2, respondStatus, respond_phase, buildTree_phase]; decide
  · rw [if_neg (by rw [built_tree.2]; decide), built_inv.2, respondStatus, respond_phase, deriveTable_phase]; decide
  · rw [if_neg (by simpa using packed_frame.2), packed_frame.1, respondStatus, respond_phase]
    show finished.phase ≠ _
    rw [finished_inv.2]; decide
  · rw [aborted_inv.2, respondStatus, respond_phase, clearState_phase, initial_phase]; decide
  · show aborted.phase ≠ _
    rw [aborted_inv.2, counted_inv.2]; decide

theorem witness_ReadsChangeNothingAndRepeat :
    (isRead (.rdreg 10#8) = true ∧ (Instr.rdreg 10#8).wellFormed = true ∧
      (phaseAfter (.rdreg 10#8) (inPhase .fault).phase).isSome) ∧
    (isRead (.rdnodel 510#9) = true ∧ (Instr.rdnodel 510#9).wellFormed = true ∧
      (phaseAfter (.rdnodel 510#9) (inPhase .done).phase).isSome) ∧
    (isRead (.rdcode 0#8 7#3) = true ∧ (phaseAfter (.rdcode 0#8 7#3) (inPhase .pack).phase).isSome) := by decide

/-- A state in every phase. -/
theorem witness_EveryStepKeepsTheInvariant :
    (Inv start ∧ ∃ t, step start = .next t) ∧ (Inv built ∧ built.phase = .built) ∧ (Inv derived ∧ derived.phase = .pack) ∧
    (Inv finished ∧ finished.phase = .done) ∧ (Inv aborted ∧ aborted.phase = .fault) :=
  ⟨⟨start_inv, by
    rw [step_command (rest := []) rfl (by decide : decode 0x2041#16 = .command (.count 0x41#8))]; exact exec_next _ _⟩,
    built_inv, derived_inv, finished_inv, aborted_inv⟩

/-- `start` with all unspecified content taken from another epoch. -/
def start' : State := { State.initial 1 with hostIn := [.word 0x2041#16] }

theorem witness_UnspecifiedContentIsNeverObserved :
    Inv start ∧ Inv start' ∧ SameSpecified start start' ∧ ∃ t, step start = .next t := by
  refine ⟨start_inv, ?_, ?_, witness_EveryStepKeepsTheInvariant.1.2⟩
  · refine Inv.of_stage (p := .count) rfl (by decide) rfl
      ⟨?_, ⟨rfl, rfl, rfl, rfl⟩, rfl, ⟨rfl, rfl, rfl, rfl, rfl, rfl, rfl⟩⟩
    exact freqTotal_initial 1
  · exact ⟨rfl, rfl, rfl, rfl, fun h => absurd h (by decide), rfl, rfl, rfl, rfl, rfl, fun h => absurd h (by decide), rfl,
      rfl, rfl, rfl, rfl, rfl, rfl, rfl, rfl⟩

theorem witness_OutputSizeIsTheDigitCountInBytes :
    ∃ t, Inv packed ∧ exec .finish packed = .next t ∧ t.phase = .done := by
  refine ⟨_, packed_inv, exec_finish packed_frame.1, ?_⟩
  rw [if_neg (by simpa using packed_frame.2), respondStatus, respond_phase]
  exact finished_inv.2

theorem witness_EncodeLaw :
    [0x41#8].length ≤ 2 ^ 32 - 1 ∧
    ({ aborted with hostIn := presented (encodeCommands [0x41#8]) ++ [] } : State).hostIn =
      presented (encodeCommands [0x41#8]) ++ [] := ⟨by decide, rfl⟩

/-- Every run goes on. -/
theorem run_next (n : Nat) : ∀ s : State, ∃ t, Host.Core.run Sys2Proof.core n s = .next t := by
  induction n with
  | zero => exact fun s => ⟨s, rfl⟩
  | succ n ih =>
    intro s
    have ⟨t, ht⟩ : ∃ t, step s = .next t := by
      unfold step
      split
      · exact ⟨_, rfl⟩
      · exact ⟨_, rfl⟩
      · split
        · exact exec_next _ _
        · exact ⟨_, rfl⟩
    obtain ⟨u, hu⟩ := ih t
    exact ⟨u, (run_succ (M := Sys2Proof.core) ht).trans hu⟩

theorem witness_EncodingTwiceGivesTheSameBytes :
    ∃ s s' t t' : State, s.hostIn = presented (encodeCommands [0x41#8]) ++ [] ∧
      s'.hostIn = presented (encodeCommands [0x41#8]) ++ [.rst] ∧
      Host.Core.run Sys2Proof.core (2 * 1 + 4) s = .next t ∧ Host.Core.run Sys2Proof.core (2 * 1 + 4) s' = .next t' :=
  have ⟨t, ht⟩ := run_next (2 * 1 + 4) { State.reset with hostIn := presented (encodeCommands [0x41#8]) ++ [] }
  have ⟨t', ht'⟩ := run_next (2 * 1 + 4) { inPhase .fault with hostIn := presented (encodeCommands [0x41#8]) ++ [.rst] }
  ⟨_, _, t, t', rfl, rfl, ht, ht'⟩

end Sys2Proof.Tests
end

namespace Sys2Proof.Proofs

open Sys2Proof.Machine Sys2Proof.Claims

/-! ### The shared operations in the words of the claims (R37, R113) -/

/-- Outside phase FAULT, `raise` is the fault of the claims. -/
theorem raise_eq_faulted (e : Err) {s : State} (h : s.phase ≠ .fault) : raise e s = faulted e s := raise_eq e h

@[simp] theorem faulted_phase (e : Err) (s : State) : (faulted e s).phase = .fault := rfl

@[simp] theorem refuse_phase (s : State) : (refuse s).phase = s.phase := rfl

@[simp] theorem respondStatus_phase (s : State) : (respondStatus s).phase = s.phase := rfl

/-! ### What a command can do -/

/-- Everything a command can do: raise a fault (in phase FAULT, be refused), answer a read, or do its own work, for which
it stands in its phase and passes its own tests. -/
inductive Executed : Instr → State → State → Prop
  | raised {i : Instr} {s : State} {e : Err} (he : e ≠ .none) : Executed i s (raise e s)
  | read {i : Instr} {s : State} {d : RspData} (hi : isRead i = true) : Executed i s (respond false d s)
  | clear {s : State} : Executed .clear s (respondStatus (clearState s))
  | count {s : State} {sym : Sym} (hp : s.phase = .count) (hlen : s.inlen ≠ maxLen) :
      Executed (.count sym) s (respondStatus (countSymbol sym s))
  | build {s : State} (hp : s.phase = .count) : Executed .build s (respondStatus (buildTree s))
  | derive {s : State} (hp : s.phase = .built) (hroot : 256 ≤ s.root.toNat) :
      Executed .derive s (respondStatus (deriveTable s))
  | pack {s : State} {sym : Sym} (hp : s.phase = .pack) (hcode : symEntry s.codeV sym = true)
      (hlen : s.pklen ≠ s.inlen) : Executed (.pack sym) s (respondStatus (packSymbol sym s))
  | finish {s : State} (hp : s.phase = .pack) (hlen : s.pklen = s.inlen) :
      Executed .finish s (respondStatus (padLastByte s))

/-- Only the accepted outcome of the phase test depends on the command (R116). -/
theorem Executed.of_accept {i : Instr} {s : State} {phases : List Phase} {command : State → State}
    (h : s.phase ∈ phases → Executed i s (command s)) : Executed i s (acceptIn phases command s) := by
  by_cases hp : s.phase ∈ phases
  · rw [acceptIn_of_mem hp]
    exact h hp
  · rw [acceptIn_of_not_mem hp]
    exact .raised (by decide)

/-- An operand that no word encodes is executed as an illegal word (R55). -/
theorem Executed.illegal {i : Instr} {s : State} : Executed i s (illegalWord s) := by
  rw [illegalWord_eq]
  exact .raised (by decide)

/-- Every command does one of the things `Executed` lists. -/
theorem exec_executed (i : Instr) (s : State) : ∃ t, exec i s = .next t ∧ Executed i s t := by
  cases i with
  | clear => exact ⟨_, exec_clear s, .clear⟩
  | count sym =>
    refine ⟨_, rfl, .of_accept fun hp => ?_⟩
    split
    · exact .raised (by decide)
    · next hlen => exact .count (by simpa using hp) hlen
  | build => exact ⟨_, rfl, .of_accept fun hp => .build (by simpa using hp)⟩
  | derive =>
    refine ⟨_, rfl, .of_accept fun hp => ?_⟩
    split
    · exact .raised (by decide)
    · next hroot => exact .derive (by simpa using hp) (Nat.le_of_not_lt hroot)
  | pack sym =>
    refine ⟨_, rfl, .of_accept fun hp => ?_⟩
    split
    · exact .raised (by decide)
    · next hcode =>
      split
      · exact .raised (by decide)
      · next hlen => exact .pack (by simpa using hp) (by simpa using hcode) hlen
  | finish =>
    refine ⟨_, rfl, .of_accept fun hp => ?_⟩
    split
    · exact .raised (by decide)
    · next hlen => exact .finish (by simpa using hp) (not_ne_iff.mp hlen)
  | abort => exact ⟨_, exec_abort s, .raised (by decide)⟩
  | rdreg reg =>
    by_cases hreg : reg.toNat ≤ 10
    · exact ⟨_, exec_rdreg hreg s, .read rfl⟩
    · exact ⟨_, if_neg hreg, .illegal⟩
  | rdfreq sym => exact ⟨_, rfl, .of_accept fun _ => .read rfl⟩
  | rdnodew id =>
    by_cases hid : id.toNat < 511
    · exact ⟨_, dif_pos hid, .of_accept fun _ => .read rfl⟩
    · exact ⟨_, dif_neg hid, .illegal⟩
  | rdnodel id =>
    by_cases hid : id.toNat < 511
    · exact ⟨_, dif_pos hid, .of_accept fun _ => .read rfl⟩
    · exact ⟨_, dif_neg hid, .illegal⟩
  | rdclen sym => exact ⟨_, rfl, .of_accept fun _ => .read rfl⟩
  | rdcode sym w => exact ⟨_, rfl, .of_accept fun _ => .read rfl⟩

/-- The inversion of `exec`. -/
theorem executed_of_exec {i : Instr} {s t : State} (h : exec i s = .next t) : Executed i s t := by
  obtain ⟨u, hu, hx⟩ := exec_executed i s
  obtain rfl : u = t := Host.Outcome.next.inj (hu.symm.trans h)
  exact hx

/-! ### The writers of PHASE (R11) -/

/-- A `raise` that changes PHASE was raised outside phase FAULT, so it is a fault and no refusal (R113). -/
theorem raise_eq_faulted_of_phase_ne {e : Err} {s : State} (h : (raise e s).phase ≠ s.phase) :
    raise e s = faulted e s := by
  by_cases hf : s.phase = .fault
  · rw [raise_fault e hf, refuse_phase] at h
    exact absurd rfl h
  · exact raise_eq_faulted e hf

/-- Settles O41: of the things a command can do, only a fault, CLEAR, BUILD, DERIVE and FINISH write PHASE. -/
theorem phaseChangesOnlyAsStated : Obligations.PhaseChangesOnlyAsStated := by
  unfold Obligations.PhaseChangesOnlyAsStated
  refine ⟨by decide, fun i s t hexec hne => ?_⟩
  cases executed_of_exec hexec with
  | raised he =>
    rw [raise_eq_faulted_of_phase_ne hne]
    exact .inr (.inr (.inr (.inr ⟨faulted_phase _ _, _, he, rfl⟩)))
  | read => exact absurd (respond_phase _ _ _) hne
  | clear => exact .inr (.inr (.inr (.inl ⟨rfl, by simp⟩)))
  | count => exact absurd (by simp) hne
  | build hp => exact .inl ⟨rfl, hp, by simp⟩
  | derive hp => exact .inr (.inl ⟨rfl, hp, by simp⟩)
  | pack => exact absurd (by simp) hne
  | finish hp => exact .inr (.inr (.inl ⟨rfl, hp, by simp⟩))

end Sys2Proof.Proofs

namespace Sys2Proof.Proofs

open Sys2Proof.Machine Sys2Proof.Claims

/-! ### The fields of a command word as numbers (R45, R47) -/

@[simp] theorem opField_toNat (w : CmdWord) : (opField w).toNat = w.toNat / 4096 := by
  have hw := w.isLt
  simp only [opField, BitVec.extractLsb'_toNat, Nat.shiftRight_eq_div_pow]
  omega

@[simp] theorem subField_toNat (w : CmdWord) : (subField w).toNat = w.toNat / 256 % 16 := by
  simp [subField, Nat.shiftRight_eq_div_pow]

@[simp] theorem argField_toNat (w : CmdWord) : (argField w).toNat = w.toNat % 256 := by
  simp [argField]

/-- id = {sub[0], arg} in the numbers of `sub` and `arg` (R47). -/
@[simp] theorem idField_toNat (w : CmdWord) :
    (idField w).toNat = 256 * (w.toNat / 256 % 16 % 2) + w.toNat % 256 := by
  simp only [idField, BitVec.extractLsb'_toNat, Nat.shiftRight_eq_div_pow]
  omega

theorem subField_eq_zero_iff (w : CmdWord) : subField w = 0#4 ↔ w.toNat / 256 % 16 = 0 := by
  rw [← BitVec.toNat_inj, subField_toNat, BitVec.toNat_zero]

theorem argField_eq_zero_iff (w : CmdWord) : argField w = 0#8 ↔ w.toNat % 256 = 0 := by
  rw [← BitVec.toNat_inj, argField_toNat, BitVec.toNat_zero]

/-- sub[3:1] = 0, the must-be-zero field of format N (R46). -/
theorem subHighBits_eq_zero_iff (w : CmdWord) : w.extractLsb' 9 3 = 0#3 ↔ w.toNat / 256 % 16 < 2 := by
  rw [← BitVec.toNat_inj, BitVec.extractLsb'_toNat, BitVec.toNat_zero, Nat.shiftRight_eq_div_pow]
  omega

/-- sub[3] = 0, the must-be-zero field of format W (R46). -/
theorem subTopBit_eq_zero_iff (w : CmdWord) : w.extractLsb' 11 1 = 0#1 ↔ w.toNat / 256 % 16 < 8 := by
  rw [← BitVec.toNat_inj, BitVec.extractLsb'_toNat, BitVec.toNat_zero, Nat.shiftRight_eq_div_pow]
  omega

/-! ### The illegal words of each format (R46, R55) -/

/-- A decoder that tests one condition before it answers is illegal where the condition fails or what follows is. -/
theorem ite_illegal_iff {p : Prop} [Decidable p] {d : Decoded} {why : Illegal} :
    (∃ r, (if p then d else .illegal why) = .illegal r) ↔ ¬ p ∨ ∃ r, d = .illegal r := by
  by_cases hp : p <;> simp [hp]

theorem not_command_illegal (i : Instr) : ¬ ∃ r, Decoded.command i = .illegal r := by
  rintro ⟨r, h⟩
  cases h

theorem decodeZ_illegal_iff (i : Instr) (w : CmdWord) :
    (∃ why, decodeZ i w = .illegal why) ↔ w.toNat / 256 % 16 ≠ 0 ∨ w.toNat % 256 ≠ 0 := by
  rw [decodeZ, ite_illegal_iff, or_iff_left (not_command_illegal _), subField_eq_zero_iff, argField_eq_zero_iff,
    not_and_or]

theorem decodeS_illegal_iff (i : Sym → Instr) (w : CmdWord) :
    (∃ why, decodeS i w = .illegal why) ↔ w.toNat / 256 % 16 ≠ 0 := by
  rw [decodeS, ite_illegal_iff, or_iff_left (not_command_illegal _), subField_eq_zero_iff]

theorem decodeR_illegal_iff (i : BitVec 8 → Instr) (w : CmdWord) :
    (∃ why, decodeR i w = .illegal why) ↔ w.toNat / 256 % 16 ≠ 0 ∨ 10 < w.toNat % 256 := by
  rw [decodeR, ite_illegal_iff, ite_illegal_iff, or_iff_left (not_command_illegal _), subField_eq_zero_iff,
    argField_toNat, not_le]

theorem decodeN_illegal_iff (i : NodeId → Instr) (w : CmdWord) :
    (∃ why, decodeN i w = .illegal why) ↔
      2 ≤ w.toNat / 256 % 16 ∨ 256 * (w.toNat / 256 % 16 % 2) + w.toNat % 256 = 511 := by
  rw [decodeN, ite_illegal_iff, ite_illegal_iff, or_iff_left (not_command_illegal _), subHighBits_eq_zero_iff,
    idField_toNat]
  omega

theorem decodeW_illegal_iff (i : Sym → BitVec 3 → Instr) (w : CmdWord) :
    (∃ why, decodeW i w = .illegal why) ↔ 8 ≤ w.toNat / 256 % 16 := by
  rw [decodeW, ite_illegal_iff, or_iff_left (not_command_illegal _), subTopBit_eq_zero_iff, not_lt]

/-! ### The list of R55 and the step of an illegal word (R55, R56) -/

/-- The list of R55 over the fields of R45 as numbers, in the order of the claim: unassigned opcodes, then the formats
Z, S, R, N and W. -/
def ListedIllegal (op sub arg : Nat) : Prop :=
  (op = 0x0 ∨ op = 0xE ∨ op = 0xF) ∨
  ((op = 0x1 ∨ op = 0x3 ∨ op = 0x4 ∨ op = 0x6 ∨ op = 0x7) ∧ (sub ≠ 0 ∨ arg ≠ 0)) ∨
  ((op = 0x2 ∨ op = 0x5 ∨ op = 0x9 ∨ op = 0xC) ∧ sub ≠ 0) ∨
  (op = 0x8 ∧ (sub ≠ 0 ∨ 10 < arg)) ∨
  ((op = 0xA ∨ op = 0xB) ∧ (2 ≤ sub ∨ 256 * (sub % 2) + arg = 511)) ∨
  (op = 0xD ∧ 8 ≤ sub)

/-- Along the opcode map (R48), each format contributes its row of the list. -/
theorem decode_illegal_iff (w : CmdWord) :
    (∃ why, decode w = .illegal why) ↔ ListedIllegal (w.toNat / 4096) (w.toNat / 256 % 16) (w.toNat % 256) := by
  unfold decode ListedIllegal
  rw [opField_toNat]
  split
  case h_1 _ hop | h_3 _ hop | h_4 _ hop | h_6 _ hop | h_7 _ hop => simp [hop, decodeZ_illegal_iff]
  case h_2 _ hop | h_5 _ hop | h_9 _ hop | h_12 _ hop => simp [hop, decodeS_illegal_iff]
  case h_8 _ hop => simp [hop, decodeR_illegal_iff]
  case h_10 _ hop | h_11 _ hop => simp [hop, decodeN_illegal_iff]
  case h_13 _ hop => simp [hop, decodeW_illegal_iff]
  case h_14 =>
    have hw := w.isLt
    simp only [imp_false] at *
    exact iff_of_true ⟨_, rfl⟩ (.inl (by omega))

/-- In phase FAULT `raise` is the refusal of the claims. -/
theorem raise_eq_refusedIn (e : Err) {s : State} (h : s.phase = .fault) : raise e s = refusedIn s := raise_fault e h

/-- Settles O4: the list of R55 is `decode_illegal_iff`, and an illegal word raises ERR_ILLEGAL, which phase FAULT
turns into a refusal. -/
theorem illegalWordsAreTheListedOnesAndFault : Obligations.IllegalWordsAreTheListedOnesAndFault := by
  unfold Obligations.IllegalWordsAreTheListedOnesAndFault
  refine ⟨decode_illegal_iff, fun s w rest why hin hd => ?_⟩
  rw [step_illegal hin hd, illegalWord_eq]
  exact ⟨fun hp => congrArg _ (raise_eq_faulted _ hp), fun hp => congrArg _ (raise_eq_refusedIn _ hp)⟩

end Sys2Proof.Proofs

namespace Sys2Proof.Proofs

open Sys2Proof.Machine Sys2Proof.Claims

/-! ### The word of a format S command as a number (R51) -/

theorem encodeS_toNat (op : BitVec 4) (sym : Sym) : (encodeS op sym).toNat = 4096 * op.toNat + sym.toNat := by
  have hsym : sym.toNat < 2 ^ 8 := sym.isLt
  rw [encodeS, BitVec.toNat_append, BitVec.toNat_append, BitVec.toNat_zero, Nat.or_zero,
    ← Nat.shiftLeft_add_eq_or_of_lt hsym, Nat.shiftLeft_eq, Nat.shiftLeft_eq]
  omega

/-! ### A command out of its phase in the words of the claims (R106, R116) -/

theorem raise_seq_eq_outOfPhase (s : State) : raise .seq s = outOfPhase s := by
  unfold outOfPhase
  split
  · next h => exact raise_eq_refusedIn _ h
  · next h => exact raise_eq_faulted _ h

/-! ### COUNT from a state that meets the invariant (R25, R61) -/

/-- In phase COUNT the invariant leaves every field of STATUS zero (R108). -/
theorem statusWord_of_inv_count {s : State} (h : Inv s) (hp : s.phase = .count) : statusWord s = 0#32 := by
  obtain ⟨herr, -, -, -, hpacker⟩ := h.stage hp (by decide)
  rw [statusWord, hpacker.padn, hpacker.accN, herr, hp]
  rfl

/-- Below the largest length no frequency is at its largest value either, so COUNT's additions do not wrap. -/
theorem count_additions_exact {s : State} (h : Inv s) (hp : s.phase = .count) (hlen : s.inlen ≠ maxLen) (sym : Sym) :
    (s.inlen + 1#32).toNat = s.inlen.toNat + 1 ∧
      (s.freq[sym.toNat] + 1#32).toNat = s.freq[sym.toNat].toNat + 1 := by
  have htotal : freqTotal s = s.inlen.toNat := (h.stage hp (by decide)).2.1
  have hfreq := freq_le_total s sym
  have hroom : s.inlen.toNat < 2 ^ 32 - 1 := by bv_omega
  constructor <;> (rw [BitVec.toNat_add, BitVec.toNat_ofNat]; omega)

/-! ### COUNT forgets the order of the bytes (R61) -/

/-- The state after an accepted COUNT, its response included. -/
def countAnswered (s : State) (sym : Sym) : State := respondStatus (countSymbol sym s)

/-- COUNT writes no field that STATUS shows, so the response is the STATUS before it. -/
theorem countAnswered_eq (s : State) (sym : Sym) : countAnswered s sym = answered (statusWord s) (countSymbol sym s) :=
  rfl

theorem exec_count_answered {s : State} (hp : s.phase = .count) (hlen : s.inlen ≠ maxLen) (sym : Sym) :
    exec (.count sym) s = .next (countAnswered s sym) := by
  rw [exec_count hp, if_neg hlen, countAnswered]

theorem countSymbol_comm (x y : Sym) (s : State) :
    countSymbol y (countSymbol x s) = countSymbol x (countSymbol y s) := by
  by_cases hxy : x = y
  · rw [hxy]
  · have hne : x.toNat ≠ y.toNat := fun h => hxy (BitVec.eq_of_toNat_eq h)
    have hfreq : (countSymbol y (countSymbol x s)).freq = (countSymbol x (countSymbol y s)).freq := by
      simp only [countSymbol_freq, setSymEntry, symEntry, Vector.getElem_set_ne _ _ hne,
        Vector.getElem_set_ne _ _ hne.symm]
      exact Vector.set_comm _ _ hne
    exact congrArg (fun freq => { s with freq := freq, inlen := s.inlen + 1#32 + 1#32 }) hfreq

theorem countAnswered_comm (x y : Sym) (s : State) :
    countAnswered (countAnswered s x) y = countAnswered (countAnswered s y) x :=
  congrArg (answered (statusWord s) ∘ answered (statusWord s)) (countSymbol_comm x y s)

/-- Within the length limit a pass 1 accepts every byte. -/
theorem run_counts_eq_foldl (bytes : List Sym) (rest : List HostInput) : ∀ {s : State}, s.phase = .count →
    s.inlen.toNat + bytes.length ≤ 2 ^ 32 - 1 →
    Host.Core.run Sys2Proof.core bytes.length { s with hostIn := presented (bytes.map .count) ++ rest } =
      .next (bytes.foldl countAnswered { s with hostIn := rest }) := by
  induction bytes with
  | nil => intro s _ _; rfl
  | cons b bs ih =>
    intro s hp hl
    rw [List.length_cons] at hl
    have hlen : s.inlen ≠ maxLen := by bv_omega
    have hinlen : (countAnswered s b).inlen.toNat = s.inlen.toNat + 1 := by
      rw [countAnswered, respondStatus, respond_inlen, countSymbol_inlen]
      bv_omega
    have hexec := exec_count_answered (s := { s with hostIn := presented (bs.map .count) ++ rest }) hp hlen b
    have hfirst := run_command (s := { s with hostIn := presented ((b :: bs).map .count) ++ rest }) rfl
      (decode_encode_count b) hexec bs.length
    exact hfirst.trans (ih (s := countAnswered s b) hp (by omega))

/-- Settles O17: each phase by COUNT's own equation; and a pass 1 is a fold of `countAnswered`, whose steps commute. -/
theorem countCountsOneOccurrence : Obligations.CountCountsOneOccurrence := by
  unfold Obligations.CountCountsOneOccurrence
  refine ⟨fun sym s => ⟨encodeS_toNat _ sym, fun hp hlen => ?accepted, fun hp hlen => ?overflow, fun hp => ?outOfPhase,
    fun h hp hlen => ⟨statusWord_of_inv_count h hp, count_additions_exact h hp hlen sym⟩⟩,
    fun s bytes bytes' rest hperm hp hl => ?permutation⟩
  case accepted => exact (exec_count_answered hp hlen sym).trans (congrArg _ (countAnswered_eq s sym))
  case overflow => rw [exec_count hp, if_pos hlen, raise_eq_faulted _ (by rw [hp]; decide)]
  case outOfPhase => rw [exec_count_out hp, raise_seq_eq_outOfPhase]
  case permutation =>
    have hlength := hperm.length_eq
    have hfold := hperm.foldl_eq' (fun x _ y _ t => countAnswered_comm x y t) { s with hostIn := rest }
    refine ⟨bytes.foldl countAnswered { s with hostIn := rest }, run_counts_eq_foldl bytes rest hp hl, ?_⟩
    rw [hlength]
    exact (run_counts_eq_foldl bytes' rest hp (hlength ▸ hl)).trans (congrArg _ hfold.symm)

/-- Settles O18: the phase test of RDFREQ leaves out FAULT only. -/
theorem rdfreqAnswersTheFrequency : Obligations.RdfreqAnswersTheFrequency := by
  unfold Obligations.RdfreqAnswersTheFrequency
  refine fun sym s => ⟨encodeS_toNat _ sym, fun hp => exec_rdfreq hp sym, fun hp => ?_⟩
  rw [exec_rdfreq_out hp, raise_eq_refusedIn _ hp]

end Sys2Proof.Proofs

namespace Sys2Proof.Proofs

open Sys2Proof.Machine Sys2Proof.Claims

/-! ### BUILD and its response (R69) -/

/-- In phase COUNT the invariant leaves ERR and the fields of the packer zero, so STATUS will show the phase alone. -/
theorem statusWord_built_of_inv_count {s : State} (h : Inv s) (hp : s.phase = .count) :
    statusWord { s with phase := .built } = 1#32 := by
  obtain ⟨herr, -, -, -, hpacker⟩ := h.stage hp (by decide)
  simp only [statusWord, hpacker.padn, hpacker.accN, herr]
  rfl

/-- Of the fields that STATUS shows, BUILD writes PHASE only (R108). -/
theorem statusWord_buildTree (s : State) : statusWord (buildTree s) = statusWord { s with phase := .built } := by
  simp only [statusWord, buildTree_padn, buildTree_accN, buildTree_err, buildTree_phase]

/-- A response writes no part of the tree. -/
theorem greedyTree_respond {t : State} (h : GreedyTree t) (e : Bool) (d : RspData) : GreedyTree (respond e d t) :=
  ⟨h.left_waits, h.right_waits, h.distinct, h.left_least, h.right_least⟩

theorem respondStatus_eq_answered (t : State) : respondStatus t = answered (statusWord t) t := rfl

/-- The whole state after an accepted BUILD, its response included. -/
theorem respondStatus_buildTree (s : State) :
    respondStatus (buildTree s) = answered (statusWord { s with phase := .built })
      { s with
        phase := .built, nodeW := (buildTree s).nodeW, nodeL := (buildTree s).nodeL, nodeR := (buildTree s).nodeR,
        inq := Vector.ofFn fun id : Fin 511 => decide (id.val = 510), nextid := 511#9, qcount := 1#9,
        root := 510#9 } :=
  (respondStatus_eq_answered _).trans (congrArg₂ answered (statusWord_buildTree s) (buildTree_frame s))

/-- Settles O19: the loop invariant of BUILD gives the greedy tree and its weights, and `buildTree_frame` all else. -/
theorem buildMakesTheGreedyTree : Obligations.BuildMakesTheGreedyTree := by
  unfold Obligations.BuildMakesTheGreedyTree
  refine ⟨by decide, fun s => ⟨statusWord_built_of_inv_count, fun hp => ?accepted, fun hp => ?outOfPhase⟩⟩
  case accepted =>
    obtain ⟨hleaf, hinner⟩ := buildTree_weights s
    have hgreedy := (buildTree_greedy s).1
    have hexec := exec_build hp
    have hframe := respondStatus_buildTree s
    -- A name for the built tree, so that nothing compares its unfoldings.
    obtain ⟨t, ht⟩ : ∃ t, buildTree s = t := ⟨_, rfl⟩
    rw [ht] at hleaf hinner hgreedy hexec hframe
    exact ⟨respondStatus t, hexec, greedyTree_respond hgreedy _ _, hleaf, hinner, hframe⟩
  case outOfPhase => rw [exec_build_out hp, raise_seq_eq_outOfPhase]

end Sys2Proof.Proofs

namespace Sys2Proof.Proofs

open Sys2Proof.Machine Sys2Proof.Claims

/-! ### The words of RDNODEW and RDNODEL (R53, R55) -/

/-- Two fields side by side are the sum of their values at their places. -/
theorem toNat_append_eq_add {m n : Nat} (x : BitVec m) (y : BitVec n) :
    (x ++ y).toNat = x.toNat * 2 ^ n + y.toNat := by
  rw [BitVec.toNat_append, ← Nat.shiftLeft_add_eq_or_of_lt y.isLt, Nat.shiftLeft_eq]

theorem encodeN_toNat (op : BitVec 4) (id : NodeId) : (encodeN op id).toNat = 4096 * op.toNat + id.toNat := by
  rw [encodeN, toNat_append_eq_add, toNat_append_eq_add, BitVec.toNat_zero]
  omega

/-- The row of format N in the list of R55, its id read from the word whole. -/
theorem decode_illegal_of_formatN {w : CmdWord} (hop : w.toNat / 4096 = 0xA ∨ w.toNat / 4096 = 0xB)
    (h : 2 ≤ w.toNat / 256 % 16 ∨ w.toNat % 512 = 511) : ∃ why, decode w = .illegal why :=
  (decode_illegal_iff w).mpr (.inr (.inr (.inr (.inr (.inl ⟨hop, by omega⟩)))))

/-! ### The phases that read the tree (R25, R106) -/

theorem not_treeReadable {p : Phase} (h : p = .count ∨ p = .fault) : ¬ treeReadable p := by
  rcases h with rfl | rfl <;> decide

/-- The invariant has the tree as BUILD left it in each phase that reads it. -/
theorem treeBuilt_of_inv {s : State} (h : Inv s) (hp : treeReadable s.phase) : TreeBuilt s := by
  rcases hp with hp | hp | hp <;>
    (obtain ⟨-, -, htree, -⟩ := h.stage hp (by decide); exact htree)

section Weights
variable {s : State} (h : TreeWeights s)
include h

theorem nodeW_leaf {id : Nat} (hid : id < 256) : s.nodeW[id] = s.freq[id] :=
  BitVec.eq_of_toNat_eq ((weight_eq s ⟨id, by omega⟩).symm.trans (h.leaf ⟨id, hid⟩))

theorem nodeW_root : s.nodeW[510] = s.inlen :=
  BitVec.eq_of_toNat_eq ((weight_eq s ⟨510, by omega⟩).symm.trans h.root)

end Weights

/-- After BUILD the root alone is a member of the collection (R69). -/
theorem inq_eq_decide_root {s : State} (h : TreeBuilt s) {id : NodeId} (hid : id.toNat < 511) :
    s.inq[id.toNat] = decide (id = 510#9) :=
  (h.inq ⟨id.toNat, hid⟩).trans (decide_eq_decide.2 (BitVec.toNat_inj (y := 510#9)))

/-! ### RDNODEW (R72) -/

/-- Settles O24: RDNODEW's own equations by phase; what it reads is the invariant on weights. -/
theorem rdnodewAnswersTheWeight : Obligations.RdnodewAnswersTheWeight := by
  unfold Obligations.RdnodewAnswersTheWeight
  refine ⟨fun w hop => decode_illegal_of_formatN (.inl hop), fun id s hid =>
    ⟨encodeN_toNat _ id, fun hp => exec_rdnodew hp hid, fun hp => ?outOfPhase, fun hinv hp => ?weights⟩⟩
  case outOfPhase => rw [exec_rdnodew_out (not_treeReadable hp) hid, raise_seq_eq_outOfPhase]
  case weights =>
    have hweights := (treeBuilt_of_inv hinv hp).weights
    exact ⟨nodeW_leaf hweights, by rintro rfl; exact nodeW_root hweights⟩

/-! ### RDNODEL (R73) -/

section LinkWord
variable (s : State) {id : NodeId} (hid : id.toNat < 511)

theorem nodeLinkWord_leaf (hleaf : id.toNat < 256) :
    nodeLinkWord s id hid = BitVec.ofNat 32 (2 ^ 31 + s.inq[id.toNat].toNat * 2 ^ 30) := by
  rw [nodeLinkWord, if_pos hleaf]
  cases s.inq[id.toNat] <;> rfl

theorem nodeLinkWord_internal (k : Fin 255) (hk : id.toNat = 256 + k.val) :
    nodeLinkWord s id hid =
      BitVec.ofNat 32 (s.inq[id.toNat].toNat * 2 ^ 30 + s.nodeR[k].toNat * 2 ^ 16 + s.nodeL[k].toNat) := by
  have hlink (a : Vector NodeId 255) : linkEntry s.draws a id.toNat = a[k] := hk ▸ linkEntry_internal s.draws a k
  have hmember := Bool.toNat_lt s.inq[id.toNat]
  rw [nodeLinkWord, if_neg (by omega), hlink, hlink]
  apply BitVec.eq_of_toNat_eq
  simp only [toNat_append_eq_add, BitVec.toNat_ofBool, BitVec.toNat_ofNat]
  omega

end LinkWord

/-- Settles O25: the response word by kind of node; the invariant gives the membership bit. -/
theorem rdnodelAnswersTheLinks : Obligations.RdnodelAnswersTheLinks := by
  unfold Obligations.RdnodelAnswersTheLinks
  refine ⟨fun w hop => decode_illegal_of_formatN (.inr hop), fun id s hid =>
    ⟨encodeN_toNat _ id, fun hp => ?accepted, fun hp => ?outOfPhase⟩⟩
  case accepted =>
    have hanswer : exec (.rdnodel id) s = .next (answered (nodeLinkWord s id hid) s) := exec_rdnodel hp hid
    have hmember (hinv : Inv s) := inq_eq_decide_root (treeBuilt_of_inv hinv hp) hid
    refine ⟨fun hleaf => ?leaf, fun k hk => ?internal, hmember, fun hinv hleaf => ?leafOfInv, fun hinv hroot => ?root⟩
    case leaf => rw [hanswer, nodeLinkWord_leaf s hid hleaf]
    case internal => rw [hanswer, nodeLinkWord_internal s hid k hk]
    case leafOfInv =>
      have hne : id ≠ 510#9 := by bv_omega
      rw [hanswer, nodeLinkWord_leaf s hid hleaf, hmember hinv, decide_eq_false hne]
      rfl
    case root =>
      have hword := nodeLinkWord_internal s hid 254 (by rw [hroot]; rfl)
      rw [hmember hinv, decide_eq_true hroot] at hword
      rw [hanswer, hword]
      rfl
  case outOfPhase => rw [exec_rdnodel_out (not_treeReadable hp) hid, raise_seq_eq_outOfPhase]

end Sys2Proof.Proofs

namespace Sys2Proof.Proofs

open Sys2Proof.Machine Sys2Proof.Claims

/-! ### DERIVE in phase BUILT and its response (R81, R84) -/

/-- A leaf root raises ERR_DEGENERATE before anything is written (R84). -/
theorem exec_derive_leafRoot {s : State} (hp : s.phase = .built) (hroot : s.root.toNat < 256) :
    exec .derive s = .next (faulted .degenerate s) := by
  rw [exec_derive hp, if_pos hroot, raise_eq_faulted _ (by rw [hp]; decide)]

/-- From an internal root DERIVE completes. -/
theorem exec_derive_internalRoot {s : State} (hp : s.phase = .built) (hroot : 256 ≤ s.root.toNat) :
    exec .derive s = .next (respondStatus (deriveTable s)) := by
  rw [exec_derive hp, if_neg (Nat.not_lt.mpr hroot)]

/-- In phase BUILT the invariant leaves ERR and the fields of the packer zero, so STATUS will show the phase alone. -/
theorem statusWord_pack_of_inv_built {s : State} (h : Inv s) (hp : s.phase = .built) :
    statusWord { s with phase := .pack } = 2#32 := by
  obtain ⟨herr, -, -, -, hpacker⟩ := h.stage hp (by decide)
  simp only [statusWord, hpacker.padn, hpacker.accN, herr]
  rfl

/-- Of the fields that STATUS shows, DERIVE writes PHASE only (R108). -/
theorem statusWord_deriveTable (s : State) : statusWord (deriveTable s) = statusWord { s with phase := .pack } := by
  simp only [statusWord, deriveTable_padn, deriveTable_accN, deriveTable_err, deriveTable_phase]

/-- DERIVE writes the code table, PHASE and the counter of free values only (R81). -/
theorem deriveTable_frame (s : State) :
    deriveTable s =
      { s with
        phase := .pack, codeV := (deriveTable s).codeV, codeLen := (deriveTable s).codeLen,
        codeVal := (deriveTable s).codeVal, draws := (deriveTable s).draws } := by
  unfold deriveTable
  rfl

/-- The whole state after an accepted DERIVE, its response included. -/
theorem respondStatus_deriveTable (s : State) :
    respondStatus (deriveTable s) = answered (statusWord { s with phase := .pack })
      { s with
        phase := .pack, codeV := (deriveTable s).codeV, codeLen := (deriveTable s).codeLen,
        codeVal := (deriveTable s).codeVal, draws := (deriveTable s).draws } :=
  (respondStatus_eq_answered _).trans (congrArg₂ answered (statusWord_deriveTable s) (deriveTable_frame s))

/-- On the tree BUILD leaves, a symbol's entry is the one path from the root to its leaf, in a value that fits its
length (R80). -/
theorem deriveTable_codeOf {s : State} (hlinks : TreeLinks s) (hroot : s.root = 510#9) (sym : Sym) :
    Path s sym.toNat (codeOf (deriveTable s) sym) ∧ (∀ p, Path s sym.toNat p → p = codeOf (deriveTable s) sym) ∧
      (symEntry (deriveTable s).codeVal sym).toNat < 2 ^ (symEntry (deriveTable s).codeLen sym).toNat := by
  have htable := deriveTable_spec hlinks hroot
  have hpath : Path s sym.toNat (codeOf (deriveTable s) sym) :=
    (htable.path sym).congr (deriveTable_nodeL s).symm (deriveTable_nodeR s).symm (deriveTable_root s).symm
  exact ⟨hpath, fun p hp => hp.unique hlinks hroot hpath, htable.fits sym⟩

/-- Settles O26: `deriveTable_codeOf` gives the codes, and `respondStatus_deriveTable` all else. -/
theorem deriveFillsTheTableWithPaths : Obligations.DeriveFillsTheTableWithPaths := by
  unfold Obligations.DeriveFillsTheTableWithPaths
  refine ⟨by decide, fun s => ⟨statusWord_pack_of_inv_built, exec_derive_leafRoot, fun hp hroot => ?accepted,
    fun hp => ?outOfPhase⟩⟩
  case accepted =>
    have hcodes := deriveTable_codeOf (s := s)
    have hexec := exec_derive_internalRoot hp hroot
    have hvalid := deriveTable_codeV s
    have hframe := respondStatus_deriveTable s
    -- A name for the derived state, so that nothing compares its unfoldings.
    obtain ⟨t, ht⟩ : ∃ t, deriveTable s = t := ⟨_, rfl⟩
    rw [ht] at hcodes hexec hvalid hframe
    exact ⟨respondStatus t, hexec, hvalid, hframe, hcodes⟩
  case outOfPhase => rw [exec_derive_out hp, raise_seq_eq_outOfPhase]

/-- Settles O27: BUILD leaves ROOT = 510, and the invariant keeps it. -/
theorem deriveRefusesALeafRoot : Obligations.DeriveRefusesALeafRoot := by
  unfold Obligations.DeriveRefusesALeafRoot
  exact ⟨by decide, fun s hp => ⟨exec_derive_leafRoot hp, fun hinv => (treeBuilt_of_inv hinv (.inl hp)).root⟩⟩

/-! ### The phases that read the code table (R25, R106) -/

theorem not_tableReadable {p : Phase} (h : p = .count ∨ p = .built ∨ p = .fault) : ¬ tableReadable p := by
  rcases h with rfl | rfl | rfl <;> decide

/-- The invariant has the code table as DERIVE left it in each phase that reads it. -/
theorem tableDerived_of_inv {s : State} (h : Inv s) (hp : tableReadable s.phase) : TableDerived s := by
  rcases hp with hp | hp <;>
    (obtain ⟨-, -, -, htable, -⟩ := h.stage hp (by decide); exact htable)

/-! ### RDCLEN (R86) -/

/-- Settles O32: RDCLEN's own equations by phase; what it reads is the invariant on the code table. -/
theorem rdclenAnswersTheLength : Obligations.RdclenAnswersTheLength := by
  unfold Obligations.RdclenAnswersTheLength
  refine fun sym s => ⟨encodeS_toNat _ sym, fun hp => ?answer, fun hp => ?outOfPhase, fun hinv hp => ?entry⟩
  case answer => rw [BitVec.ofNat_toNat]; exact exec_rdclen hp sym
  case outOfPhase => rw [exec_rdclen_out (not_tableReadable hp), raise_seq_eq_outOfPhase]
  case entry =>
    have htable := tableDerived_of_inv hinv hp
    exact ⟨htable.one_le_codeLen (treeBuilt_of_inv hinv (.inr hp)).root sym, htable.codeV sym⟩

/-! ### RDCODE (R87) -/

theorem encodeW_toNat (op : BitVec 4) (sym : Sym) (w : BitVec 3) :
    (encodeW op sym w).toNat = 4096 * op.toNat + 256 * w.toNat + sym.toNat := by
  rw [encodeW, toNat_append_eq_add, toNat_append_eq_add, toNat_append_eq_add, BitVec.toNat_zero]
  omega

/-- The row of format W in the list of R55. -/
theorem decode_illegal_of_formatW {w : CmdWord} (hop : w.toNat / 4096 = 0xD) (h : 8 ≤ w.toNat / 256 % 16) :
    ∃ why, decode w = .illegal why :=
  (decode_illegal_iff w).mpr (.inr (.inr (.inr (.inr (.inr ⟨hop, h⟩)))))

/-- Bits 32w + 31 to 32w of a code value as a number (R35 point 4). -/
theorem codeSlice_eq_ofNat (v : CodeVal) (w : BitVec 3) :
    codeSlice v w = BitVec.ofNat 32 (v.toNat / 2 ^ (32 * w.toNat)) := by
  apply BitVec.eq_of_toNat_eq
  rw [codeSlice, BitVec.extractLsb'_toNat, BitVec.toNat_setWidth_of_le (by decide), BitVec.toNat_ofNat,
    Nat.shiftRight_eq_div_pow]

/-- A value of at most 32 bits is all in word 0. -/
theorem codeSlice_eq_zero {v : CodeVal} {w : BitVec 3} (hv : v.toNat < 2 ^ 32) (hw : w ≠ 0#3) :
    codeSlice v w = 0#32 := by
  have hword : 1 ≤ w.toNat := by bv_omega
  have hslice : 2 ^ 32 ≤ 2 ^ (32 * w.toNat) := Nat.pow_le_pow_right (by decide) (by omega)
  rw [codeSlice_eq_ofNat, Nat.div_eq_of_lt (hv.trans_le hslice)]

/-- Bit 31 of word 7 is bit 255, which no code value has. -/
theorem codeVal_topWord_lt (v : CodeVal) : v.toNat / 2 ^ 224 < 2 ^ 31 := by
  have hv := v.isLt
  omega

/-- Settles O33: RDCODE's own equations by phase, the slice as a number, and the invariant on the code table. -/
theorem rdcodeAnswersASliceOfTheCode : Obligations.RdcodeAnswersASliceOfTheCode := by
  unfold Obligations.RdcodeAnswersASliceOfTheCode
  refine ⟨codeVal_topWord_lt, fun w => decode_illegal_of_formatW, fun sym w s =>
    ⟨encodeW_toNat _ sym w, fun hp => ?slice, fun hinv hp => (tableDerived_of_inv hinv hp).fits sym,
      fun hp hv hw => ?zero, fun hp => ?outOfPhase⟩⟩
  case slice => rw [← codeSlice_eq_ofNat]; exact exec_rdcode hp sym w
  case zero => rw [← codeSlice_eq_zero hv hw]; exact exec_rdcode hp sym w
  case outOfPhase => rw [exec_rdcode_out (not_tableReadable hp), raise_seq_eq_outOfPhase]

end Sys2Proof.Proofs

namespace Sys2Proof.Proofs

open Sys2Proof.Machine Sys2Proof.Claims

/-! ### The invariant in phases PACK and DONE (R25) -/

theorem packerRunning_of_inv {s : State} (h : Inv s) (hp : s.phase = .pack) : PackerRunning s := by
  obtain ⟨-, -, -, -, hpacker⟩ := h.stage hp (by decide)
  exact hpacker

theorem packerDone_of_inv {s : State} (h : Inv s) (hp : s.phase = .done) : PackerDone s := by
  obtain ⟨-, -, -, -, hpacker⟩ := h.stage hp (by decide)
  exact hpacker

/-- Every symbol has a code, whether it was counted or not, so ERR_NOCODE is unreachable (R97). -/
theorem codeV_of_inv {s : State} (h : Inv s) (hp : s.phase = .pack) (sym : Sym) : symEntry s.codeV sym = true :=
  (tableDerived_of_inv h (.inl hp)).codeV sym

/-- Pass 2 is never longer than pass 1, so where the lengths differ there is room (R98). -/
theorem pklen_lt_inlen {s : State} (h : Inv s) (hp : s.phase = .pack) (hroom : s.pklen ≠ s.inlen) :
    s.pklen.toNat < s.inlen.toNat :=
  lt_of_le_of_ne (packerRunning_of_inv h hp).pklen_le (BitVec.toNat_ne.mp hroom)

/-- PKLEN has room below INLEN, and BITCNT is at most 255 times PKLEN, so PACK's additions do not wrap (R110). -/
theorem pack_additions_exact {s : State} (h : Inv s) (hp : s.phase = .pack) (hroom : s.pklen ≠ s.inlen) (sym : Sym) :
    (packSymbol sym s).pklen.toNat = s.pklen.toNat + 1 ∧
      (packSymbol sym s).bitcnt.toNat = s.bitcnt.toNat + (symEntry s.codeLen sym).toNat := by
  have hlt := pklen_lt_inlen h hp hroom
  have hdigits := (packerRunning_of_inv h hp).bitcnt_le
  have hinlen := s.inlen.isLt
  have hlen := (symEntry s.codeLen sym).isLt
  rw [packSymbol_pklen, packSymbol_bitcnt, BitVec.toNat_add, BitVec.toNat_add, BitVec.toNat_ofNat,
    BitVec.toNat_setWidth]
  omega

/-! ### STATUS while packing and when done (R108) -/

/-- STATUS as a number: its four fields at their places. -/
theorem statusWord_toNat (s : State) :
    (statusWord s).toNat =
      (phaseCode s.phase).toNat + 16 * (errCode s.err).toNat + 256 * s.accN.toNat + 4096 * s.padn.toNat := by
  simp only [statusWord, toNat_append_eq_add, BitVec.toNat_zero]
  omega

theorem statusWord_of_inv_pack {s : State} (h : Inv s) (hp : s.phase = .pack) :
    (statusWord s).toNat = 2 + 256 * s.accN.toNat := by
  have herr : s.err = .none := (h.stage hp (by decide)).1
  rw [statusWord_toNat, (packerRunning_of_inv h hp).padn, herr, hp]
  simp [errCode, phaseCode]

theorem statusWord_of_inv_done {s : State} (h : Inv s) (hp : s.phase = .done) :
    (statusWord s).toNat = 3 + 4096 * s.padn.toNat := by
  have herr : s.err = .none := (h.stage hp (by decide)).1
  rw [statusWord_toNat, (packerDone_of_inv h hp).accN, herr, hp]
  simp [errCode, phaseCode]

/-! ### PACK and FINISH by their outcomes (R93, R95, R98) -/

section InPhasePack
variable {s : State} {sym : Sym} (hp : s.phase = .pack)
include hp

theorem raise_of_pack (e : Err) : raise e s = faulted e s := raise_eq_faulted e (by rw [hp]; decide)

theorem exec_pack_withoutCode (hcode : symEntry s.codeV sym = false) :
    exec (.pack sym) s = .next (faulted .noCode s) := by
  rw [exec_pack hp, if_pos hcode, raise_of_pack hp]

theorem exec_pack_withoutRoom (hcode : symEntry s.codeV sym = true) (hfull : s.pklen = s.inlen) :
    exec (.pack sym) s = .next (faulted .pass s) := by
  rw [exec_pack hp, if_neg (by rw [hcode]; decide), if_pos hfull, raise_of_pack hp]

theorem exec_pack_accepted (hcode : symEntry s.codeV sym = true) (hroom : s.pklen ≠ s.inlen) :
    exec (.pack sym) s = .next (respondStatus (packSymbol sym s)) := by
  rw [exec_pack hp, if_neg (by rw [hcode]; decide), if_neg hroom]

theorem exec_finish_early (hroom : s.pklen ≠ s.inlen) : exec .finish s = .next (faulted .pass s) := by
  rw [exec_finish hp, if_pos hroom, raise_of_pack hp]

theorem exec_finish_accepted (hfull : s.pklen = s.inlen) :
    exec .finish s = .next (respondStatus (padLastByte s)) := by
  rw [exec_finish hp, if_neg (not_not.mpr hfull)]

end InPhasePack

theorem exec_pack_outOfPhase {s : State} (hp : s.phase ≠ .pack) (sym : Sym) :
    exec (.pack sym) s = .next (outOfPhase s) := by
  rw [exec_pack_out hp, raise_seq_eq_outOfPhase]

theorem exec_finish_outOfPhase {s : State} (hp : s.phase ≠ .pack) : exec .finish s = .next (outOfPhase s) := by
  rw [exec_finish_out hp, raise_seq_eq_outOfPhase]

/-! ### PACK (R93) -/

/-- Settles O34: `packSymbol_spec` gives the digits, the bytes and the frame, to which the response is added; under the
invariant the additions are exact and STATUS is that of phase PACK. -/
theorem packAppendsTheCode : Obligations.PackAppendsTheCode := by
  unfold Obligations.PackAppendsTheCode
  refine fun sym s => ⟨encodeS_toNat _ sym, fun hp hcode hroom => ?accepted, exec_pack_withoutCode,
    exec_pack_withoutRoom, fun hp => exec_pack_outOfPhase hp sym⟩
  case accepted =>
    obtain ⟨bytes, hdigits, hlength, hpending, hacc, hframe⟩ := packSymbol_spec sym s
    have hexec := exec_pack_accepted hp hcode hroom
    have hphase := (packSymbol_phase sym s).trans hp
    have hinv (h : Inv s) := (packSymbol_inv h hp sym hroom).respond false (statusWord (packSymbol sym s))
    have hexact (h : Inv s) := pack_additions_exact h hp hroom sym
    -- A name for the packed state, so that nothing compares its unfoldings.
    obtain ⟨t, ht⟩ : ∃ t, packSymbol sym s = t := ⟨_, rfl⟩
    rw [ht] at hdigits hpending hacc hframe hexec hphase hinv hexact
    rw [← BitVec.ofNat_toNat] at hframe
    have hbytes : bytes.length ≤ 32 := by
      have hcount := s.accN.isLt
      have hlen := (symEntry s.codeLen sym).isLt
      omega
    exact ⟨respondStatus t, bytes, hexec, hdigits, hlength, hbytes, hpending, hacc,
      congrArg (answered (statusWord t)) hframe, fun h => ⟨statusWord_of_inv_pack (hinv h) hphase, hexact h⟩⟩

/-! ### The consistency checks (R97, R98) -/

/-- Settles O35: the outcomes of PACK and FINISH; under the invariant every symbol has a code and PKLEN is at most
INLEN. -/
theorem consistencyChecksAreAsStated : Obligations.ConsistencyChecksAreAsStated := by
  unfold Obligations.ConsistencyChecksAreAsStated
  refine ⟨by decide, by decide, fun sym s => ⟨exec_pack_withoutCode, fun h hp => codeV_of_inv h hp sym, fun h hp =>
    ⟨fun hfull => ?full, fun hroom => ⟨exec_finish_early hp hroom, pklen_lt_inlen h hp hroom, ?room⟩⟩,
    fun h hp => (packerDone_of_inv h hp).pklen⟩⟩
  case full => exact exec_pack_withoutRoom hp (codeV_of_inv h hp sym) hfull
  case room =>
    have herr : s.err = .none := (h.stage hp (by decide)).1
    exact ⟨_, exec_pack_accepted hp (codeV_of_inv h hp sym) hroom, (packSymbol_phase sym s).trans hp,
      (packSymbol_err sym s).trans herr⟩

/-! ### FINISH (R95, R96) -/

/-- Settles O36: by whether digits are pending, the two equations of `padLastByte` with the response added; PADN and
the response under the invariant are those of phase DONE. -/
theorem finishPadsAndCompletes : Obligations.FinishPadsAndCompletes := by
  unfold Obligations.FinishPadsAndCompletes
  refine ⟨by decide, fun s => ⟨fun hp hfull hnone => ?nothingPending, fun hp hfull hsome => ?pending,
    fun t h hp hfull hexec => ?padding, exec_finish_early, exec_finish_outOfPhase⟩⟩
  case nothingPending => rw [exec_finish_accepted hp hfull, padLastByte_zero hnone, respondStatus_eq_answered]
  case pending =>
    obtain ⟨hframe, hdigits⟩ := padLastByte_pending hsome
    have hexec := exec_finish_accepted hp hfull
    -- A name for the padded state, as in PACK.
    obtain ⟨t, ht⟩ : ∃ t, padLastByte s = t := ⟨_, rfl⟩
    rw [ht] at hframe hdigits hexec
    have hpadn : t.padn.toNat = 8 - s.accN.toNat := by
      have hcount : s.accN.toNat ≠ 0 := BitVec.toNat_ne.mp hsome
      rw [hframe, BitVec.toNat_ofNat]
      omega
    refine ⟨respondStatus t, hexec, (congrArg (answered (statusWord t)) hframe).trans ?_, ?_⟩
    · rw [answered, List.append_assoc, List.singleton_append]
      rfl
    · rw [← hpadn] at hdigits
      exact hdigits
  case padding =>
    obtain rfl := Host.Outcome.next.inj ((exec_finish_accepted hp hfull).symm.trans hexec)
    have hinv := (padLastByte_inv h hp hfull).respond false (statusWord (padLastByte s))
    have hdone : (respondStatus (padLastByte s)).phase = .done := padLastByte_phase s
    exact ⟨(packerDone_of_inv hinv hdone).padn, statusWord_of_inv_done hinv hdone⟩

end Sys2Proof.Proofs

namespace Sys2Proof.Proofs

open Sys2Proof.Machine Sys2Proof.Claims

/-! ### The phases a command is accepted in (R106, R116) -/

/-- The phases with an entry in a command's row of the table of R106. -/
def acceptedPhases : Instr → List Phase
  | .clear | .rdreg _ => [.count, .built, .pack, .done, .fault]
  | .count _ | .build => [.count]
  | .derive => [.built]
  | .pack _ | .finish => [.pack]
  | .abort | .rdfreq _ => [.count, .built, .pack, .done]
  | .rdnodew _ | .rdnodel _ => [.built, .pack, .done]
  | .rdclen _ | .rdcode _ _ => [.pack, .done]

/-- The entries of the claims' table stand at these phases. -/
theorem phaseAfter_isSome_iff (i : Instr) (p : Phase) : (phaseAfter i p).isSome ↔ p ∈ acceptedPhases i := by
  cases i <;> cases p <;> simp [phaseAfter, acceptedPhases]

theorem not_mem_acceptedPhases {i : Instr} {p : Phase} (h : phaseAfter i p = none) : p ∉ acceptedPhases i := by
  rw [← phaseAfter_isSome_iff, h]
  decide

theorem mem_acceptedPhases {i : Instr} {p q : Phase} (h : phaseAfter i p = some q) : p ∈ acceptedPhases i := by
  rw [← phaseAfter_isSome_iff, h]
  rfl

/-- A well-formed command is its phase test, over these phases, and a body. -/
theorem exec_eq_acceptIn {i : Instr} (hw : i.wellFormed = true) (s : State) :
    ∃ body, exec i s = .next (acceptIn (acceptedPhases i) body s) := by
  cases i with
  | rdreg reg => exact ⟨_, if_pos (of_decide_eq_true hw)⟩
  | rdnodew id | rdnodel id => exact ⟨_, dif_pos (Nat.lt_succ_of_le (of_decide_eq_true hw))⟩
  | _ => exact ⟨_, rfl⟩

theorem exec_outOfPhase {i : Instr} {s : State} (hw : i.wellFormed = true) (h : phaseAfter i s.phase = none) :
    exec i s = .next (outOfPhase s) := by
  obtain ⟨body, hexec⟩ := exec_eq_acceptIn hw s
  rw [hexec, acceptIn_of_not_mem (not_mem_acceptedPhases h), raise_seq_eq_outOfPhase]

/-! ### An accepted read (R32, R106) -/

/-- An accepted read answers a value and changes nothing else. -/
theorem exec_read_accepted {i : Instr} {s : State} (hread : isRead i = true) (hw : i.wellFormed = true)
    (hp : s.phase ∈ acceptedPhases i) : ∃ d, exec i s = .next (respond false d s) := by
  cases i with
  | rdreg reg => exact ⟨_, exec_rdreg (of_decide_eq_true hw) s⟩
  | rdfreq sym => exact ⟨_, exec_rdfreq (fun hf => by simp [acceptedPhases, hf] at hp) sym⟩
  | rdnodew id =>
    have hid : id.toNat < 511 := Nat.lt_succ_of_le (of_decide_eq_true hw)
    exact ⟨_, exec_rdnodew (by simpa [acceptedPhases] using hp) hid⟩
  | rdnodel id =>
    have hid : id.toNat < 511 := Nat.lt_succ_of_le (of_decide_eq_true hw)
    exact ⟨_, exec_rdnodel (by simpa [acceptedPhases] using hp) hid⟩
  | rdclen sym => exact ⟨_, exec_rdclen (by simpa [acceptedPhases] using hp) sym⟩
  | rdcode sym w => exact ⟨_, exec_rdcode (by simpa [acceptedPhases] using hp) sym w⟩
  | _ => cases hread

/-- In the table a read keeps the phase. -/
theorem phaseAfter_of_isRead {i : Instr} {p q : Phase} (hread : isRead i = true) (h : phaseAfter i p = some q) :
    q = p := by
  cases i with
  | rdreg | rdfreq | rdnodew | rdnodel | rdclen | rdcode => cases p <;> cases h <;> rfl
  | _ => cases hread

end Sys2Proof.Proofs

namespace Sys2Proof.Proofs

open Sys2Proof.Machine Sys2Proof.Claims

/-! ### What the table allows an accepted command (R106) -/

/-- From `s`, with the table's entry `p`, command `i` may go to `t`: to phase `p` with ERR as it was (CLEAR: zeroed), or
to one of its own faults. ABORT has only its fault. -/
def TableAllows (i : Instr) (s : State) (p : Phase) (t : State) : Prop :=
  (i ≠ .abort ∧ t.phase = p ∧ t.err = if i = .clear then .none else s.err) ∨ ∃ e ∈ ownFaults i, t = faulted e s

/-- A command other than ABORT and CLEAR whose work `t` leaves ERR alone; the response writes neither PHASE nor ERR. -/
theorem TableAllows.completed {i : Instr} {s t : State} {p : Phase} {d : RspData} (habort : i ≠ .abort)
    (hclear : i ≠ .clear) (hphase : t.phase = p) (herr : t.err = s.err) : TableAllows i s p (respond false d t) :=
  .inl ⟨habort, hphase, by rw [if_neg hclear, respond_err, herr]⟩

theorem TableAllows.ownFault {i : Instr} {s : State} {p : Phase} {e : Err} (he : e ∈ ownFaults i) :
    TableAllows i s p (faulted e s) :=
  .inr ⟨e, he, rfl⟩

@[simp] theorem padLastByte_err (s : State) : (padLastByte s).err = s.err := by
  by_cases hn : s.accN = 0#3
  · rw [padLastByte_zero hn]
  · rw [(padLastByte_pending hn).1]

/-- ABORT outside phase FAULT (R104). -/
theorem exec_abort_faulted {s : State} (h : s.phase ≠ .fault) : exec .abort s = .next (faulted .io s) := by
  rw [exec_abort, raise_eq_faulted _ h]

/-- COUNT at the largest length (R61). -/
theorem exec_count_overflow {s : State} (hp : s.phase = .count) (hlen : s.inlen = maxLen) (sym : Sym) :
    exec (.count sym) s = .next (faulted .overflow s) := by
  rw [exec_count hp, if_pos hlen, raise_eq_faulted _ (by rw [hp]; decide)]

/-- A row of the table with one entry. -/
theorem entry_of_single {i : Instr} {p q r r' : Phase} (hi : acceptedPhases i = [r]) (hr : phaseAfter i r = some r')
    (h : phaseAfter i p = some q) : p = r ∧ r' = q := by
  obtain rfl : p = r := List.mem_singleton.mp (hi ▸ mem_acceptedPhases h)
  exact ⟨rfl, Option.some.inj (hr.symm.trans h)⟩

/-- An accepted command does what the table allows it: by its outcomes, those of its own faults and its completion. -/
theorem exec_tableAllows {i : Instr} {s : State} {p : Phase} (hw : i.wellFormed = true)
    (h : phaseAfter i s.phase = some p) : ∃ t, exec i s = .next t ∧ TableAllows i s p t := by
  cases i with
  | clear =>
    obtain rfl := Option.some.inj h
    exact ⟨_, exec_clear s, .inl ⟨nofun, by simp, by simp [respondStatus]⟩⟩
  | count sym =>
    obtain ⟨hp, rfl⟩ := entry_of_single rfl rfl h
    by_cases hlen : s.inlen = maxLen
    · exact ⟨_, exec_count_overflow hp hlen sym, .ownFault (by simp [ownFaults])⟩
    · exact ⟨_, exec_count_answered hp hlen sym, .completed nofun nofun hp rfl⟩
  | build =>
    obtain ⟨hp, rfl⟩ := entry_of_single rfl rfl h
    exact ⟨_, exec_build hp, .completed nofun nofun (buildTree_phase s) (buildTree_err s)⟩
  | derive =>
    obtain ⟨hp, rfl⟩ := entry_of_single rfl rfl h
    by_cases hroot : s.root.toNat < 256
    · exact ⟨_, exec_derive_leafRoot hp hroot, .ownFault (by simp [ownFaults])⟩
    · exact ⟨_, exec_derive_internalRoot hp (Nat.le_of_not_lt hroot),
        .completed nofun nofun (deriveTable_phase s) (deriveTable_err s)⟩
  | pack sym =>
    obtain ⟨hp, rfl⟩ := entry_of_single rfl rfl h
    by_cases hcode : symEntry s.codeV sym = true
    · by_cases hfull : s.pklen = s.inlen
      · exact ⟨_, exec_pack_withoutRoom hp hcode hfull, .ownFault (by simp [ownFaults])⟩
      · exact ⟨_, exec_pack_accepted hp hcode hfull,
          .completed nofun nofun ((packSymbol_phase sym s).trans hp) (packSymbol_err sym s)⟩
    · exact ⟨_, exec_pack_withoutCode hp (Bool.eq_false_of_not_eq_true hcode), .ownFault (by simp [ownFaults])⟩
  | finish =>
    obtain ⟨hp, rfl⟩ := entry_of_single rfl rfl h
    by_cases hfull : s.pklen = s.inlen
    · exact ⟨_, exec_finish_accepted hp hfull, .completed nofun nofun (padLastByte_phase s) (padLastByte_err s)⟩
    · exact ⟨_, exec_finish_early hp hfull, .ownFault (by simp [ownFaults])⟩
  | abort =>
    have hp : s.phase ≠ .fault := by rintro hf; rw [hf] at h; cases h
    exact ⟨_, exec_abort_faulted hp, .ownFault (by simp [ownFaults])⟩
  | _ =>
    obtain ⟨d, hexec⟩ := exec_read_accepted rfl hw (mem_acceptedPhases h)
    exact ⟨_, hexec, .completed nofun nofun (phaseAfter_of_isRead rfl h).symm rfl⟩

/-- Settles O37: both halves of the table are `exec_outOfPhase` and `exec_tableAllows`; the row of the illegal words is
O4's. -/
theorem phaseTableIsTheControlFlow : Obligations.PhaseTableIsTheControlFlow := by
  unfold Obligations.PhaseTableIsTheControlFlow
  refine ⟨fun i s hw => ⟨exec_outOfPhase hw, fun p => exec_tableAllows hw⟩, fun s => exec_abort_faulted,
    fun s w rest why hin hd => ?illegal⟩
  case illegal =>
    obtain ⟨hraised, hrefused⟩ := illegalWordsAreTheListedOnesAndFault.2 s w rest why hin hd
    split
    · next hp => exact hrefused hp
    · next hp => exact hraised hp

end Sys2Proof.Proofs

namespace Sys2Proof.Proofs

open Sys2Proof.Machine Sys2Proof.Claims

/-! ### STATUS after a command (R37, R108) -/

/-- The last thing that left the ports is a response with STATUS as it now stands. -/
def EndsWithStatus (t : State) : Prop := ∃ earlier e, t.portOut = earlier ++ [.response e (statusWord t)]

/-- A response writes no field that STATUS shows, so a response with STATUS still shows it afterwards. -/
theorem endsWithStatus_respond (e : Bool) (s : State) : EndsWithStatus (respond e (statusWord s) s) :=
  ⟨s.portOut, e, rfl⟩

theorem endsWithStatus_raise (e : Err) (s : State) : EndsWithStatus (raise e s) := by
  by_cases hp : s.phase = .fault
  · rw [raise_fault e hp]
    exact endsWithStatus_respond true s
  · rw [raise_eq e hp]
    exact endsWithStatus_respond true { s with err := e, phase := .fault }

/-- Settles O11: the sum is `statusWord_toNat`; and a command that is no read ends in a fault, a refusal or
`respondStatus`, all with STATUS. -/
theorem statusIsItsFourFields : Obligations.StatusIsItsFourFields := by
  unfold Obligations.StatusIsItsFourFields
  refine ⟨statusWord_toNat, by decide, by decide, by decide, fun i s t hread hexec => ?answer⟩
  case answer =>
    cases executed_of_exec hexec with
    | raised => exact endsWithStatus_raise _ s
    | read hi => exact absurd hi (by rw [hread]; decide)
    | clear | count | build | derive | pack | finish => exact endsWithStatus_respond false _

/-! ### CLEAR (R102, R103) -/

/-- In the reset table every field that STATUS shows is zero (R108). -/
theorem statusWord_clearState (s : State) : statusWord (clearState s) = 0#32 := by
  simp only [statusWord, clearState_padn, clearState_accN, clearState_err, clearState_phase, initial_padn, initial_accN,
    initial_err, initial_phase]
  rfl

theorem exec_clear_answered (s : State) : exec .clear s = .next (answered 0#32 (clearState s)) := by
  rw [exec_clear, respondStatus_eq_answered, statusWord_clearState]

/-- Of the state before it, CLEAR keeps the ports' records only, unspecified content apart. -/
theorem clearState_sameSpecified {s t : State} (hin : s.hostIn = t.hostIn) (hout : s.portOut = t.portOut) :
    SameSpecified (clearState s) (clearState t) := by
  constructor
  case tree => intro h; simp [treeReadable] at h
  case table => intro h; simp [tableReadable] at h
  case hostIn => simpa using hin
  case portOut => simpa using hout
  all_goals simp

/-- The same response added to both. -/
theorem sameSpecified_answered {s t : State} (h : SameSpecified s t) (d : RspData) :
    SameSpecified (answered d s) (answered d t) :=
  { h with portOut := congrArg (· ++ [PortOutput.response false d]) h.portOut }

/-- Every writer of PHASE but CLEAR starts from another phase, or goes to FAULT itself (R11). -/
theorem eq_clear_of_leaves_fault {i : Instr} {s t : State} (hs : s.phase = .fault) (hexec : exec i s = .next t)
    (ht : t.phase ≠ .fault) : i = .clear := by
  obtain ⟨-, hp, -⟩ | ⟨-, hp, -⟩ | ⟨-, hp, -⟩ | ⟨hi, -⟩ | ⟨hp, -⟩ :=
    phaseChangesOnlyAsStated.2 i s t hexec (by rw [hs]; exact ht)
  · cases hs.symm.trans hp
  · cases hs.symm.trans hp
  · cases hs.symm.trans hp
  · exact hi
  · exact absurd hp ht

/-- Settles O14: the fields of `clearState` are the reset table's. -/
theorem clearStartsANewEncode : Obligations.ClearStartsANewEncode := by
  unfold Obligations.ClearStartsANewEncode
  refine ⟨by decide, fun s => ⟨_, exec_clear_answered s, ?table⟩, fun s t hin hout =>
    ⟨_, _, exec_clear_answered s, exec_clear_answered t, sameSpecified_answered (clearState_sameSpecified hin hout) _⟩,
    fun i s t => eq_clear_of_leaves_fault⟩
  case table => simp [answered]

/-! ### ABORT (R104) -/

/-- Settles O15: ABORT's one equation, outside and in phase FAULT. -/
theorem abortRaisesErrIo : Obligations.AbortRaisesErrIo := by
  unfold Obligations.AbortRaisesErrIo
  refine ⟨by decide, fun s => ⟨exec_abort_faulted, fun hp => ?refused⟩⟩
  case refused => rw [exec_abort, raise_eq_refusedIn _ hp]

/-! ### RDREG (R105, R107) -/

theorem encodeR_toNat (op : BitVec 4) (reg : BitVec 8) : (encodeR op reg).toNat = 4096 * op.toNat + reg.toNat :=
  encodeS_toNat op reg

/-- The row of format R in the list of R55. -/
theorem decode_illegal_of_formatR {w : CmdWord} (hop : w.toNat / 4096 = 0x8)
    (h : w.toNat / 256 % 16 ≠ 0 ∨ 10 < w.toNat % 256) : ∃ why, decode w = .illegal why :=
  (decode_illegal_iff w).mpr (.inr (.inr (.inr (.inl ⟨hop, h⟩))))

/-- The upper register of a 40-bit counter (R107). -/
theorem upperBits_eq_ofNat (c : BitCount) :
    (c.extractLsb' 32 8).setWidth 32 = BitVec.ofNat 32 (c.toNat / 2 ^ 32) := by
  apply BitVec.eq_of_toNat_eq
  have hc := c.isLt
  rw [BitVec.toNat_setWidth, BitVec.extractLsb'_toNat, BitVec.toNat_ofNat, Nat.shiftRight_eq_div_pow]
  omega

/-- RDREG of a register whose value is `d`. -/
theorem exec_rdreg_answered {reg : BitVec 8} {s : State} {d : RspData} (hd : registerValue s reg = d)
    (hreg : reg.toNat ≤ 10 := by decide) : exec (.rdreg reg) s = .next (answered d s) :=
  hd ▸ exec_rdreg hreg s

/-- Settles O16: the one equation of RDREG, at each line of `registerValue`. -/
theorem rdregAnswersTheRegister : Obligations.RdregAnswersTheRegister := by
  unfold Obligations.RdregAnswersTheRegister
  refine ⟨fun w => decode_illegal_of_formatR, fun reg _ => encodeR_toNat _ reg, fun s => ?registers⟩
  case registers =>
    have lower (c : BitCount) : c.extractLsb' 0 32 = BitVec.ofNat 32 c.toNat := rfl
    have widened {n : Nat} (x : BitVec n) : x.setWidth 32 = BitVec.ofNat 32 x.toNat := (BitVec.ofNat_toNat 32 x).symm
    exact ⟨exec_rdreg_answered rfl, exec_rdreg_answered rfl, exec_rdreg_answered rfl,
      exec_rdreg_answered (lower s.bitcnt), exec_rdreg_answered (upperBits_eq_ofNat s.bitcnt),
      exec_rdreg_answered (lower s.outlen), exec_rdreg_answered (upperBits_eq_ofNat s.outlen),
      exec_rdreg_answered (widened s.root), exec_rdreg_answered (widened s.qcount),
      exec_rdreg_answered (widened s.nextid), exec_rdreg_answered (widened s.acc)⟩

end Sys2Proof.Proofs

namespace Sys2Proof.Proofs

open Sys2Proof.Machine Sys2Proof.Claims

/-! ### What the decoder answers is well formed (R46, R49) -/

/-- A decoder's test, passed or not: a command comes from the passed test only. -/
theorem ite_command_iff {p : Prop} [Decidable p] {d : Decoded} {why : Illegal} {i : Instr} :
    (if p then d else .illegal why) = .command i ↔ p ∧ d = .command i := by
  by_cases hp : p <;> simp [hp]

/-- Formats R and N test their operand as `Instr.wellFormed` does; the other formats have no operand out of range. -/
theorem wellFormed_of_decode {w : CmdWord} {i : Instr} (h : decode w = .command i) : i.wellFormed = true := by
  unfold decode at h
  split at h
  case h_1 | h_2 | h_3 | h_4 | h_5 | h_6 | h_7 | h_9 | h_12 | h_13 =>
    cases (ite_command_iff.mp h).2
    rfl
  case h_8 | h_10 | h_11 =>
    obtain ⟨hrange, hi⟩ := ite_command_iff.mp (ite_command_iff.mp h).2
    cases hi
    exact decide_eq_true hrange
  case h_14 => cases h

/-! ### The conditions of the faults (R112) -/

/-- The table of R112: a word that decodes to `d`, in state `s` in a phase other than FAULT, raises this code. -/
def RaisedOn (d : Decoded) (s : State) : Err → Prop
  | .none => False
  | .illegal => ∃ why, d = .illegal why
  | .seq => ∃ i, d = .command i ∧ phaseAfter i s.phase = none
  | .overflow => s.phase = .count ∧ s.inlen = maxLen ∧ ∃ sym, d = .command (.count sym)
  | .noCode => s.phase = .pack ∧ ∃ sym, d = .command (.pack sym) ∧ symEntry s.codeV sym = false
  | .degenerate => s.phase = .built ∧ s.root.toNat < 256 ∧ d = .command .derive
  | .pass => s.phase = .pack ∧
      ((s.pklen = s.inlen ∧ ∃ sym, d = .command (.pack sym) ∧ symEntry s.codeV sym = true) ∨
        (s.pklen ≠ s.inlen ∧ d = .command .finish))
  | .io => d = .command .abort

/-- Code 0 has no row. -/
theorem RaisedOn.ne_none {d : Decoded} {s : State} {c : Err} (h : RaisedOn d s c) : c ≠ .none := by
  rintro rfl
  exact h

/-- Outside phase FAULT a command without an entry in the table of R106 raises ERR_SEQ. -/
theorem exec_seq_faulted {i : Instr} {s : State} (hw : i.wellFormed = true) (hp : s.phase ≠ .fault)
    (h : phaseAfter i s.phase = none) : exec i s = .next (faulted .seq s) := by
  rw [exec_outOfPhase hw h, outOfPhase, if_neg hp]

/-- On a row of the table the step is that row's fault. -/
theorem step_of_raisedOn {s : State} {w : CmdWord} {rest : List HostInput} {c : Err}
    (hin : s.hostIn = .word w :: rest) (hp : s.phase ≠ .fault) (h : RaisedOn (decode w) { s with hostIn := rest } c) :
    step s = .next (faulted c { s with hostIn := rest }) := by
  cases c with
  | none => exact h.elim
  | illegal =>
    obtain ⟨why, hd⟩ := h
    exact (illegalWordsAreTheListedOnesAndFault.2 s w rest why hin hd).1 hp
  | seq =>
    obtain ⟨i, hd, hout⟩ := h
    exact (step_command hin hd).trans (exec_seq_faulted (wellFormed_of_decode hd) hp hout)
  | overflow =>
    obtain ⟨hcount, hlen, sym, hd⟩ := h
    exact (step_command hin hd).trans (exec_count_overflow hcount hlen sym)
  | noCode =>
    obtain ⟨hpack, sym, hd, hcode⟩ := h
    exact (step_command hin hd).trans (exec_pack_withoutCode hpack hcode)
  | degenerate =>
    obtain ⟨hbuilt, hroot, hd⟩ := h
    exact (step_command hin hd).trans (exec_derive_leafRoot hbuilt hroot)
  | pass =>
    obtain ⟨hpack, ⟨hfull, sym, hd, hcode⟩ | ⟨hroom, hd⟩⟩ := h
    · exact (step_command hin hd).trans (exec_pack_withoutRoom hpack hcode hfull)
    · exact (step_command hin hd).trans (exec_finish_early hpack hroom)
  | io => exact (step_command hin h).trans (exec_abort_faulted hp)

/-- Under the invariant every symbol has a code and the root is node 510 (R84, R97). -/
theorem reachable_of_raisedOn {d : Decoded} {s : State} {c : Err} (hs : Inv s) (h : RaisedOn d s c) :
    c ≠ .noCode ∧ c ≠ .degenerate := by
  constructor <;> rintro rfl
  · obtain ⟨hpack, sym, -, hcode⟩ := h
    exact absurd (codeV_of_inv hs hpack sym) (by rw [hcode]; decide)
  · obtain ⟨hbuilt, hroot, -⟩ := h
    rw [(treeBuilt_of_inv hs (.inl hbuilt)).root] at hroot
    exact absurd hroot (by decide)

/-! ### What a word can do (R113) -/

/-- What phase FAULT accepts (R106). -/
def AcceptedInFault (d : Decoded) : Prop := d = .command .clear ∨ ∃ reg, d = .command (.rdreg reg)

theorem acceptedInFault_iff (i : Instr) : AcceptedInFault (.command i) ↔ (phaseAfter i .fault).isSome := by
  cases i <;> simp [AcceptedInFault, phaseAfter]

/-- Everything a word that decodes to `d` can do in state `s`: raise the fault of a row of the table; in phase FAULT, be
refused; or complete with rsp_err = 0, as CLEAR, as a read, or by work that neither starts nor ends in phase FAULT and
leaves ERR as it was. -/
inductive WordOutcome (d : Decoded) (s : State) : State → Prop
  | faulted {c : Err} (hp : s.phase ≠ .fault) (hc : RaisedOn d s c) : WordOutcome d s (faulted c s)
  | refused (hp : s.phase = .fault) (hd : ¬ AcceptedInFault d) : WordOutcome d s (refusedIn s)
  | cleared (hd : d = .command .clear) : WordOutcome d s (answered 0#32 (clearState s))
  | read {data : RspData} (hd : s.phase = .fault → AcceptedInFault d) : WordOutcome d s (answered data s)
  | worked {t : State} {bytes : List Byte} {data : RspData} (hp : s.phase ≠ .fault) (ht : t.phase ≠ .fault)
      (herr : t.err = s.err) (hout : t.portOut = s.portOut ++ bytes.map .byte) : WordOutcome d s (answered data t)

/-- An illegal word raises ERR_ILLEGAL or is refused (R55, R56). -/
theorem illegalWord_outcome (why : Illegal) (s : State) : WordOutcome (.illegal why) s (illegalWord s) := by
  rw [illegalWord_eq]
  by_cases hp : s.phase = .fault
  · rw [raise_eq_refusedIn _ hp]
    exact .refused hp (by rintro (hd | ⟨reg, hd⟩) <;> cases hd)
  · rw [raise_eq_faulted _ hp]
    exact .faulted hp ⟨why, rfl⟩

/-- A command without an entry in the table of R106 raises ERR_SEQ or is refused. -/
theorem outOfPhase_outcome {i : Instr} {s : State} (h : phaseAfter i s.phase = none) :
    WordOutcome (.command i) s (outOfPhase s) := by
  unfold outOfPhase
  split
  · next hp => exact .refused hp (by rw [acceptedInFault_iff, ← hp, h]; decide)
  · next hp => exact .faulted hp ⟨i, rfl, h⟩

/-- PACK puts its bytes, and nothing else, on the output port before it responds (R93). -/
theorem packSymbol_portOut (sym : Sym) (s : State) :
    ∃ bytes : List Byte, (packSymbol sym s).portOut = s.portOut ++ bytes.map .byte := by
  obtain ⟨bytes, -, -, -, -, hframe⟩ := packSymbol_spec sym s
  exact ⟨bytes, congrArg State.portOut hframe⟩

/-- FINISH puts at most its last byte there (R95). -/
theorem padLastByte_portOut (s : State) :
    ∃ bytes : List Byte, (padLastByte s).portOut = s.portOut ++ bytes.map .byte := by
  by_cases hn : s.accN = 0#3
  · exact ⟨[], by simp [padLastByte_zero hn]⟩
  · exact ⟨[_], congrArg State.portOut (padLastByte_pending hn).1⟩

/-- A command in its phase: each of its own tests either is a row of the table or lets it complete. -/
theorem accepted_outcome {i : Instr} {s : State} {p : Phase} (hw : i.wellFormed = true)
    (h : phaseAfter i s.phase = some p) : ∃ t, exec i s = .next t ∧ WordOutcome (.command i) s t := by
  cases i with
  | clear => exact ⟨_, exec_clear_answered s, .cleared rfl⟩
  | count sym =>
    obtain ⟨hp, rfl⟩ := entry_of_single rfl rfl h
    have hf : s.phase ≠ .fault := by rw [hp]; decide
    by_cases hlen : s.inlen = maxLen
    · exact ⟨_, exec_count_overflow hp hlen sym, .faulted hf ⟨hp, hlen, sym, rfl⟩⟩
    · exact ⟨_, exec_count_answered hp hlen sym, .worked (bytes := []) hf hf rfl (List.append_nil _).symm⟩
  | build =>
    obtain ⟨hp, rfl⟩ := entry_of_single rfl rfl h
    exact ⟨_, exec_build hp, .worked (bytes := []) (by rw [hp]; decide) (by simp) (buildTree_err s) (by simp)⟩
  | derive =>
    obtain ⟨hp, rfl⟩ := entry_of_single rfl rfl h
    have hf : s.phase ≠ .fault := by rw [hp]; decide
    by_cases hroot : s.root.toNat < 256
    · exact ⟨_, exec_derive_leafRoot hp hroot, .faulted hf ⟨hp, hroot, rfl⟩⟩
    · exact ⟨_, exec_derive_internalRoot hp (Nat.le_of_not_lt hroot),
        .worked (bytes := []) hf (by simp) (deriveTable_err s) (by simp)⟩
  | pack sym =>
    obtain ⟨hp, rfl⟩ := entry_of_single rfl rfl h
    have hf : s.phase ≠ .fault := by rw [hp]; decide
    by_cases hcode : symEntry s.codeV sym = true
    · by_cases hfull : s.pklen = s.inlen
      · exact ⟨_, exec_pack_withoutRoom hp hcode hfull, .faulted hf ⟨hp, .inl ⟨hfull, sym, rfl, hcode⟩⟩⟩
      · obtain ⟨bytes, hout⟩ := packSymbol_portOut sym s
        exact ⟨_, exec_pack_accepted hp hcode hfull,
          .worked hf (by rwa [packSymbol_phase]) (packSymbol_err sym s) hout⟩
    · have hcode : symEntry s.codeV sym = false := Bool.eq_false_of_not_eq_true hcode
      exact ⟨_, exec_pack_withoutCode hp hcode, .faulted hf ⟨hp, sym, rfl, hcode⟩⟩
  | finish =>
    obtain ⟨hp, rfl⟩ := entry_of_single rfl rfl h
    have hf : s.phase ≠ .fault := by rw [hp]; decide
    by_cases hfull : s.pklen = s.inlen
    · obtain ⟨bytes, hout⟩ := padLastByte_portOut s
      exact ⟨_, exec_finish_accepted hp hfull, .worked hf (by simp) (padLastByte_err s) hout⟩
    · exact ⟨_, exec_finish_early hp hfull, .faulted hf ⟨hp, .inr ⟨hfull, rfl⟩⟩⟩
  | abort =>
    have hf : s.phase ≠ .fault := by rintro hf; rw [hf] at h; cases h
    exact ⟨_, exec_abort_faulted hf, .faulted hf rfl⟩
  | _ =>
    obtain ⟨data, hexec⟩ := exec_read_accepted rfl hw (mem_acceptedPhases h)
    exact ⟨_, hexec, .read fun hf => (acceptedInFault_iff _).mpr (by rw [← hf, h]; rfl)⟩

/-- The inversion of the step at a word: the decoder's answer, then the table of R106. -/
theorem step_wordOutcome {s : State} {w : CmdWord} {rest : List HostInput} (hin : s.hostIn = .word w :: rest) :
    ∃ t, step s = .next t ∧ WordOutcome (decode w) { s with hostIn := rest } t := by
  cases hd : decode w with
  | illegal why => exact ⟨_, step_illegal hin hd, illegalWord_outcome why _⟩
  | command i =>
    have hw := wellFormed_of_decode hd
    rw [step_command hin hd]
    cases hentry : phaseAfter i s.phase with
    | none => exact ⟨_, exec_outOfPhase hw hentry, outOfPhase_outcome hentry⟩
    | some p => exact accepted_outcome hw hentry

/-! ### Which fault is raised when (R112) -/

/-- Only a row of the table leads into phase FAULT. -/
theorem WordOutcome.raisedOn {d : Decoded} {s t : State} (h : WordOutcome d s t) (hs : s.phase ≠ .fault)
    (ht : t.phase = .fault) : ∃ c, RaisedOn d s c ∧ t = Claims.faulted c s := by
  cases h with
  | faulted _ hc => exact ⟨_, hc, rfl⟩
  | refused hp => exact absurd hp hs
  | cleared => cases ht
  | read => exact absurd ht hs
  | worked _ hne => exact absurd ht hne

/-- Under the invariant ERR is zero outside phase FAULT, so only a fault writes another code. -/
theorem WordOutcome.err_reachable {d : Decoded} {s t : State} (h : WordOutcome d s t) (hs : s.phase ≠ .fault)
    (hinv : Inv s) : t.err ≠ .noCode ∧ t.err ≠ .degenerate := by
  have herr : s.err = .none := (hinv.stage rfl hs).1
  have reachable {e : Err} (he : e = .none) : e ≠ .noCode ∧ e ≠ .degenerate := by
    rw [he]
    decide
  cases h with
  | faulted _ hc => exact reachable_of_raisedOn hinv hc
  | refused hp => exact absurd hp hs
  | cleared => exact reachable rfl
  | read => exact reachable herr
  | worked _ _ hkept => exact reachable (hkept.trans herr)

/-- Outside phase FAULT a word raises a fault exactly on that fault's row; a fault state tells its code by ERR. -/
theorem eq_faulted_iff_raisedOn {s t : State} {w : CmdWord} {rest : List HostInput} (hin : s.hostIn = .word w :: rest)
    (hp : s.phase ≠ .fault) (hstep : step s = .next t) (c : Err) :
    t = faulted c { s with hostIn := rest } ↔ RaisedOn (decode w) { s with hostIn := rest } c := by
  constructor
  · rintro rfl
    obtain ⟨t, ht, houtcome⟩ := step_wordOutcome hin
    obtain rfl := Host.Outcome.next.inj (hstep.symm.trans ht)
    obtain ⟨c', hc', heq⟩ := houtcome.raisedOn hp rfl
    obtain rfl : c = c' := congrArg State.err heq
    exact hc'
  · intro hc
    exact Host.Outcome.next.inj (hstep.symm.trans (step_of_raisedOn hin hp hc))

/-- Settles O12: each row by `eq_faulted_iff_raisedOn`; that nothing else leads to FAULT, and what the invariant shuts
out, by the inversion of the step. -/
theorem faultsAreRaisedExactlyAsTabled : Obligations.FaultsAreRaisedExactlyAsTabled := by
  unfold Obligations.FaultsAreRaisedExactlyAsTabled
  refine ⟨by decide, fun s t w rest hin hp hstep => ?rows⟩
  case rows =>
    have row := eq_faulted_iff_raisedOn hin hp hstep
    obtain ⟨u, hu, houtcome⟩ := step_wordOutcome hin
    obtain rfl := Host.Outcome.next.inj (hstep.symm.trans hu)
    refine ⟨row .illegal, row .seq, row .overflow, row .noCode, row .degenerate, row .pass, row .io, fun ht => ?_,
      fun hinv => houtcome.err_reachable hp (hinv.congr rfl)⟩
    obtain ⟨c, hc, heq⟩ := houtcome.raisedOn hp ht
    exact ⟨c, hc.ne_none, heq⟩

/-! ### Precise and sticky (R113) -/

/-- A response that no byte precedes. -/
theorem response_withoutBytes (out : List PortOutput) (r : PortOutput) :
    out ++ [r] = out ++ ([] : List Byte).map .byte ++ [r] :=
  congrArg (· ++ [r]) (List.append_nil out).symm

/-- `rst` leads to phase COUNT with ERR zero (R118, R128). -/
theorem step_rst_table {s : State} {rest : List HostInput} (hin : s.hostIn = .rst :: rest) :
    ∃ t, step s = .next t ∧ t.phase = .count ∧ t.err = .none :=
  ⟨_, step_rst hin, clearState_phase _, clearState_err _⟩

/-- Settles O38: the five things a word can do, each with its rsp_err: 1 for a fault outside phase FAULT and a refusal
in it, 0 for CLEAR, a read and completed work. -/
theorem faultsArePreciseAndSticky : Obligations.FaultsArePreciseAndSticky := by
  unfold Obligations.FaultsArePreciseAndSticky
  refine ⟨fun s rest => step_rst_table, fun s w rest hin => ?word⟩
  case word =>
    obtain ⟨t, hstep, houtcome⟩ := step_wordOutcome hin
    -- In each case: the response, what rsp_err = 1 means (three clauses), rsp_err = 0, and phase FAULT (two clauses).
    cases houtcome with
    | faulted hp hc =>
      exact ⟨_, [], true, _, hstep, response_withoutBytes _ _, fun _ => ⟨rfl, rfl⟩,
        fun _ _ => ⟨_, hc.ne_none, rfl⟩, fun _ hf => absurd hf hp, nofun,
        fun hf => absurd hf hp, fun hf => absurd hf hp⟩
    | refused hp hd =>
      exact ⟨_, [], true, _, hstep, response_withoutBytes _ _, fun _ => ⟨rfl, rfl⟩, fun _ hne => absurd hp hne,
        fun _ _ => rfl, nofun, fun _ => iff_of_false nofun hd, fun _ hne => absurd hp hne⟩
    | cleared hd =>
      exact ⟨_, [], false, _, hstep, response_withoutBytes _ _, nofun, nofun, nofun, nofun,
        fun _ => iff_of_true rfl (.inl hd), fun _ _ => ⟨hd, rfl⟩⟩
    | read hd =>
      exact ⟨_, [], false, _, hstep, response_withoutBytes _ _, nofun, nofun, nofun, fun _ hf => ⟨hf, rfl⟩,
        fun hf => iff_of_true rfl (hd hf), fun hf hne => absurd hf hne⟩
    | worked hp ht herr hout =>
      exact ⟨_, _, false, _, hstep, congrArg (· ++ _) hout, nofun, nofun, nofun, fun _ hf => absurd hf ht,
        fun hf => absurd hf hp, fun hf => absurd hf hp⟩

end Sys2Proof.Proofs

namespace Sys2Proof.Proofs

open Sys2Proof.Machine Sys2Proof.Claims

/-! ### The event `rst` (R128, R129) -/

/-- `rst` writes what CLEAR writes, from the state with `rst` taken off the queue; it adds no response. -/
theorem step_rst_clearState {s : State} {rest : List HostInput} (hin : s.hostIn = .rst :: rest) :
    step s = .next (clearState { s with hostIn := rest }) :=
  step_rst hin

/-- `done` and `fault` show two other phases (R121). -/
theorem pins_low_of_count {s : State} (hp : s.phase = .count) : donePin s = false ∧ faultPin s = false := by
  simp [donePin, faultPin, hp]

/-- Settles O9: `rst` leaves `clearState`, whose fields are the reset table's, and CLEAR answers that same state. -/
theorem rstGivesTheResetTable : Obligations.RstGivesTheResetTable := by
  unfold Obligations.RstGivesTheResetTable
  refine fun s rest hin => ⟨_, step_rst_clearState hin, ⟨_, exec_clear_answered _, ?clear⟩, ?table⟩
  case clear => exact sameSpecified_answered (clearState_sameSpecified rfl rfl) _
  case table => simp [pins_low_of_count]

end Sys2Proof.Proofs

namespace Sys2Proof.Proofs

open Sys2Proof.Machine Sys2Proof.Claims

/-! ### The fields of an encoded word (R46, R47) -/

/-- Sub and arg are the twelve bits below the opcode. -/
theorem opField_of_toNat {w : CmdWord} {op : BitVec 4} {low : Nat} (hw : w.toNat = 4096 * op.toNat + low)
    (hlow : low < 4096) : opField w = op := by
  apply BitVec.eq_of_toNat_eq
  rw [opField_toNat]
  omega

theorem opField_encodeS (op : BitVec 4) (sym : Sym) : opField (encodeS op sym) = op :=
  opField_of_toNat (encodeS_toNat op sym) (by have := sym.isLt; omega)

/-- Format Z is format S with the symbol 0. -/
theorem opField_encodeZ (op : BitVec 4) : opField (encodeZ op) = op := opField_encodeS op 0#8

/-- Format R has the word of format S. -/
theorem opField_encodeR (op : BitVec 4) (reg : BitVec 8) : opField (encodeR op reg) = op := opField_encodeS op reg

theorem opField_encodeN (op : BitVec 4) (id : NodeId) : opField (encodeN op id) = op :=
  opField_of_toNat (encodeN_toNat op id) (by have := id.isLt; omega)

theorem opField_encodeW (op : BitVec 4) (sym : Sym) (w : BitVec 3) : opField (encodeW op sym w) = op :=
  opField_of_toNat ((encodeW_toNat op sym w).trans (Nat.add_assoc ..)) (by have := sym.isLt; have := w.isLt; omega)

theorem subField_encodeS (op : BitVec 4) (sym : Sym) : subField (encodeS op sym) = 0#4 := by
  have hsym := sym.isLt
  rw [subField_eq_zero_iff, encodeS_toNat]
  omega

theorem argField_encodeS (op : BitVec 4) (sym : Sym) : argField (encodeS op sym) = sym := by
  have hsym := sym.isLt
  apply BitVec.eq_of_toNat_eq
  rw [argField_toNat, encodeS_toNat]
  omega

theorem subHighBits_encodeN (op : BitVec 4) (id : NodeId) : (encodeN op id).extractLsb' 9 3 = 0#3 := by
  have hid := id.isLt
  rw [subHighBits_eq_zero_iff, encodeN_toNat]
  omega

theorem idField_encodeN (op : BitVec 4) (id : NodeId) : idField (encodeN op id) = id := by
  have hid := id.isLt
  apply BitVec.eq_of_toNat_eq
  rw [idField_toNat, encodeN_toNat]
  omega

theorem subTopBit_encodeW (op : BitVec 4) (sym : Sym) (w : BitVec 3) :
    (encodeW op sym w).extractLsb' 11 1 = 0#1 := by
  have hsym := sym.isLt
  have hw := w.isLt
  rw [subTopBit_eq_zero_iff, encodeW_toNat]
  omega

theorem argField_encodeW (op : BitVec 4) (sym : Sym) (w : BitVec 3) : argField (encodeW op sym w) = sym := by
  have hsym := sym.isLt
  apply BitVec.eq_of_toNat_eq
  rw [argField_toNat, encodeW_toNat]
  omega

/-- w = sub[2:0] as a number. -/
theorem codeWordField_toNat (w : CmdWord) : (codeWordField w).toNat = w.toNat / 256 % 8 := by
  simp [codeWordField, Nat.shiftRight_eq_div_pow]

theorem codeWordField_encodeW (op : BitVec 4) (sym : Sym) (w : BitVec 3) : codeWordField (encodeW op sym w) = w := by
  have hsym := sym.isLt
  have hw := w.isLt
  apply BitVec.eq_of_toNat_eq
  rw [codeWordField_toNat, encodeW_toNat]
  omega

/-! ### Decoding a word of each format (R46, R49) -/

theorem decodeZ_encodeZ (i : Instr) (op : BitVec 4) : decodeZ i (encodeZ op) = .command i :=
  if_pos ⟨subField_encodeS op 0#8, argField_encodeS op 0#8⟩

theorem decodeS_encodeS (i : Sym → Instr) (op : BitVec 4) (sym : Sym) :
    decodeS i (encodeS op sym) = .command (i sym) := by
  rw [decodeS, if_pos (subField_encodeS op sym), argField_encodeS]

theorem decodeR_encodeR (i : BitVec 8 → Instr) (op : BitVec 4) {reg : BitVec 8} (h : reg.toNat ≤ 10) :
    decodeR i (encodeR op reg) = .command (i reg) := by
  have hsub : subField (encodeR op reg) = 0#4 := subField_encodeS op reg
  have harg : argField (encodeR op reg) = reg := argField_encodeS op reg
  rw [decodeR, if_pos hsub, harg, if_pos h]

theorem decodeN_encodeN (i : NodeId → Instr) (op : BitVec 4) {id : NodeId} (h : id.toNat ≤ 510) :
    decodeN i (encodeN op id) = .command (i id) := by
  rw [decodeN, if_pos (subHighBits_encodeN op id), idField_encodeN, if_pos h]

theorem decodeW_encodeW (i : Sym → BitVec 3 → Instr) (op : BitVec 4) (sym : Sym) (w : BitVec 3) :
    decodeW i (encodeW op sym w) = .command (i sym w) := by
  rw [decodeW, if_pos (subTopBit_encodeW op sym w), argField_encodeW, codeWordField_encodeW]

/-! ### The round trips (R49) -/

/-- Settles O1: the opcode selects the command's row of the map, whose format gives the operands back. -/
theorem decodingAnEncodedCommandGivesItBack : Obligations.DecodingAnEncodedCommandGivesItBack := by
  unfold Obligations.DecodingAnEncodedCommandGivesItBack
  intro i hw
  cases i with
  | clear | build | derive | finish | abort =>
    rw [encode, decode, opField_encodeZ]
    exact decodeZ_encodeZ _ _
  | count sym | pack sym | rdfreq sym | rdclen sym =>
    rw [encode, decode, opField_encodeS]
    exact decodeS_encodeS _ _ sym
  | rdreg reg =>
    rw [encode, decode, opField_encodeR]
    exact decodeR_encodeR _ _ (of_decide_eq_true hw)
  | rdnodew id | rdnodel id =>
    rw [encode, decode, opField_encodeN]
    exact decodeN_encodeN _ _ (of_decide_eq_true hw)
  | rdcode sym w =>
    rw [encode, decode, opField_encodeW]
    exact decodeW_encodeW _ _ sym w

/-- A word of format S is its opcode and its symbol. -/
theorem encodeS_fields {w : CmdWord} {op : BitVec 4} (hop : (opField w).toNat = op.toNat) (hsub : subField w = 0#4) :
    encodeS op (argField w) = w := by
  rw [subField_eq_zero_iff] at hsub
  rw [opField_toNat] at hop
  apply BitVec.eq_of_toNat_eq
  rw [encodeS_toNat, argField_toNat]
  omega

/-- A word of format Z is its opcode. -/
theorem encodeZ_fields {w : CmdWord} {op : BitVec 4} (hop : (opField w).toNat = op.toNat) (hsub : subField w = 0#4)
    (harg : argField w = 0#8) : encodeZ op = w := by
  have hw := encodeS_fields hop hsub
  rwa [harg] at hw

/-- A word of format N is its opcode and its node id. -/
theorem encodeN_fields {w : CmdWord} {op : BitVec 4} (hop : (opField w).toNat = op.toNat)
    (hsub : w.extractLsb' 9 3 = 0#3) : encodeN op (idField w) = w := by
  rw [subHighBits_eq_zero_iff] at hsub
  rw [opField_toNat] at hop
  apply BitVec.eq_of_toNat_eq
  rw [encodeN_toNat, idField_toNat]
  omega

/-- A word of format W is its opcode, its code word index and its symbol. -/
theorem encodeW_fields {w : CmdWord} {op : BitVec 4} (hop : (opField w).toNat = op.toNat)
    (hsub : w.extractLsb' 11 1 = 0#1) : encodeW op (argField w) (codeWordField w) = w := by
  rw [subTopBit_eq_zero_iff] at hsub
  rw [opField_toNat] at hop
  apply BitVec.eq_of_toNat_eq
  rw [encodeW_toNat, argField_toNat, codeWordField_toNat]
  omega

/-- The command a word decodes to has that word: what the format's tests require is what its encoding leaves zero. -/
theorem encode_of_decode {w : CmdWord} {i : Instr} (h : decode w = .command i) : encode i = w := by
  unfold decode at h
  split at h
  case h_1 _ hop | h_3 _ hop | h_4 _ hop | h_6 _ hop | h_7 _ hop =>
    obtain ⟨⟨hsub, harg⟩, hi⟩ := ite_command_iff.mp h
    cases hi
    exact encodeZ_fields hop hsub harg
  case h_2 _ hop | h_5 _ hop | h_9 _ hop | h_12 _ hop =>
    obtain ⟨hsub, hi⟩ := ite_command_iff.mp h
    cases hi
    exact encodeS_fields hop hsub
  case h_8 _ hop =>
    obtain ⟨hsub, hrange⟩ := ite_command_iff.mp h
    cases (ite_command_iff.mp hrange).2
    exact encodeS_fields hop hsub
  case h_10 _ hop | h_11 _ hop =>
    obtain ⟨hsub, hrange⟩ := ite_command_iff.mp h
    cases (ite_command_iff.mp hrange).2
    exact encodeN_fields hop hsub
  case h_13 _ hop =>
    obtain ⟨hsub, hi⟩ := ite_command_iff.mp h
    cases hi
    exact encodeW_fields hop hsub
  case h_14 => cases h

/-- Settles O2: `wellFormed_of_decode` and `encode_of_decode`. -/
theorem encodingADecodedWordGivesItBack : Obligations.EncodingADecodedWordGivesItBack :=
  fun _ _ h => ⟨wellFormed_of_decode h, encode_of_decode h⟩

/-! ### The words as numbers and as bits (R46, R50 to R54) -/

/-- Settles O3: the sum of each format's fields at their places. -/
theorem commandWordsAreTheirFormulas : Obligations.CommandWordsAreTheirFormulas := by
  unfold Obligations.CommandWordsAreTheirFormulas
  exact ⟨by decide, by decide, by decide, by decide, by decide,
    fun sym => ⟨encodeS_toNat _ sym, encodeS_toNat _ sym, encodeS_toNat _ sym, encodeS_toNat _ sym⟩,
    fun reg _ => encodeR_toNat _ reg, fun id _ => ⟨encodeN_toNat _ id, encodeN_toNat _ id⟩,
    fun sym w => encodeW_toNat _ sym w⟩

/-- Settles O5: thirteen closed words, each decoded. -/
theorem specWordsDecodeToTheirCommands : Obligations.SpecWordsDecodeToTheirCommands := by
  unfold Obligations.SpecWordsDecodeToTheirCommands
  decide

end Sys2Proof.Proofs

namespace Sys2Proof.Proofs

open Sys2Proof.Machine Sys2Proof.Claims

/-! ### The invariant (R25) -/

/-- The state after reset stands in the first line of R25. -/
theorem initial_inv (epoch : Nat) : Inv (State.initial epoch) := by
  refine .of_stage (p := .count) rfl (by decide) rfl ⟨?total, ?tree, rfl, ?packer⟩
  case total => exact freqTotal_initial epoch
  case tree => exact ⟨rfl, rfl, rfl, rfl⟩
  case packer => exact ⟨rfl, rfl, rfl, rfl, rfl, rfl, rfl⟩

/-- What a command does in a state that meets the invariant meets it, if ERR is none of the two unreachable codes
afterwards. -/
theorem Executed.keeps_inv {i : Instr} {s t : State} (h : Executed i s t) (hs : Inv s)
    (herr : s.phase ≠ .fault → t.err ≠ .noCode ∧ t.err ≠ .degenerate) : Inv t := by
  cases h with
  | @raised _ _ e he =>
    by_cases hp : s.phase = .fault
    · rw [raise_fault e hp]
      exact hs.respond _ _
    · have hcode := herr hp
      rw [raise_eq_faulted e hp] at hcode
      exact hs.raise he hcode.1 hcode.2
  | read => exact hs.respond _ _
  | clear => exact (clearState_inv s).respond _ _
  | @count _ sym hp hlen => exact (countSymbol_inv hs hp sym hlen).respond _ _
  | build hp => exact (buildTree_inv hs hp).respond _ _
  | derive hp => exact (deriveTable_inv hs hp).respond _ _
  | @pack _ sym hp _ hlen => exact (packSymbol_inv hs hp sym hlen).respond _ _
  | finish hp hlen => exact (padLastByte_inv hs hp hlen).respond _ _

/-- Settles O44: by what is presented; a command by `Executed.keeps_inv`, where the two codes are shut out by
`WordOutcome.err_reachable`. -/
theorem everyStepKeepsTheInvariant : Obligations.EveryStepKeepsTheInvariant := by
  unfold Obligations.EveryStepKeepsTheInvariant
  intro s t hinv hstep
  cases hin : s.hostIn with
  | nil =>
    obtain rfl := Host.Outcome.next.inj ((step_nil hin).symm.trans hstep)
    exact hinv
  | cons x rest =>
    have htaken : Inv { s with hostIn := rest } := hinv.congr rfl
    cases x with
    | rst =>
      obtain rfl := Host.Outcome.next.inj ((step_rst_clearState hin).symm.trans hstep)
      exact clearState_inv _
    | word w =>
      cases hd : decode w with
      | illegal why =>
        obtain rfl := Host.Outcome.next.inj ((step_illegal hin hd).symm.trans hstep)
        rw [illegalWord_eq]
        exact htaken.raise (by decide) (by decide) (by decide)
      | command i =>
        obtain ⟨u, hu, houtcome⟩ := step_wordOutcome hin
        obtain rfl := Host.Outcome.next.inj (hu.symm.trans hstep)
        have hexecuted := executed_of_exec ((step_command hin hd).symm.trans hstep)
        exact hexecuted.keeps_inv htaken fun hp => houtcome.err_reachable hp htaken

/-- Settles O43: reset is the first epoch of `initial_inv`. -/
theorem invariantHoldsAtReset : Obligations.InvariantHoldsAtReset := initial_inv 0

/-! ### The step (R9, R116, R127) -/

/-- Settles O6: the step's equation for a legal word. -/
theorem stepRunsTheDecodedCommand : Obligations.StepRunsTheDecodedCommand :=
  fun _ _ _ _ hin hd => step_command hin hd

/-- Settles O7: the step's equation for an empty queue. -/
theorem stepWithoutInputHoldsTheState : Obligations.StepWithoutInputHoldsTheState := fun _ hin => step_nil hin

/-- The step answers a next state, whatever is presented. -/
theorem step_next (s : State) : ∃ t, step s = .next t := by
  cases hin : s.hostIn with
  | nil => exact ⟨s, step_nil hin⟩
  | cons x rest =>
    cases x with
    | rst => exact ⟨_, step_rst hin⟩
    | word w =>
      obtain ⟨t, ht, -⟩ := step_wordOutcome hin
      exact ⟨t, ht⟩

/-- Settles O8: no arm faults or is refused by the model. -/
theorem everyStepAnswersANextState : Obligations.EveryStepAnswersANextState := ⟨step_next, exec_next⟩

/-! ### Reset and the level outputs (R26, R121) -/

/-- Settles O10: the fields of `State.initial` at the first epoch. -/
theorem resetStateHasTheTableValues : Obligations.ResetStateHasTheTableValues := by
  unfold Obligations.ResetStateHasTheTableValues
  exact ⟨rfl, rfl, rfl, rfl, rfl, rfl, rfl, rfl, rfl, rfl, rfl, rfl, rfl, rfl, rfl, rfl, rfl, by decide⟩

/-- Settles O13: each output compares PHASE with one phase, and the five phases have five codes. -/
theorem levelOutputsFollowPhase : Obligations.LevelOutputsFollowPhase := by
  unfold Obligations.LevelOutputsFollowPhase
  refine ⟨fun s => ?pins, pins_low_of_count rfl⟩
  case pins => cases hp : s.phase <;> simp [donePin, faultPin, phaseCode, hp]

end Sys2Proof.Proofs

namespace Sys2Proof.Proofs

open Sys2Proof.Machine Sys2Proof.Claims

/-! ### The loop of BUILD is 255 merges (R70 points 1 and 2) -/

theorem merging_iterate (s : State) : ∀ {k : Nat}, k ≤ 255 → Merging k (mergeStep^[k] (seed s)) := by
  intro k
  induction k with
  | zero => exact fun _ => merging_seed s
  | succ k ih =>
    intro hk
    rw [Function.iterate_succ_apply']
    exact (ih (by omega)).step (by omega)

theorem qcount_of_merging {k : Nat} {s : State} (m : Merging k s) : s.qcount.toNat = 256 - k := by
  rw [m.qcount, BitVec.toNat_ofNat]
  exact Nat.mod_eq_of_lt (by omega)

theorem nextid_of_merging {k : Nat} {s : State} (m : Merging k s) : s.nextid.toNat = 256 + k := by
  have hk := m.le
  rw [m.nextid, BitVec.toNat_ofNat]
  exact Nat.mod_eq_of_lt (by omega)

/-- The loop runs until one member is left: after `k` merges it makes the `n` that are missing. -/
theorem mergeWhile_eq_iterate (n : Nat) : ∀ {bound k : Nat} {s : State}, Merging k s → k + n = 255 → n ≤ bound →
    mergeWhile bound s = mergeStep^[n] s := by
  induction n with
  | zero =>
    intro bound k s m hk _
    have hq := qcount_of_merging m
    cases bound with
    | zero => rfl
    | succ bound =>
      rw [mergeWhile, if_neg (by omega)]
      rfl
  | succ n ih =>
    intro bound k s m hk hbound
    have hq := qcount_of_merging m
    obtain ⟨bound, rfl⟩ : ∃ b, bound = b + 1 := ⟨bound - 1, by omega⟩
    rw [mergeWhile, if_pos (by omega), Function.iterate_succ_apply]
    exact ih (m.step (by omega)) (by omega) (by omega)

/-- A merge finds both members it takes: two or more are left before it. -/
theorem both_found_of_merging {k : Nat} {s : State} (m : Merging k s) (hk : k < 255) :
    ∃ a t b u, extractMin s = some (a, t) ∧ extractMin t = some (b, u) := by
  have hcard := m.card
  obtain ⟨a, ha, hfirst⟩ := extractMin_spec s (Finset.card_pos.mp (by omega))
  have hrest : (members (s.inq.set a.val false)).Nonempty := by
    rw [members_set_false, ← Finset.card_pos, Finset.card_erase_of_mem (mem_members.mpr ha.1)]
    omega
  obtain ⟨b, -, hsecond⟩ := extractMin_spec { s with inq := s.inq.set a.val false, qcount := s.qcount - 1#9 } hrest
  exact ⟨a, _, b, _, hfirst, hsecond⟩

/-- Settles O20: the loop invariant `Merging` holds after each merge, and has the counters and the members. -/
theorem buildMergesExactly255Times : Obligations.BuildMergesExactly255Times := by
  unfold Obligations.BuildMergesExactly255Times
  refine fun s => ⟨mergeWhile_eq_iterate 255 (merging_seed s) rfl (by decide), fun k hk => ?_⟩
  have m := merging_iterate s hk
  exact ⟨qcount_of_merging m, nextid_of_merging m, both_found_of_merging m⟩

/-! ### The state after an accepted BUILD -/

/-- BUILD's answer, with a name for the built tree: its unfoldings are too large to compare. -/
theorem exec_build_inversion {s t : State} (hp : s.phase = .count) (hexec : exec .build s = .next t) :
    ∃ u, buildTree s = u ∧ t = respondStatus u :=
  ⟨_, rfl, Host.Outcome.next.inj (hexec.symm.trans (exec_build hp))⟩

/-- The three arrays of the tree, read by `leftChild`, `rightChild` and `weight`, are determined by them. -/
theorem tree_arrays_eq {s t : State}
    (hchildren : ∀ k, leftChild s k = leftChild t k ∧ rightChild s k = rightChild t k)
    (hweights : ∀ id < 511, weight s id = weight t id) :
    s.nodeW = t.nodeW ∧ s.nodeL = t.nodeL ∧ s.nodeR = t.nodeR := by
  refine ⟨Vector.ext fun i hi => ?_, Vector.ext fun k hk => ?_, Vector.ext fun k hk => ?_⟩
  · have hw := hweights i hi
    rw [weight_eq s ⟨i, hi⟩, weight_eq t ⟨i, hi⟩] at hw
    exact BitVec.eq_of_toNat_eq hw
  · exact BitVec.eq_of_toNat_eq (hchildren ⟨k, hk⟩).1
  · exact BitVec.eq_of_toNat_eq (hchildren ⟨k, hk⟩).2

/-- The tree BUILD leaves is the one greedy tree of its frequencies (R70 point 7). -/
theorem buildTree_unique {s t : State} (ht : GreedyTree t) (hleaf : ∀ sym : Fin 256, weight t sym = s.freq[sym].toNat)
    (hinner : ∀ k : Fin 255, weight t (256 + k) = (weight t (leftChild t k) + weight t (rightChild t k)) % 2 ^ 32) :
    (∀ k, leftChild (buildTree s) k = leftChild t k ∧ rightChild (buildTree s) k = rightChild t k) ∧
      ∀ id < 511, weight (buildTree s) id = weight t id :=
  (buildTree_greedy s).1.unique ht (fun sym => (buildTree_leaf s sym).trans (hleaf sym).symm) (buildTree_inner s) hinner

/-- Equal frequencies give equal trees. -/
theorem buildTree_congr {s t : State} (hfreq : s.freq = t.freq) :
    (buildTree s).nodeW = (buildTree t).nodeW ∧ (buildTree s).nodeL = (buildTree t).nodeL ∧
      (buildTree s).nodeR = (buildTree t).nodeR := by
  obtain ⟨hchildren, hweights⟩ := buildTree_unique (s := s) (buildTree_greedy t).1
    (fun sym => (buildTree_leaf t sym).trans (by rw [hfreq])) (buildTree_inner t)
  exact tree_arrays_eq hchildren hweights

/-- Settles O22: BUILD's tree depends on the state by `buildTree_congr`, and its response does not touch the tree. -/
theorem buildDependsOnFreqAlone : Obligations.BuildDependsOnFreqAlone := by
  unfold Obligations.BuildDependsOnFreqAlone
  intro s s' t t' hp hp' hfreq hexec hexec'
  obtain ⟨u, hu, rfl⟩ := exec_build_inversion hp hexec
  obtain ⟨u', hu', rfl⟩ := exec_build_inversion hp' hexec'
  have htrees := buildTree_congr hfreq
  rw [hu, hu'] at htrees
  exact htrees

/-! ### Internal weights in creation order (R70 point 6) -/

/-- The two nodes a merge takes weigh no more than a node that still waits after it. -/
theorem taken_le_of_waiting_succ {t : State} (g : GreedyTree t) {k : Nat} (hk : k < 255) {id : Nat}
    (hid : waiting t (k + 1) id) (hne : id ≠ 256 + k) :
    weight t (leftChild t ⟨k, hk⟩) ≤ weight t id ∧ weight t (rightChild t ⟨k, hk⟩) ≤ weight t id := by
  obtain ⟨hlt, hfree⟩ := hid
  have hwait : waiting t k id := ⟨by omega, fun j hj => hfree j (by omega)⟩
  have htaken := hfree ⟨k, hk⟩ (Nat.lt_succ_self k)
  have hleft : id ≠ leftChild t ⟨k, hk⟩ := fun h => htaken (.inl h.symm)
  have hright : id ≠ rightChild t ⟨k, hk⟩ := fun h => htaken (.inr h.symm)
  have hfirst := g.left_least ⟨k, hk⟩ id hwait hleft
  have hsecond := g.right_least ⟨k, hk⟩ id hwait hleft hright
  omega

/-- The next merge takes the node just created, or two nodes that waited already. -/
theorem weight_le_succ {t : State} (g : GreedyTree t)
    (hinner : ∀ k : Fin 255, weight t (256 + k) = weight t (leftChild t k) + weight t (rightChild t k)) {k : Nat}
    (hk : k + 1 < 255) : weight t (256 + k) ≤ weight t (256 + (k + 1)) := by
  have hnow : weight t (256 + k) = _ := hinner ⟨k, by omega⟩
  have hnext : weight t (256 + (k + 1)) = _ := hinner ⟨k + 1, hk⟩
  rw [hnext]
  by_cases hl : leftChild t ⟨k + 1, hk⟩ = 256 + k
  · rw [hl]
    exact Nat.le_add_right _ _
  · by_cases hr : rightChild t ⟨k + 1, hk⟩ = 256 + k
    · rw [hr]
      exact Nat.le_add_left _ _
    · rw [hnow]
      exact Nat.add_le_add (taken_le_of_waiting_succ g (by omega) (g.left_waits ⟨k + 1, hk⟩) hl).1
        (taken_le_of_waiting_succ g (by omega) (g.right_waits ⟨k + 1, hk⟩) hr).2

theorem weight_mono_of_greedy {t : State} (g : GreedyTree t)
    (hinner : ∀ k : Fin 255, weight t (256 + k) = weight t (leftChild t k) + weight t (rightChild t k)) {j k : Nat}
    (hjk : j ≤ k) (hk : k < 255) : weight t (256 + j) ≤ weight t (256 + k) := by
  induction k, hjk using Nat.le_induction with
  | base => exact le_rfl
  | succ k _ ih => exact (ih (by omega)).trans (weight_le_succ g hinner hk)

/-- Settles O21: links and greedy choice of `buildTree_greedy`, exact weights of `buildTree_exact`, and with both the
order of the internal weights. -/
theorem builtTreeHasTheTreeProperties : Obligations.BuiltTreeHasTheTreeProperties := by
  unfold Obligations.BuiltTreeHasTheTreeProperties
  intro s t hp htotal hexec
  have hexact := buildTree_exact s (by rw [htotal]; exact s.inlen.isLt)
  have hbuilt := buildTree_greedy s
  have hleaf := buildTree_leaf s
  have hroot := buildTree_root s
  have hfreq := buildTree_freq s
  have hinlen := buildTree_inlen s
  obtain ⟨u, hu, rfl⟩ := exec_build_inversion hp hexec
  rw [hu] at hexact hbuilt hroot hfreq hinlen
  simp only [hu] at hleaf
  obtain ⟨hinner, htop⟩ := hexact
  obtain ⟨hgreedy, hlinks⟩ := hbuilt
  have hweights : TreeWeights u :=
    ⟨fun sym => by rw [hleaf, hfreq], hinner, by rw [htop, htotal, hinlen]⟩
  exact ⟨hlinks.congr rfl rfl, hweights.congr rfl rfl rfl rfl rfl, hroot,
    fun j k hjk => weight_mono_of_greedy hgreedy hinner hjk k.isLt⟩

end Sys2Proof.Proofs

namespace Sys2Proof.Proofs

open Sys2Proof.Machine Sys2Proof.Claims

/-! ### The order in which the merges take the nodes (R67, R68) -/

/-- Nodes taken two by two, each once it exists, in strictly increasing order of (weight, id), make the greedy tree. -/
theorem greedyTree_of_order {t : State} {z : Nat → Nat} (hleft : ∀ k : Fin 255, leftChild t k = z (2 * k))
    (hright : ∀ k : Fin 255, rightChild t k = z (2 * k + 1)) (hexists : ∀ i < 510, z i < 256 + i / 2)
    (hmono : ∀ i j, i < j → j < 510 → lighter t (z i) (z j)) (hall : ∀ id < 510, ∃ i < 510, z i = id) :
    GreedyTree t := by
  have hne {i j : Nat} (hij : i < j) (hj : j < 510) : z i ≠ z j := fun h => by
    have hlt := hmono i j hij hj
    rw [h] at hlt
    omega
  have hwaits {k : Fin 255} {i : Nat} (hlow : 2 * k.val ≤ i) (hhigh : i ≤ 2 * k.val + 1) : waiting t k (z i) := by
    refine ⟨(hexists i (by omega)).trans_le (by omega), fun j hj hchild => ?_⟩
    rw [childOf, hleft, hright] at hchild
    rcases hchild with h | h
    · exact hne (by omega) (by omega) h
    · exact hne (by omega) (by omega) h
  have hindex {k : Fin 255} {id : Nat} (hid : waiting t k id) : ∃ i, 2 * k.val ≤ i ∧ i < 510 ∧ z i = id := by
    obtain ⟨hlt, hfree⟩ := hid
    obtain ⟨i, hi, rfl⟩ := hall id (by omega)
    refine ⟨i, ?_, hi, rfl⟩
    by_contra hlow
    refine hfree ⟨i / 2, by omega⟩ (show i / 2 < k.val by omega) ?_
    rw [childOf, hleft, hright]
    rcases Nat.mod_two_eq_zero_or_one i with h | h
    · exact .inl (congrArg z (show 2 * (i / 2) = i by omega))
    · exact .inr (congrArg z (show 2 * (i / 2) + 1 = i by omega))
  constructor
  case left_waits =>
    intro k
    rw [hleft]
    exact hwaits le_rfl (by omega)
  case right_waits =>
    intro k
    rw [hright]
    exact hwaits (by omega) le_rfl
  case distinct =>
    intro k
    rw [hleft, hright]
    exact hne (by omega) (by omega)
  case left_least =>
    intro k id hid hnl
    obtain ⟨i, hlow, hi, rfl⟩ := hindex hid
    rw [hleft] at hnl ⊢
    exact hmono _ _ (lt_of_le_of_ne hlow fun h => hnl (congrArg z h.symm)) hi
  case right_least =>
    intro k id hid hnl hnr
    obtain ⟨i, hlow, hi, rfl⟩ := hindex hid
    rw [hleft] at hnl
    rw [hright] at hnr ⊢
    have h0 : i ≠ 2 * k.val := fun h => hnl (congrArg z h)
    have h1 : i ≠ 2 * k.val + 1 := fun h => hnr (congrArg z h)
    exact hmono _ _ (by omega) hi

/-- `s` with the tree whose nodes weigh `w` and are taken in the order `z`. -/
def withOrder (s : State) (w : Nat → Count) (z : Nat → Nat) : State :=
  { s with
    nodeW := Vector.ofFn fun id => w id
    nodeL := Vector.ofFn fun k => BitVec.ofNat 9 (z (2 * k))
    nodeR := Vector.ofFn fun k => BitVec.ofNat 9 (z (2 * k + 1)) }

section WithOrder
variable (s : State) {w : Nat → Count} {z : Nat → Nat}

theorem weight_withOrder {id : Nat} (hid : id < 511) : weight (withOrder s w z) id = (w id).toNat := by
  rw [weight, dif_pos hid, withOrder, Vector.getElem_ofFn]

theorem leftChild_withOrder (hz : ∀ i < 510, z i < 256 + i / 2) (k : Fin 255) :
    leftChild (withOrder s w z) k = z (2 * k) := by
  have hlt := hz (2 * k) (by omega)
  rw [leftChild, withOrder, Fin.getElem_fin, Vector.getElem_ofFn, BitVec.toNat_ofNat]
  exact Nat.mod_eq_of_lt (show z (2 * k) < 2 ^ 9 by omega)

theorem rightChild_withOrder (hz : ∀ i < 510, z i < 256 + i / 2) (k : Fin 255) :
    rightChild (withOrder s w z) k = z (2 * k + 1) := by
  have hlt := hz (2 * k + 1) (by omega)
  rw [rightChild, withOrder, Fin.getElem_fin, Vector.getElem_ofFn, BitVec.toNat_ofNat]
  exact Nat.mod_eq_of_lt (show z (2 * k + 1) < 2 ^ 9 by omega)

/-- The tree BUILD leaves is the one in whose order the nodes weigh more and more, when the weights are the frequencies
and their sums. -/
theorem buildTree_of_order (hz : ∀ i < 510, z i < 256 + i / 2) (hall : ∀ id < 510, ∃ i < 510, z i = id)
    (hmono : ∀ i j, i < j → j < 510 →
      (w (z i)).toNat < (w (z j)).toNat ∨ ((w (z i)).toNat = (w (z j)).toNat ∧ z i < z j))
    (hleaf : ∀ sym : Fin 256, w sym = s.freq[sym])
    (hinner : ∀ k < 255, w (256 + k) = w (z (2 * k)) + w (z (2 * k + 1))) :
    (∀ k : Fin 255, leftChild (buildTree s) k = z (2 * k) ∧ rightChild (buildTree s) k = z (2 * k + 1)) ∧
      ∀ id : Fin 511, (buildTree s).nodeW[id] = w id := by
  have hzlt {i : Nat} (hi : i < 510) : z i < 511 := (hz i hi).trans_le (by omega)
  have hgreedy : GreedyTree (withOrder s w z) := by
    refine greedyTree_of_order (leftChild_withOrder s hz) (rightChild_withOrder s hz) hz (fun i j hij hj => ?_) hall
    rw [lighter, weight_withOrder s (hzlt (hij.trans hj)), weight_withOrder s (hzlt hj)]
    exact hmono i j hij hj
  obtain ⟨hchildren, hweights⟩ := buildTree_unique (s := s) hgreedy
    (fun sym => by rw [weight_withOrder s (by omega), hleaf])
    (fun k => by
      rw [leftChild_withOrder s hz, rightChild_withOrder s hz, weight_withOrder s (by omega),
        weight_withOrder s (hzlt (by omega)), weight_withOrder s (hzlt (by omega)), hinner k k.isLt, BitVec.toNat_add])
  refine ⟨fun k => ?_, fun id => ?_⟩
  · rw [(hchildren k).1, (hchildren k).2, leftChild_withOrder s hz, rightChild_withOrder s hz]
    exact ⟨rfl, rfl⟩
  · apply BitVec.eq_of_toNat_eq
    rw [← weight_eq, hweights id id.isLt, weight_withOrder s id.isLt]

end WithOrder

/-! ### The empty input (R71, second bullet) -/

/-- When every node weighs 0 the nodes are taken in the order of their ids. -/
theorem buildTree_of_zero {s : State} (hfreq : ∀ sym : Fin 256, s.freq[sym] = 0#32) :
    (∀ k : Fin 255, leftChild (buildTree s) k = 2 * k ∧ rightChild (buildTree s) k = 2 * k + 1) ∧
      ∀ id : Fin 511, (buildTree s).nodeW[id] = 0#32 :=
  buildTree_of_order (z := id) (w := fun _ => 0#32) s (fun i hi => by simp only [id_eq]; omega)
    (fun i hi => ⟨i, hi, rfl⟩) (fun i j hij _ => .inr ⟨rfl, hij⟩) (fun sym => (hfreq sym).symm) (fun _ _ => rfl)

/-- Settles O23: `buildTree_of_zero`; the response does not touch the tree. -/
theorem emptyInputBuildsTheBalancedTree : Obligations.EmptyInputBuildsTheBalancedTree := by
  unfold Obligations.EmptyInputBuildsTheBalancedTree
  intro s t hp hfreq hexec
  have htree := buildTree_of_zero hfreq
  obtain ⟨u, hu, rfl⟩ := exec_build_inversion hp hexec
  rw [hu] at htree
  exact htree

/-! ### One symbol alone (R71, first bullet) -/

/-- The leaves but `x`, then the internal nodes in creation order, and `x` last. -/
def oneSymbolOrder (x i : Nat) : Nat := if i = 509 then x else if i < x then i else i + 1

/-- Leaf `x` and the root weigh `f`, all other nodes nothing. -/
def oneSymbolWeight (x : Nat) (f : Count) (id : Nat) : Count := if id = x ∨ id = 510 then f else 0#32

section OneSymbol
variable {x : Nat}

theorem oneSymbolOrder_of_lt {i : Nat} (hi : i < 509) : oneSymbolOrder x i = if i < x then i else i + 1 :=
  if_neg (by omega)

theorem oneSymbolWeight_of_ne (f : Count) {id : Nat} (h : id ≠ x) (h' : id ≠ 510) : oneSymbolWeight x f id = 0#32 :=
  if_neg (by omega)

/-- The first 509 nodes taken weigh nothing. -/
theorem oneSymbolWeight_order (f : Count) {i : Nat} (hi : i < 509) :
    oneSymbolWeight x f (oneSymbolOrder x i) = 0#32 := by
  rw [oneSymbolOrder_of_lt hi]
  split
  · exact oneSymbolWeight_of_ne f (by omega) (by omega)
  · exact oneSymbolWeight_of_ne f (by omega) (by omega)

/-- Among the nodes that weigh nothing the order is that of the ids, and `x` weighs more. -/
theorem oneSymbolOrder_mono {f : Count} (hf : f ≠ 0#32) {i j : Nat} (hij : i < j) (hj : j < 510) :
    (oneSymbolWeight x f (oneSymbolOrder x i)).toNat < (oneSymbolWeight x f (oneSymbolOrder x j)).toNat ∨
      ((oneSymbolWeight x f (oneSymbolOrder x i)).toNat = (oneSymbolWeight x f (oneSymbolOrder x j)).toNat ∧
        oneSymbolOrder x i < oneSymbolOrder x j) := by
  rw [oneSymbolWeight_order f (by omega : i < 509)]
  by_cases hlast : j = 509
  · have hw : oneSymbolWeight x f (oneSymbolOrder x j) = f := by
      rw [hlast, oneSymbolOrder, if_pos rfl, oneSymbolWeight, if_pos (.inl rfl)]
    left
    rw [hw]
    bv_omega
  · right
    rw [oneSymbolWeight_order f (by omega : j < 509), oneSymbolOrder_of_lt (by omega), oneSymbolOrder_of_lt (by omega)]
    refine ⟨rfl, ?_⟩
    split <;> split <;> omega

theorem buildTree_of_oneSymbol (hx : x < 256) {s : State} (hfx : s.freq[x] ≠ 0#32)
    (hfy : ∀ y : Fin 256, y.val ≠ x → s.freq[y] = 0#32) :
    (∀ k : Fin 255, leftChild (buildTree s) k = oneSymbolOrder x (2 * k) ∧
      rightChild (buildTree s) k = oneSymbolOrder x (2 * k + 1)) ∧
      ∀ id : Fin 511, (buildTree s).nodeW[id] = oneSymbolWeight x s.freq[x] id := by
  refine buildTree_of_order s (fun i hi => ?inRange) (fun id hid => ?all)
    (fun i j => oneSymbolOrder_mono hfx) (fun sym => ?leaf) (fun k hk => ?inner)
  case inRange =>
    unfold oneSymbolOrder
    split
    · omega
    · split <;> omega
  case all =>
    by_cases hid' : id = x
    · exact ⟨509, by decide, hid' ▸ if_pos rfl⟩
    · by_cases hlt : id < x
      · exact ⟨id, hid, by rw [oneSymbolOrder_of_lt (by omega), if_pos hlt]⟩
      · exact ⟨id - 1, by omega, by rw [oneSymbolOrder_of_lt (by omega), if_neg (by omega)]; omega⟩
  case leaf =>
    by_cases hsym : sym.val = x
    · rw [oneSymbolWeight, if_pos (.inl hsym)]
      simp only [Fin.getElem_fin, hsym]
    · rw [oneSymbolWeight_of_ne _ hsym (by omega), hfy sym hsym]
  case inner =>
    rw [oneSymbolWeight_order _ (by omega : 2 * k < 509)]
    by_cases hlast : k = 254
    · subst hlast
      simp [oneSymbolWeight, oneSymbolOrder]
    · rw [oneSymbolWeight_order _ (by omega : 2 * k + 1 < 509), oneSymbolWeight_of_ne _ (by omega) (by omega)]
      rfl

end OneSymbol

end Sys2Proof.Proofs

namespace Sys2Proof.Proofs

open Sys2Proof.Machine Sys2Proof.Claims

/-! ### The state after an accepted DERIVE -/

/-- DERIVE's answer on the tree BUILD leaves, with a name for the derived state: its unfoldings are too large to
compare. -/
theorem exec_derive_inversion {s t : State} (hp : s.phase = .built) (hroot : s.root = 510#9)
    (hexec : exec .derive s = .next t) : ∃ u, deriveTable s = u ∧ t = respondStatus u :=
  ⟨_, rfl, Host.Outcome.next.inj (hexec.symm.trans (exec_derive_internalRoot hp (by rw [hroot]; decide)))⟩

/-- The table DERIVE leaves on such a tree, and the tree, which is still there. -/
theorem table_of_exec_derive {s t : State} (hp : s.phase = .built) (hlinks : TreeLinks s) (hroot : s.root = 510#9)
    (hexec : exec .derive s = .next t) :
    TableDerived t ∧ t.root = 510#9 ∧ t.nodeL = s.nodeL ∧ t.nodeR = s.nodeR := by
  have htable := deriveTable_spec hlinks hroot
  have hkept := deriveTable_root s
  have hleft := deriveTable_nodeL s
  have hright := deriveTable_nodeR s
  obtain ⟨u, hu, rfl⟩ := exec_derive_inversion hp hroot hexec
  rw [hu] at htable hkept hleft hright
  exact ⟨htable.congr rfl rfl rfl rfl rfl rfl, hkept.trans hroot, hleft, hright⟩

/-! ### No code begins another (R83 points 1 to 3) -/

/-- In integer form: a value whose upper digits are the shorter value has a code that begins with the shorter one. -/
theorem codeDigits_prefix_of_shift {len len' : CodeLen} {val val' : CodeVal} (hlen : len.toNat ≤ len'.toNat)
    (h : val'.toNat >>> (len'.toNat - len.toNat) = val.toNat) : codeDigits len val <+: codeDigits len' val' := by
  rw [List.prefix_iff_eq_take, codeDigits_length]
  apply List.ext_getElem
  · simp [codeDigits_length, hlen]
  · intro k hk _
    rw [codeDigits_length] at hk
    have hplace : len'.toNat - len.toNat + (len.toNat - 1 - k) = len'.toNat - 1 - k := by omega
    simp only [codeDigits, List.getElem_map, List.getElem_range, List.getElem_take, BitVec.getLsbD, ← h,
      Nat.testBit_shiftRight, hplace]

theorem codeOf_prefix_free {t : State} (htable : TableDerived t) {a b : Sym} (hne : a ≠ b) :
    ¬ codeOf t a <+: codeOf t b := fun hpre =>
  hne (BitVec.eq_of_toNat_eq ((htable.path a).prefix_free (htable.path b) a.isLt hpre))

/-- Settles O28: the codes are the paths of the leaves, none of which is empty or begins another. -/
theorem derivedCodesArePrefixFree : Obligations.DerivedCodesArePrefixFree := by
  unfold Obligations.DerivedCodesArePrefixFree
  intro s t hp hlinks hroot hexec
  obtain ⟨htable, hroot', -, -⟩ := table_of_exec_derive hp hlinks hroot hexec
  refine ⟨fun sym => ⟨htable.codeV sym, htable.one_le_codeLen hroot' sym, ?bound⟩, fun a b hne =>
    ⟨codeOf_prefix_free htable hne, fun hlen hshift =>
      codeOf_prefix_free htable hne (codeDigits_prefix_of_shift hlen hshift)⟩⟩
  case bound => exact Nat.le_of_lt_succ (symEntry t.codeLen sym).isLt

/-! ### The Kraft sum (R83 point 4) -/

/-- `f` halves from each node to its children. -/
def Halves (s : State) (f : Nat → Nat) : Prop :=
  ∀ k : Fin 255, f (256 + k) = f (leftChild s k) + f (rightChild s k)

/-- What the root weighs is spread over the leaves: each internal node passes on what it has to its children, and every
node but the root is a child once. -/
theorem sum_leaves_eq_root {s : State} (hlinks : TreeLinks s) {f : Nat → Nat} (hf : Halves s f) :
    ∑ sym : Fin 256, f sym = f 510 := by
  have hall : ∑ k : Fin 255, f (256 + k) = ∑ id : Fin 510, f id := by
    rw [← hlinks.sum_children f]
    exact Finset.sum_congr rfl fun k _ => hf k
  have hroot : ∑ k : Fin 255, f (256 + k) = ∑ k : Fin 254, f (256 + k) + f 510 := Fin.sum_univ_castSucc _
  have hsplit : ∑ id : Fin 510, f id = ∑ sym : Fin 256, f sym + ∑ k : Fin 254, f (256 + k) :=
    Fin.sum_univ_add (a := 256) (b := 254) _
  omega

/-- The share of a node: 2^255 for the root, and half of it one step deeper. -/
theorem exists_shares {s : State} (hlinks : TreeLinks s) (hroot : s.root = 510#9) :
    ∃ f : Nat → Nat, Halves s f ∧ ∀ id p, Path s id p → f id = 2 ^ (255 - p.length) := by
  have hpath (id : Nat) (hid : id ≤ 510) : ∃ p, Path s id p :=
    Path.exists_of_le hlinks hroot (510 - id) id (by omega)
  choose! path hpath using hpath
  have hshare {id : Nat} {p : List Bool} (hp : Path s id p) : 2 ^ (255 - (path id).length) = 2 ^ (255 - p.length) := by
    have hid := hp.length_add_le hlinks hroot
    rw [(hpath id (by omega)).unique hlinks hroot hp]
  refine ⟨fun id => 2 ^ (255 - (path id).length), fun k => ?_, fun id p => hshare⟩
  have hk := hpath (256 + k) (by omega)
  have hdepth := hk.length_add_le hlinks hroot
  have hstep : 255 - (path (256 + k)).length = 255 - ((path (256 + k)).length + 1) + 1 := by omega
  simp only [hshare hk.left, hshare hk.right, List.length_append, List.length_singleton]
  rw [hstep, Nat.pow_succ]
  omega

/-- Settles O29: each code's term is its leaf's share of the root's 2^255. -/
theorem derivedCodesMeetKraftEquality : Obligations.DerivedCodesMeetKraftEquality := by
  unfold Obligations.DerivedCodesMeetKraftEquality
  intro s t hp hlinks hroot hexec
  obtain ⟨htable, hroot', hleft, hright⟩ := table_of_exec_derive hp hlinks hroot hexec
  have hlinks' : TreeLinks t := hlinks.congr hleft hright
  obtain ⟨f, hf, hshare⟩ := exists_shares hlinks' hroot'
  have hleaf (sym : Fin 256) : f sym = 2 ^ (255 - t.codeLen[sym].toNat) := by
    have hcode := hshare _ _ (htable.path (BitVec.ofFin sym))
    rw [codeOf, codeDigits_length] at hcode
    exact hcode
  have htop : f 510 = 2 ^ 255 := by
    have hempty : Path t 510 [] := by
      have hstart := Path.root (s := t)
      rwa [hroot'] at hstart
    exact hshare _ _ hempty
  rw [← htop, ← sum_leaves_eq_root hlinks' hf, ← List.sum_ofFn, List.ofFn_eq_map]
  simp only [hleaf]

/-! ### The balanced tree (R85, first bullet) -/

/-- Dropping the last digit of a value shifts it down. -/
theorem lowDigits_succ {n : Nat} (d : Nat) (v : BitVec n) :
    lowDigits (d + 1) v = lowDigits d (v >>> 1) ++ [v.getLsbD 0] := by
  unfold lowDigits
  rw [List.range_succ, List.map_append, List.map_singleton]
  congr 1
  · apply List.map_congr_left
    intro k hk
    rw [List.mem_range] at hk
    rw [BitVec.getLsbD_ushiftRight]
    congr 1
    omega
  · congr 2
    omega

section Balanced
variable {s : State} (hchildren : ∀ k : Fin 255, leftChild s k = 2 * k ∧ rightChild s k = 2 * k + 1)
include hchildren

theorem treeLinks_of_balanced : TreeLinks s where
  left_lt k := by rw [(hchildren k).1]; omega
  right_lt k := by rw [(hchildren k).2]; omega
  distinct k := by rw [(hchildren k).1, (hchildren k).2]; omega
  one_parent id hid := by
    have hchild (j : Fin 255) : childOf s id j ↔ j.val = id / 2 := by
      rw [childOf, (hchildren j).1, (hchildren j).2]
      omega
    exact ⟨⟨id / 2, by omega⟩, (hchild _).mpr rfl, fun j hj => Fin.ext ((hchild j).mp hj)⟩

/-- The child of node 256 + id / 2 with the parity of `id` is `id`. -/
theorem path_of_balanced_parent {id : Nat} (hid : id < 510) {p : List Bool} (hp : Path s (256 + id / 2) p) :
    Path s id (p ++ [id.testBit 0]) := by
  have hk : id / 2 < 255 := by omega
  obtain ⟨hl, hr⟩ := hchildren ⟨id / 2, hk⟩
  rcases Nat.mod_two_eq_zero_or_one id with h | h
  · have hleft := Path.left (k := ⟨id / 2, hk⟩) hp
    rw [hl, show 2 * (id / 2) = id by omega] at hleft
    rwa [Nat.testBit_zero, h]
  · have hright := Path.right (k := ⟨id / 2, hk⟩) hp
    rw [hr, show 2 * (id / 2) + 1 = id by omega] at hright
    rwa [Nat.testBit_zero, h]

/-- Depth `d` of the balanced tree is the row of ids from 512 - 2^(d + 1), in the order of their `d` digits. -/
theorem path_of_balanced_row (hroot : s.root = 510#9) (sym : Sym) : ∀ {d : Nat}, d ≤ 8 →
    Path s (512 - 2 ^ (d + 1) + sym.toNat / 2 ^ (8 - d)) (lowDigits d (sym >>> (8 - d))) := by
  intro d
  induction d with
  | zero =>
    intro _
    have hstart := Path.root (s := s)
    rw [hroot] at hstart
    rwa [Nat.div_eq_of_lt sym.isLt]
  | succ d ih =>
    intro hd
    have hplace : 8 - d = 8 - (d + 1) + 1 := by omega
    have hupper : 2 ^ (d + 1) ≤ 2 ^ 8 := Nat.pow_le_pow_right (by decide) hd
    have hlower : 2 ^ 1 ≤ 2 ^ (d + 1) := Nat.pow_le_pow_right (by decide) (by omega)
    have hrow : sym.toNat / 2 ^ (8 - (d + 1)) < 2 ^ (d + 1) := by
      apply Nat.div_lt_of_lt_mul
      rw [← Nat.pow_add, Nat.sub_add_cancel hd]
      exact sym.isLt
    have hparent := ih (by omega)
    rw [hplace, pow_succ 2 (8 - (d + 1)), ← Nat.div_div_eq_div_mul, BitVec.shiftRight_add] at hparent
    have hbit : (sym >>> (8 - (d + 1))).getLsbD 0 = (sym.toNat / 2 ^ (8 - (d + 1))).testBit 0 := by
      rw [BitVec.getLsbD, BitVec.toNat_ushiftRight, Nat.shiftRight_eq_div_pow]
    rw [lowDigits_succ, hbit, pow_succ 2 (d + 1)]
    generalize sym.toNat / 2 ^ (8 - (d + 1)) = q at *
    have hchild := path_of_balanced_parent hchildren (id := 512 - 2 ^ (d + 1) * 2 + q) (by omega)
      (show Path s (256 + (512 - 2 ^ (d + 1) * 2 + q) / 2) _ by
        rwa [show 256 + (512 - 2 ^ (d + 1) * 2 + q) / 2 = 512 - 2 ^ (d + 1) + q / 2 by omega])
    have hparity : (512 - 2 ^ (d + 1) * 2 + q).testBit 0 = q.testBit 0 := by
      simp only [Nat.testBit_zero, show (512 - 2 ^ (d + 1) * 2 + q) % 2 = q % 2 by omega]
    rwa [hparity] at hchild

end Balanced

/-- A byte as a code of eight digits. -/
theorem codeDigits_byte (sym : Sym) : codeDigits 8#8 (sym.setWidth 255) = lowDigits 8 sym := by
  unfold codeDigits lowDigits
  simp only [BitVec.reduceToNat]
  apply List.map_congr_left
  intro k _
  rw [BitVec.getLsbD_setWidth, decide_eq_true (by omega), Bool.true_and]

/-- Settles O30: the path of a leaf is the last row of `path_of_balanced_row`, and its digits determine the entry. -/
theorem balancedTreeGivesEachByteItself : Obligations.BalancedTreeGivesEachByteItself := by
  unfold Obligations.BalancedTreeGivesEachByteItself
  intro s t hp hroot hchildren hexec sym
  have hlinks := treeLinks_of_balanced hchildren
  obtain ⟨htable, hroot', hleft, hright⟩ := table_of_exec_derive hp hlinks hroot hexec
  have hpath : Path s sym.toNat (codeDigits 8#8 (sym.setWidth 255)) := by
    have hrow := path_of_balanced_row hchildren hroot sym (le_refl 8)
    rw [Nat.sub_self, BitVec.ushiftRight_zero, Nat.pow_zero, Nat.div_one] at hrow
    rw [codeDigits_byte]
    simpa using hrow
  have hcode : codeOf t sym = codeDigits 8#8 (sym.setWidth 255) :=
    (htable.path sym).unique (hlinks.congr hleft hright) hroot' (hpath.congr hleft hright (hroot'.trans hroot.symm))
  have hvalue : (sym.setWidth 255 : CodeVal).toNat = sym.toNat := BitVec.toNat_setWidth_of_le (by decide)
  obtain ⟨hlen, hval⟩ := codeDigits_inj hcode (htable.fits sym) (by rw [hvalue]; exact sym.isLt)
  exact ⟨hlen, by rw [hval, hvalue]⟩

/-! ### One symbol alone (R71, first bullet; R85, second bullet) -/

/-- When the root's right child is leaf `x`, the code of `x` is the digit 1, and all others turn left first. -/
theorem codes_of_right_leaf {t : State} (htable : TableDerived t) (hlinks : TreeLinks t) (hroot : t.root = 510#9)
    {x : Sym} (hright : rightChild t 254 = x.toNat) :
    codeOf t x = [true] ∧ ∀ y : Sym, y ≠ x → ∃ digits, codeOf t y = false :: digits := by
  have hx : Path t x.toNat [true] := by
    have hstart := Path.root (s := t)
    rw [hroot] at hstart
    rw [← hright]
    exact Path.right (k := 254) hstart
  refine ⟨(htable.path x).unique hlinks hroot hx, fun y hne => ?_⟩
  have hlen := htable.one_le_codeLen hroot y
  have hy := htable.path y
  cases hcode : codeOf t y with
  | nil =>
    have hzero := congrArg List.length hcode
    rw [codeOf, codeDigits_length, List.length_nil] at hzero
    omega
  | cons b digits =>
    cases b with
    | false => exact ⟨digits, rfl⟩
    | true =>
      rw [hcode] at hy
      have hsame := hx.prefix_free hy x.isLt ⟨digits, rfl⟩
      exact absurd (BitVec.eq_of_toNat_eq hsame).symm hne

/-- Settles O31: `buildTree_of_oneSymbol` for the tree, whose last merge decides the codes. -/
theorem oneSymbolInputGivesItTheDigitOne : Obligations.OneSymbolInputGivesItTheDigitOne := by
  unfold Obligations.OneSymbolInputGivesItTheDigitOne
  intro x s t u hp hfx hfy hbuild hderive
  have htree := buildTree_of_oneSymbol x.isLt hfx fun y hy =>
    hfy (BitVec.ofFin y) fun h => hy (congrArg BitVec.toNat h)
  have hlinks := (buildTree_greedy s).2
  have hroot := buildTree_root s
  have hphase := buildTree_phase s
  obtain ⟨v, hv, rfl⟩ := exec_build_inversion hp hbuild
  rw [hv] at htree hlinks hroot hphase
  obtain ⟨hchildren, hweights⟩ := htree
  obtain ⟨hl, hr⟩ := hchildren 254
  have hx := x.isLt
  have hleft : leftChild v 254 = 509 := by
    rw [hl, oneSymbolOrder_of_lt (by decide)]
    exact if_neg (show ¬ 508 < x.toNat by omega)
  have hright : rightChild v 254 = x.toNat := hr.trans (if_pos rfl)
  have hlinks' : TreeLinks (respondStatus v) := hlinks.congr rfl rfl
  obtain ⟨htable, hroot', hkeptL, hkeptR⟩ := table_of_exec_derive (s := respondStatus v) hphase hlinks' hroot hderive
  have hright' : rightChild u 254 = x.toNat := by
    rw [rightChild, hkeptR]
    exact hright
  refine ⟨hleft, hright, fun id hid => ?weights,
    codes_of_right_leaf htable (hlinks'.congr hkeptL hkeptR) hroot' hright'⟩
  case weights =>
    exact (hweights ⟨id, by omega⟩).trans
      (oneSymbolWeight_of_ne _ (show id.val ≠ x.toNat by omega) (show id.val ≠ 510 by omega))

end Sys2Proof.Proofs

namespace Sys2Proof.Proofs

open Sys2Proof.Machine Sys2Proof.Claims

/-! ### One response after the bytes (R37, R38, R40) -/

/-- What command `i` puts on the ports from `s` to `t`: the bytes it appends to OUT, then one response. -/
def Responds (i : Instr) (s t : State) : Prop :=
  ∃ bytes e d, t.portOut = s.portOut ++ bytes.map .byte ++ [.response e d] ∧ t.hostIn = s.hostIn ∧
    bytes.length ≤ 32 ∧ (i = .finish → bytes.length ≤ 1) ∧ ((∀ sym, i ≠ .pack sym) → i ≠ .finish → bytes = []) ∧
    (i ≠ .clear → t.out = s.out ++ bytes ∧ t.outlen = s.outlen + BitVec.ofNat 40 bytes.length)

/-- A command that emits nothing. -/
theorem responds_silent {i : Instr} {s t : State} {e : Bool} {d : RspData}
    (hport : t.portOut = s.portOut ++ [.response e d]) (hin : t.hostIn = s.hostIn)
    (hout : i ≠ .clear → t.out = s.out ∧ t.outlen = s.outlen) : Responds i s t := by
  refine ⟨[], e, d, ?_, hin, by decide, fun _ => by decide, fun _ _ => rfl, fun hi => ?_⟩
  · rw [hport, List.map_nil, List.append_nil]
  · obtain ⟨hbytes, hlength⟩ := hout hi
    exact ⟨hbytes.trans (List.append_nil _).symm, hlength.trans (BitVec.add_zero _).symm⟩

/-- A body that writes neither port nor OUT, and its response. -/
theorem responds_body {i : Instr} {s u : State} (hport : u.portOut = s.portOut) (hin : u.hostIn = s.hostIn)
    (hout : u.out = s.out) (hlength : u.outlen = s.outlen) : Responds i s (respondStatus u) :=
  responds_silent (congrArg (· ++ _) hport) hin fun _ => ⟨hout, hlength⟩

/-- A fault and a refusal write ERR, PHASE and the response port only (R113). -/
theorem raise_frame (e : Err) (s : State) :
    raise e s = { s with err := (raise e s).err, phase := (raise e s).phase,
                         portOut := s.portOut ++ [.response true (statusWord (raise e s))] } := by
  by_cases hp : s.phase = .fault
  · rw [raise_fault e hp]
    rfl
  · rw [raise_eq e hp]
    rfl

theorem responds_raise (i : Instr) (e : Err) (s : State) : Responds i s (raise e s) := by
  rw [raise_frame]
  exact responds_silent rfl rfl fun _ => ⟨rfl, rfl⟩

/-- PACK emits at most 32 bytes: seven digits pending and a code of 255. -/
theorem responds_pack (sym : Sym) (s : State) : Responds (.pack sym) s (respondStatus (packSymbol sym s)) := by
  obtain ⟨bytes, -, hlength, -, -, hframe⟩ := packSymbol_spec sym s
  -- A name for the packed state, so that nothing compares its unfoldings.
  generalize packSymbol sym s = t at hframe
  have hpending := s.accN.isLt
  have hcode := (symEntry s.codeLen sym).isLt
  refine ⟨bytes, false, statusWord t, ?_, ?_, by omega, nofun, fun h => absurd rfl (h sym), fun _ => ⟨?_, ?_⟩⟩
  · rw [respondStatus, respond_portOut, congrArg State.portOut hframe]
  · rw [respondStatus, respond_hostIn, congrArg State.hostIn hframe]
  · rw [respondStatus, respond_out, congrArg State.out hframe]
  · rw [respondStatus, respond_outlen, congrArg State.outlen hframe]

/-- FINISH emits the last byte, if digits are pending. -/
theorem responds_finish (s : State) : Responds .finish s (respondStatus (padLastByte s)) := by
  by_cases hn : s.accN = 0#3
  · rw [padLastByte_zero hn]
    exact responds_silent rfl rfl fun _ => ⟨rfl, rfl⟩
  · rw [(padLastByte_pending hn).1]
    exact ⟨[_], false, _, rfl, rfl, by simp, by simp, fun _ h => absurd rfl h, fun _ => ⟨rfl, rfl⟩⟩

/-- Settles O39: of the things a command can do, only PACK and FINISH put bytes before the response. -/
theorem oneResponseAfterTheBytes : Obligations.OneResponseAfterTheBytes := by
  unfold Obligations.OneResponseAfterTheBytes
  intro i s t hexec
  show Responds i s t
  cases executed_of_exec hexec with
  | raised => exact responds_raise i _ s
  | read => exact responds_silent rfl rfl fun _ => ⟨rfl, rfl⟩
  | clear => exact responds_silent rfl rfl fun h => absurd rfl h
  | count => exact responds_body rfl rfl rfl rfl
  | build => exact responds_body (buildTree_portOut s) (buildTree_hostIn s) (buildTree_out s) (buildTree_outlen s)
  | derive =>
    exact responds_body (deriveTable_portOut s) (deriveTable_hostIn s) (deriveTable_out s) (deriveTable_outlen s)
  | pack => exact responds_pack _ s
  | finish => exact responds_finish s

/-! ### The writers of each register (R13 to R22) -/

/-- The registers of `t` are those of `s`, but for the ones that command `i` writes. -/
def WritesOnlyItsOwn (i : Instr) (s t : State) : Prop :=
  ((∀ sym, i ≠ .count sym) → t.freq = s.freq ∧ t.inlen = s.inlen) ∧
  (i ≠ .build → t.nodeW = s.nodeW ∧ t.nodeL = s.nodeL ∧ t.nodeR = s.nodeR ∧ t.inq = s.inq ∧ t.nextid = s.nextid ∧
    t.qcount = s.qcount ∧ t.root = s.root) ∧
  (i ≠ .derive → t.codeV = s.codeV ∧ t.codeLen = s.codeLen ∧ t.codeVal = s.codeVal) ∧
  ((∀ sym, i ≠ .pack sym) → t.pklen = s.pklen ∧ t.bitcnt = s.bitcnt) ∧
  ((∀ sym, i ≠ .pack sym) → i ≠ .finish → t.acc = s.acc ∧ t.accN = s.accN ∧ t.outlen = s.outlen ∧ t.out = s.out) ∧
  (i ≠ .finish → t.padn = s.padn)

/-- A response writes no register. -/
theorem WritesOnlyItsOwn.respondStatus {i : Instr} {s u : State} (h : WritesOnlyItsOwn i s u) :
    WritesOnlyItsOwn i s (respondStatus u) := h

theorem writesOnlyItsOwn_pack (sym : Sym) (s : State) : WritesOnlyItsOwn (.pack sym) s (packSymbol sym s) := by
  obtain ⟨bytes, -, -, -, -, hframe⟩ := packSymbol_spec sym s
  rw [hframe]
  simp [WritesOnlyItsOwn]

theorem writesOnlyItsOwn_finish (s : State) : WritesOnlyItsOwn .finish s (padLastByte s) := by
  by_cases hn : s.accN = 0#3
  · rw [padLastByte_zero hn]
    simp [WritesOnlyItsOwn]
  · rw [(padLastByte_pending hn).1]
    simp [WritesOnlyItsOwn]

/-- Settles O40: for each thing a command can do, the frame of its body. -/
theorem everyRegisterHasItsWriters : Obligations.EveryRegisterHasItsWriters := by
  unfold Obligations.EveryRegisterHasItsWriters
  intro i s t hexec hclear
  show WritesOnlyItsOwn i s t
  cases executed_of_exec hexec with
  | raised =>
    rw [raise_frame]
    simp [WritesOnlyItsOwn]
  | read => simp [WritesOnlyItsOwn]
  | clear => exact absurd rfl hclear
  | count => exact .respondStatus (by simp [WritesOnlyItsOwn])
  | build => exact .respondStatus (by simp [WritesOnlyItsOwn])
  | derive => exact .respondStatus (by simp [WritesOnlyItsOwn])
  | pack => exact .respondStatus (writesOnlyItsOwn_pack _ s)
  | finish => exact .respondStatus (writesOnlyItsOwn_finish s)

/-! ### Reads (R32, R126) -/

/-- An accepted read answers a value that does not depend on what has left the ports. -/
theorem exec_read_repeats {i : Instr} {s : State} (hread : isRead i = true) (hw : i.wellFormed = true)
    (hp : s.phase ∈ acceptedPhases i) :
    ∃ d, exec i s = .next (answered d s) ∧ ∀ d', exec i (answered d' s) = .next (answered d (answered d' s)) := by
  cases i with
  | rdreg reg =>
    have hreg := of_decide_eq_true hw
    exact ⟨_, exec_rdreg hreg s, fun d' => exec_rdreg hreg (answered d' s)⟩
  | rdfreq sym =>
    have hf : s.phase ≠ .fault := fun hf => by simp [acceptedPhases, hf] at hp
    exact ⟨_, exec_rdfreq hf sym, fun d' => exec_rdfreq (s := answered d' s) hf sym⟩
  | rdnodew id =>
    have hid : id.toNat < 511 := Nat.lt_succ_of_le (of_decide_eq_true hw)
    have hp : treeReadable s.phase := by simpa [acceptedPhases] using hp
    exact ⟨_, exec_rdnodew hp hid, fun d' => exec_rdnodew (s := answered d' s) hp hid⟩
  | rdnodel id =>
    have hid : id.toNat < 511 := Nat.lt_succ_of_le (of_decide_eq_true hw)
    have hp : treeReadable s.phase := by simpa [acceptedPhases] using hp
    exact ⟨_, exec_rdnodel hp hid, fun d' => exec_rdnodel (s := answered d' s) hp hid⟩
  | rdclen sym =>
    have hp : tableReadable s.phase := by simpa [acceptedPhases] using hp
    exact ⟨_, exec_rdclen hp sym, fun d' => exec_rdclen (s := answered d' s) hp sym⟩
  | rdcode sym w =>
    have hp : tableReadable s.phase := by simpa [acceptedPhases] using hp
    exact ⟨_, exec_rdcode hp sym w, fun d' => exec_rdcode (s := answered d' s) hp sym w⟩
  | _ => cases hread

/-- Settles O42: `exec_read_repeats`, with the value itself as what left the port before. -/
theorem readsChangeNothingAndRepeat : Obligations.ReadsChangeNothingAndRepeat := by
  unfold Obligations.ReadsChangeNothingAndRepeat
  intro i s hread hw hentry
  obtain ⟨d, hfirst, hagain⟩ := exec_read_repeats hread hw ((phaseAfter_isSome_iff i s.phase).mp hentry)
  exact ⟨d, hfirst, hagain d⟩

/-! ### The size of the output (R99, R101) -/

theorem raise_phase_ne_done (e : Err) {s : State} : (raise e s).phase ≠ .done := by
  by_cases hp : s.phase = .fault
  · rw [raise_fault e hp, refuse_phase, hp]
    decide
  · rw [raise_eq_faulted e hp, faulted_phase]
    decide

/-- With nothing pending the digits accepted are those of OUT. -/
theorem bitBuffer_of_accN_zero {s : State} (h : s.accN = 0#3) : bitBuffer s = s.out.flatMap byteDigits := by
  simp [bitBuffer, pendingDigits, h]

theorem length_flatMap_byteDigits (bytes : List Byte) : (bytes.flatMap byteDigits).length = 8 * bytes.length := by
  rw [List.length_flatMap, List.map_congr_left (fun v _ => (by simp [byteDigits] : (byteDigits v).length = 8)),
    List.map_const', List.sum_replicate, smul_eq_mul, Nat.mul_comm]

/-- Settles O46: only FINISH's own work leads to DONE, and it keeps the invariant, whose line for DONE has the sizes. -/
theorem outputSizeIsTheDigitCountInBytes : Obligations.OutputSizeIsTheDigitCountInBytes := by
  unfold Obligations.OutputSizeIsTheDigitCountInBytes
  intro s t hinv hexec hdone
  have hpacker : PackerDone t := by
    cases executed_of_exec hexec with
    | raised => exact absurd hdone (raise_phase_ne_done _)
    | read hi => cases hi
    | finish hp hlen => exact packerDone_of_inv ((padLastByte_inv hinv hp hlen).respond _ _) hdone
  have hdigits := length_flatMap_byteDigits t.out
  rw [bitBuffer_of_accN_zero hpacker.accN, ← hpacker.pklen, ← hpacker.out]
  exact ⟨hpacker.out.trans hpacker.outlen, rfl, hpacker.le_bitcnt, hpacker.bitcnt_le, hdigits⟩

end Sys2Proof.Proofs

namespace Sys2Proof.Proofs

open Sys2Proof.Machine Sys2Proof.Claims

/-! ### The shared operations keep the agreement (R26, R113) -/

section Agree
variable {s t : State} (h : SameSpecified s t)
include h

theorem sameSpecified_respond (e : Bool) (d : RspData) : SameSpecified (respond e d s) (respond e d t) :=
  { h with portOut := congrArg (· ++ [PortOutput.response e d]) h.portOut }

/-- STATUS shows no unspecified content. -/
theorem statusWord_congr : statusWord s = statusWord t := by
  simp only [statusWord, h.padn, h.accN, h.err, h.phase]

/-- A response with STATUS is the same in both. -/
theorem sameSpecified_respond_status (e : Bool) :
    SameSpecified (respond e (statusWord s) s) (respond e (statusWord t) t) := by
  rw [statusWord_congr h]
  exact sameSpecified_respond h e _

theorem sameSpecified_respondStatus : SameSpecified (respondStatus s) (respondStatus t) :=
  sameSpecified_respond_status h false

theorem sameSpecified_refuse : SameSpecified (refuse s) (refuse t) := sameSpecified_respond_status h true

/-- In phase FAULT neither the tree nor the table is defined, so a fault asks for less agreement. -/
theorem sameSpecified_faulted (e : Err) : SameSpecified (faulted e s) (faulted e t) := by
  have hfault : SameSpecified { s with err := e, phase := .fault } { t with err := e, phase := .fault } :=
    { h with
      phase := rfl
      err := rfl
      tree := by rintro (hp | hp | hp) <;> cases hp
      table := by rintro (hp | hp) <;> cases hp }
  exact sameSpecified_respond_status hfault true

theorem sameSpecified_raise (e : Err) : SameSpecified (raise e s) (raise e t) := by
  by_cases hp : s.phase = .fault
  · rw [raise_fault e hp, raise_fault e (h.phase.symm.trans hp)]
    exact sameSpecified_refuse h
  · rw [raise_eq_faulted e hp, raise_eq_faulted e (fun hp' => hp (h.phase.trans hp'))]
    exact sameSpecified_faulted h e

/-- The phase test reads PHASE only, so bodies that keep the agreement in their phases keep it in all. -/
theorem sameSpecified_acceptIn {phases : List Phase} {f g : State → State}
    (hbody : s.phase ∈ phases → SameSpecified (f s) (g t)) :
    SameSpecified (acceptIn phases f s) (acceptIn phases g t) := by
  by_cases hp : s.phase ∈ phases
  · rw [acceptIn_of_mem hp, acceptIn_of_mem (h.phase ▸ hp)]
    exact hbody hp
  · rw [acceptIn_of_not_mem hp, acceptIn_of_not_mem (h.phase ▸ hp)]
    exact sameSpecified_raise h .seq

/-! ### The packer reads no unspecified content (R92 to R96) -/

theorem sameSpecified_shiftBit (b : Bool) : SameSpecified (shiftBit b s) (shiftBit b t) := by
  have hcount := s.accN.isLt
  have hshift : shifted b s.acc = shifted b t.acc := by rw [h.acc]
  by_cases hn : s.accN.toNat = 7
  · rw [shiftBit_emit b s hn, shiftBit_emit b t (h.accN ▸ hn)]
    exact { h with
      acc := rfl
      accN := rfl
      outlen := congrArg (· + 1#40) h.outlen
      out := congrArg₂ (fun out v => out ++ [v]) h.out hshift
      portOut := congrArg₂ (fun out v => out ++ [PortOutput.byte v]) h.portOut hshift }
  · have hn : s.accN.toNat < 7 := by omega
    rw [shiftBit_keep b s hn, shiftBit_keep b t (h.accN ▸ hn)]
    exact { h with
      acc := hshift
      accN := congrArg (fun n : BitVec 3 => BitVec.ofNat 3 (n.toNat + 1)) h.accN }

end Agree

theorem sameSpecified_shiftBits (digits : List Bool) : ∀ {s t : State}, SameSpecified s t →
    SameSpecified (shiftBits digits s) (shiftBits digits t) := by
  induction digits with
  | nil => exact fun h => h
  | cons b digits ih => exact fun h => ih (sameSpecified_shiftBit h b)

section Bodies
variable {s t : State} (h : SameSpecified s t)
include h

/-- In phase PACK the table is defined, so the two codes are the same digits. -/
theorem sameSpecified_packSymbol (hp : s.phase = .pack) (sym : Sym) :
    SameSpecified (packSymbol sym s) (packSymbol sym t) := by
  obtain ⟨hlen, hval⟩ := h.table (.inl hp)
  rw [packSymbol_eq, packSymbol_eq, ← hlen, ← hval]
  have hdigits := sameSpecified_shiftBits (codeDigits (symEntry s.codeLen sym) (symEntry s.codeVal sym)) h
  generalize codeDigits (symEntry s.codeLen sym) (symEntry s.codeVal sym) = digits at *
  exact { hdigits with
    pklen := congrArg (· + 1#32) hdigits.pklen
    bitcnt := congrArg (· + (symEntry s.codeLen sym).setWidth 40) hdigits.bitcnt }

theorem sameSpecified_padLastByte (hp : s.phase = .pack) : SameSpecified (padLastByte s) (padLastByte t) := by
  have htree := h.tree (.inr (.inl hp))
  have htable := h.table (.inl hp)
  by_cases hn : s.accN = 0#3
  · rw [padLastByte_zero hn, padLastByte_zero (h.accN ▸ hn)]
    exact { h with phase := rfl, padn := rfl, tree := fun _ => htree, table := fun _ => htable }
  · rw [(padLastByte_pending hn).1, (padLastByte_pending (h.accN ▸ hn)).1, h.accN, h.acc]
    exact { h with
      phase := rfl
      padn := rfl
      acc := rfl
      accN := rfl
      tree := fun _ => htree
      table := fun _ => htable
      outlen := congrArg (· + 1#40) h.outlen
      out := congrArg (· ++ _) h.out
      portOut := congrArg (· ++ _) h.portOut }

/-! ### COUNT and BUILD (R61, R69) -/

theorem sameSpecified_countSymbol (sym : Sym) : SameSpecified (countSymbol sym s) (countSymbol sym t) :=
  { h with
    freq := congrArg (fun freq => setSymEntry freq sym (symEntry freq sym + 1#32)) h.freq
    inlen := congrArg (· + 1#32) h.inlen }

/-- BUILD writes the whole tree, from the frequencies alone; the table is still undefined. -/
theorem sameSpecified_buildTree : SameSpecified (buildTree s) (buildTree t) := by
  have htree := buildTree_congr h.freq
  constructor
  case tree => exact fun _ => htree
  case table =>
    rw [buildTree_phase]
    rintro (hp | hp) <;> cases hp
  all_goals simp [h.err, h.freq, h.inlen, h.codeV, h.acc, h.accN, h.pklen, h.bitcnt, h.outlen, h.padn, h.out, h.hostIn,
    h.portOut]

end Bodies

/-! ### DERIVE (R81) -/

/-- The table of paths of a tree is unique: the digits of each code, and so its entry (R80). -/
theorem table_unique {s t : State} (hs : TableDerived s) (ht : TableDerived t) (hlinks : TreeLinks s)
    (hroot : s.root = 510#9) (hleft : t.nodeL = s.nodeL) (hright : t.nodeR = s.nodeR) (hroot' : t.root = s.root) :
    s.codeLen = t.codeLen ∧ s.codeVal = t.codeVal := by
  have hentry (sym : Sym) :
      symEntry s.codeLen sym = symEntry t.codeLen sym ∧ symEntry s.codeVal sym = symEntry t.codeVal sym :=
    codeDigits_inj ((hs.path sym).unique hlinks hroot ((ht.path sym).congr hleft.symm hright.symm hroot'.symm))
      (hs.fits sym) (ht.fits sym)
  exact ⟨Vector.ext fun i hi => (hentry (BitVec.ofFin ⟨i, hi⟩)).1,
    Vector.ext fun i hi => (hentry (BitVec.ofFin ⟨i, hi⟩)).2⟩

/-- DERIVE reads the tree, which is defined in phase BUILT, and its own scratch: that it starts with free values is not
seen, as both tables are the paths. -/
theorem sameSpecified_deriveTable {s t : State} (h : SameSpecified s t) (hp : s.phase = .built) (hlinks : TreeLinks s)
    (hroot : s.root = 510#9) : SameSpecified (deriveTable s) (deriveTable t) := by
  obtain ⟨hweights, hleft, hright⟩ := h.tree (.inl hp)
  have htable := table_unique (deriveTable_spec hlinks hroot)
    (deriveTable_spec (hlinks.congr hleft.symm hright.symm) (h.root.symm.trans hroot))
    (hlinks.congr (deriveTable_nodeL s) (deriveTable_nodeR s)) ((deriveTable_root s).trans hroot)
    (by rw [deriveTable_nodeL, deriveTable_nodeL, hleft]) (by rw [deriveTable_nodeR, deriveTable_nodeR, hright])
    (by rw [deriveTable_root, deriveTable_root, h.root])
  constructor
  case table => exact fun _ => htable
  case tree =>
    rw [deriveTable_nodeW, deriveTable_nodeL, deriveTable_nodeR, deriveTable_nodeW, deriveTable_nodeL,
      deriveTable_nodeR]
    exact fun _ => ⟨hweights, hleft, hright⟩
  all_goals simp only [deriveTable_phase, deriveTable_err, deriveTable_freq, deriveTable_inlen, deriveTable_inq,
    deriveTable_nextid, deriveTable_qcount, deriveTable_root, deriveTable_codeV, deriveTable_acc, deriveTable_accN,
    deriveTable_pklen, deriveTable_bitcnt, deriveTable_outlen, deriveTable_padn, deriveTable_out, deriveTable_hostIn,
    deriveTable_portOut, h.err, h.freq, h.inlen, h.inq, h.nextid, h.qcount, h.root, h.acc, h.accN, h.pklen, h.bitcnt,
    h.outlen, h.padn, h.out, h.hostIn, h.portOut]

/-! ### Each command keeps the agreement (R26) -/

/-- RDREG reads no unspecified register (R107). -/
theorem registerValue_congr {s t : State} (h : SameSpecified s t) (reg : BitVec 8) :
    registerValue s reg = registerValue t reg := by
  simp only [registerValue, statusWord_congr h, h.inlen, h.pklen, h.bitcnt, h.outlen, h.root, h.qcount, h.nextid, h.acc]

/-- RDNODEL reads the links of internal nodes only, not the free values where there is no link. -/
theorem nodeLinkWord_congr {s t : State} (h : SameSpecified s t) (hp : treeReadable s.phase) {id : NodeId}
    (hid : id.toNat < 511) : nodeLinkWord s id hid = nodeLinkWord t id hid := by
  obtain ⟨-, hleft, hright⟩ := h.tree hp
  by_cases hleaf : id.toNat < 256
  · rw [nodeLinkWord_leaf s hid hleaf, nodeLinkWord_leaf t hid hleaf, h.inq]
  · have hk : id.toNat = 256 + (id.toNat - 256) := by omega
    rw [nodeLinkWord_internal s hid ⟨id.toNat - 256, by omega⟩ hk,
      nodeLinkWord_internal t hid ⟨id.toNat - 256, by omega⟩ hk, h.inq, hleft, hright]

/-- The two next states of a command, and that they agree. -/
def BothAgree (a b : Host.Outcome State Fault Refusal) : Prop :=
  ∃ s t, a = .next s ∧ b = .next t ∧ SameSpecified s t

theorem exec_bothAgree {s t : State} (h : SameSpecified s t) (hinv : Inv s) (i : Instr) :
    BothAgree (exec i s) (exec i t) := by
  -- Each command but for an operand out of range: its phase test, then its body.
  have haccept {phases : List Phase} {f g : State → State} (hbody : s.phase ∈ phases → SameSpecified (f s) (g t)) :
      BothAgree (.next (acceptIn phases f s)) (.next (acceptIn phases g t)) :=
    ⟨_, _, rfl, rfl, sameSpecified_acceptIn h hbody⟩
  have hillegal : BothAgree (.next (illegalWord s)) (.next (illegalWord t)) := by
    rw [illegalWord_eq, illegalWord_eq]
    exact ⟨_, _, rfl, rfl, sameSpecified_raise h .illegal⟩
  cases i with
  | clear =>
    exact haccept fun _ => sameSpecified_respondStatus (clearState_sameSpecified h.hostIn h.portOut)
  | count sym =>
    refine haccept fun _ => ?_
    simp only [h.inlen]
    split
    · exact sameSpecified_raise h .overflow
    · exact sameSpecified_respondStatus (sameSpecified_countSymbol h sym)
  | build => exact haccept fun _ => sameSpecified_respondStatus (sameSpecified_buildTree h)
  | derive =>
    refine haccept fun hp => ?_
    have hp : s.phase = .built := by simpa using hp
    have htree := treeBuilt_of_inv hinv (.inl hp)
    simp only [← h.root]
    rw [if_neg htree.root_internal, if_neg htree.root_internal]
    exact sameSpecified_respondStatus (sameSpecified_deriveTable h hp htree.links htree.root)
  | pack sym =>
    refine haccept fun hp => ?_
    have hp : s.phase = .pack := by simpa using hp
    simp only [h.codeV, h.pklen, h.inlen]
    split
    · exact sameSpecified_raise h .noCode
    · split
      · exact sameSpecified_raise h .pass
      · exact sameSpecified_respondStatus (sameSpecified_packSymbol h hp sym)
  | finish =>
    refine haccept fun hp => ?_
    have hp : s.phase = .pack := by simpa using hp
    simp only [h.pklen, h.inlen]
    split
    · exact sameSpecified_raise h .pass
    · exact sameSpecified_respondStatus (sameSpecified_padLastByte h hp)
  | abort => exact haccept fun _ => sameSpecified_raise h .io
  | rdreg reg =>
    show BothAgree (execRdreg reg s) (execRdreg reg t)
    unfold execRdreg
    split
    · refine haccept fun _ => ?_
      rw [registerValue_congr h reg]
      exact sameSpecified_respond h _ _
    · exact hillegal
  | rdfreq sym =>
    refine haccept fun _ => ?_
    rw [h.freq]
    exact sameSpecified_respond h _ _
  | rdnodew id =>
    show BothAgree (execRdnodew id s) (execRdnodew id t)
    unfold execRdnodew
    split
    · refine haccept fun hp => ?_
      simp only [(h.tree (by simpa using hp)).1]
      exact sameSpecified_respond h _ _
    · exact hillegal
  | rdnodel id =>
    show BothAgree (execRdnodel id s) (execRdnodel id t)
    unfold execRdnodel
    split
    · next hid =>
      refine haccept fun hp => ?_
      rw [nodeLinkWord_congr h (by simpa using hp) hid]
      exact sameSpecified_respond h _ _
    · exact hillegal
  | rdclen sym =>
    refine haccept fun hp => ?_
    rw [(h.table (by simpa using hp)).1]
    exact sameSpecified_respond h _ _
  | rdcode sym w =>
    refine haccept fun hp => ?_
    rw [(h.table (by simpa using hp)).2]
    exact sameSpecified_respond h _ _

/-- Settles O45: the same input is next in both states, and each input keeps the agreement. -/
theorem unspecifiedContentIsNeverObserved : Obligations.UnspecifiedContentIsNeverObserved := by
  unfold Obligations.UnspecifiedContentIsNeverObserved
  intro s t s' hinv _ h hstep
  suffices hboth : BothAgree (step s) (step t) by
    obtain ⟨u, t', hu, ht', hagree⟩ := hboth
    obtain rfl := Host.Outcome.next.inj (hu.symm.trans hstep)
    exact ⟨t', ht', hagree⟩
  cases hin : s.hostIn with
  | nil => exact ⟨s, t, step_nil hin, step_nil (h.hostIn.symm.trans hin), h⟩
  | cons x rest =>
    have hin' : t.hostIn = x :: rest := h.hostIn.symm.trans hin
    have htaken : SameSpecified { s with hostIn := rest } { t with hostIn := rest } := { h with hostIn := rfl }
    cases x with
    | rst =>
      exact ⟨_, _, step_rst_clearState hin, step_rst_clearState hin', clearState_sameSpecified rfl h.portOut⟩
    | word w =>
      cases hd : decode w with
      | illegal why =>
        have hraised := sameSpecified_raise htaken .illegal
        rw [← illegalWord_eq, ← illegalWord_eq] at hraised
        exact ⟨_, _, step_illegal hin hd, step_illegal hin' hd, hraised⟩
      | command i =>
        rw [step_command hin hd, step_command hin' hd]
        exact exec_bothAgree htaken (hinv.congr rfl) i

end Sys2Proof.Proofs

namespace Sys2Proof.Proofs

open Sys2Proof.Machine Sys2Proof.Claims

/-! ### The stages of an encode (R59, R100) -/

/-- A stage of the encode of `bytes`: all of them counted, phase `p`, `rest` still to be presented, and since `base`
left the ports `n` responses without an error. -/
structure Encoding (base : List PortOutput) (bytes : List Sym) (p : Phase) (n : Nat) (rest : List HostInput)
    (s : State) : Prop where
  phase : s.phase = p
  inv : Inv s
  hostIn : s.hostIn = rest
  inlen : s.inlen.toNat = bytes.length
  freq : ∀ sym : Sym, s.freq[sym.toNat].toNat = bytes.count sym
  answers : Answers base n s

/-- Pass 2 has packed the codes of `bytes`. -/
structure Packed (bytes : List Sym) (s : State) : Prop where
  pklen : s.pklen.toNat = bytes.length
  bitcnt : s.bitcnt.toNat = (bytes.flatMap (codeOf s)).length
  digits : bitBuffer s = bytes.flatMap (codeOf s)

/-- The greedy tree is a matter of the tree's arrays. -/
theorem greedyTree_congr {s t : State} (h : GreedyTree s) (hw : t.nodeW = s.nodeW) (hl : t.nodeL = s.nodeL)
    (hr : t.nodeR = s.nodeR) : GreedyTree t := by
  have hweight : weight t = weight s := funext fun id => by simp only [weight, hw]
  have hleft : leftChild t = leftChild s := funext fun k => by simp only [leftChild, hl]
  have hright : rightChild t = rightChild s := funext fun k => by simp only [rightChild, hr]
  constructor <;> simp only [waiting, childOf, lighter, hweight, hleft, hright]
  case left_waits => exact h.left_waits
  case right_waits => exact h.right_waits
  case distinct => exact h.distinct
  case left_least => exact h.left_least
  case right_least => exact h.right_least

theorem codeOf_congr {s t : State} (hlen : t.codeLen = s.codeLen) (hval : t.codeVal = s.codeVal) :
    codeOf t = codeOf s := funext fun sym => by simp only [codeOf, hlen, hval]

/-- One presented command is one step. -/
theorem run_presented {s t : State} {i : Instr} {rest : List HostInput} (hin : s.hostIn = presented [i] ++ rest)
    (hw : i.wellFormed = true) (hexec : exec i { s with hostIn := rest } = .next t) :
    Host.Core.run Sys2Proof.core 1 s = .next t :=
  run_command hin (decodingAnEncodedCommandGivesItBack i hw) hexec 0

/-- From `s` to `v` nothing that pass 1 left has changed, and `emitted` has left the output port. -/
structure Advances (s v : State) (emitted : List Byte) : Prop where
  hostIn : v.hostIn = s.hostIn
  inlen : v.inlen = s.inlen
  freq : v.freq = s.freq
  portOut : v.portOut = s.portOut ++ emitted.map .byte
  out : v.out = s.out ++ emitted

/-- From stage to stage by one command, whose body goes to `v`. -/
theorem Encoding.command {base : List PortOutput} {bytes : List Sym} {p q : Phase} {n : Nat} {rest : List HostInput}
    {s v : State} {i : Instr} {emitted : List Byte} (h : Encoding base bytes p n (presented [i] ++ rest) s)
    (hw : i.wellFormed = true) (hexec : exec i { s with hostIn := rest } = .next (respondStatus v)) (hinv : Inv v)
    (hphase : v.phase = q) (hbody : Advances { s with hostIn := rest } v emitted) :
    Host.Core.run Sys2Proof.core 1 s = .next (respondStatus v) ∧
      Encoding base bytes q (n + 1) rest (respondStatus v) :=
  ⟨run_presented h.hostIn hw hexec, hphase, hinv.respond _ _, hbody.hostIn,
    (congrArg BitVec.toNat hbody.inlen).trans h.inlen,
    fun sym => (congrArg (fun freq => freq[sym.toNat].toNat) hbody.freq).trans (h.freq sym),
    h.answers.step emitted (statusWord v) (congrArg (· ++ _) hbody.portOut) hbody.out⟩

/-! ### The encode, command by command (R61, R69, R81, R93, R95, R102) -/

theorem run_clear {s : State} {rest : List HostInput} (hin : s.hostIn = presented [.clear] ++ rest) :
    ∃ t, Host.Core.run Sys2Proof.core 1 s = .next t ∧ Encoding s.portOut [] .count 1 rest t := by
  have hexec := exec_clear_answered { s with hostIn := rest }
  refine ⟨_, run_presented hin rfl hexec, rfl, (clearState_inv _).respond _ _, rfl, rfl, fun sym => ?freq,
    ⟨[.response false 0#32], rfl, rfl, rfl, by simp [responseOf]⟩⟩
  case freq => simp [answered]

section Stages
variable {base : List PortOutput} {bytes : List Sym} {n : Nat} {rest : List HostInput} {s : State}

theorem run_firstPass (hlength : bytes.length ≤ 2 ^ 32 - 1)
    (h : Encoding base [] .count n (presented (bytes.map .count) ++ rest) s) :
    ∃ t, Host.Core.run Sys2Proof.core bytes.length s = .next t ∧
      Encoding base bytes .count (n + bytes.length) rest t := by
  have hinlen : s.inlen.toNat = 0 := h.inlen
  obtain ⟨t, hrun, hphase, hinv, hin, hcounted, hfreq, hanswers⟩ :=
    run_counts bytes h.phase h.inv h.hostIn (by omega) h.answers
  refine ⟨t, hrun, hphase, hinv, hin, by omega, fun sym => ?_, hanswers⟩
  rw [hfreq, h.freq, List.count_nil, Nat.zero_add]

theorem run_build (h : Encoding base bytes .count n (presented [.build] ++ rest) s) :
    ∃ t, Host.Core.run Sys2Proof.core 1 s = .next t ∧ Encoding base bytes .built (n + 1) rest t ∧ GreedyTree t := by
  set u : State := { s with hostIn := rest }
  have hexec := exec_build (s := u) h.phase
  have hinv := buildTree_inv (s := u) (h.inv.congr rfl) h.phase
  have hgreedy := (buildTree_greedy u).1
  have hframe := buildTree_frame u
  -- A name for the built tree, so that nothing compares its unfoldings.
  generalize buildTree u = v at hexec hinv hgreedy hframe
  have hbody : Advances u v [] := by constructor <;> rw [hframe] <;> simp
  obtain ⟨hrun, hstage⟩ := h.command (q := .built) rfl hexec hinv (by rw [hframe]) hbody
  exact ⟨_, hrun, hstage, greedyTree_respond hgreedy _ _⟩

theorem run_derive (h : Encoding base bytes .built n (presented [.derive] ++ rest) s) (hgreedy : GreedyTree s) :
    ∃ t, Host.Core.run Sys2Proof.core 1 s = .next t ∧ Encoding base bytes .pack (n + 1) rest t ∧ GreedyTree t ∧
      Packed [] t := by
  set u : State := { s with hostIn := rest }
  have huinv : Inv u := h.inv.congr rfl
  have htree := treeBuilt_of_inv huinv (.inl h.phase)
  have hexec := exec_derive_internalRoot (s := u) h.phase (Nat.le_of_not_lt htree.root_internal)
  have hinv := deriveTable_inv huinv h.phase
  obtain ⟨-, -, -, -, hpacker⟩ := huinv.stage h.phase (by decide)
  have hframe := deriveTable_frame u
  -- A name for the derived state, as in BUILD.
  generalize deriveTable u = v at hexec hinv hframe
  have hbody : Advances u v [] := by constructor <;> rw [hframe] <;> simp
  obtain ⟨hrun, hstage⟩ := h.command (q := .pack) rfl hexec hinv (by rw [hframe]) hbody
  refine ⟨_, hrun, hstage, greedyTree_congr hgreedy ?_ ?_ ?_, ?_, ?_, ?_⟩
  · rw [respondStatus, respond_nodeW, hframe]
  · rw [respondStatus, respond_nodeL, hframe]
  · rw [respondStatus, respond_nodeR, hframe]
  · rw [respondStatus, respond_pklen, hframe]
    simp [hpacker.pklen]
  · rw [respondStatus, respond_bitcnt, hframe]
    simp [hpacker.bitcnt]
  · rw [bitBuffer_of_accN_zero (by rw [respondStatus, respond_accN, hframe]; exact hpacker.accN), respondStatus,
      respond_out, hframe]
    simp [hpacker.out]

theorem run_secondPass (h : Encoding base bytes .pack n (presented (bytes.map .pack) ++ rest) s)
    (hgreedy : GreedyTree s) (hpacked : Packed [] s) :
    ∃ t, Host.Core.run Sys2Proof.core bytes.length s = .next t ∧
      Encoding base bytes .pack (n + bytes.length) rest t ∧ GreedyTree t ∧ Packed bytes t := by
  have hpklen : s.pklen.toNat = 0 := hpacked.pklen
  have hbitcnt : s.bitcnt.toNat = 0 := hpacked.bitcnt
  have hdigits : bitBuffer s = [] := hpacked.digits
  obtain ⟨t, hrun, hphase, hinv, hin, hlength, hbuffer, hcount, ⟨hfreq, hinlen, hw, hl, hr, hlen, hval⟩, hanswers⟩ :=
    run_packs bytes h.phase h.inv h.hostIn (by rw [h.inlen]; omega) h.answers
  have hcodes := codeOf_congr hlen hval
  refine ⟨t, hrun, ⟨hphase, hinv, hin, by rw [hinlen, h.inlen], by rw [hfreq]; exact h.freq, hanswers⟩,
    greedyTree_congr hgreedy hw hl hr, by omega, ?_, ?_⟩
  · rw [hcodes, hcount, hbitcnt, Nat.zero_add]
  · rw [hcodes, hbuffer, hdigits, List.nil_append]

/-- The body of FINISH: zero digits up to whole bytes, with no digit left pending. -/
theorem padLastByte_spec (s : State) :
    ∃ bytes, bitBuffer (padLastByte s) = bitBuffer s ++ List.replicate (padLastByte s).padn.toNat false ∧
      padLastByte s = { s with
        acc := (padLastByte s).acc, accN := 0#3, padn := (padLastByte s).padn, phase := .done, out := s.out ++ bytes,
        outlen := (padLastByte s).outlen, portOut := s.portOut ++ bytes.map .byte } := by
  by_cases hn : s.accN = 0#3
  · rw [padLastByte_zero hn]
    exact ⟨[], by simp [bitBuffer, pendingDigits], by simp [hn]⟩
  · obtain ⟨hframe, hdigits⟩ := padLastByte_pending hn
    have hcount : s.accN.toNat ≠ 0 := BitVec.toNat_ne.mp hn
    have hpadn : (padLastByte s).padn.toNat = 8 - s.accN.toNat := by
      rw [hframe, BitVec.toNat_ofNat]
      omega
    rw [hpadn]
    refine ⟨[s.acc <<< (8 - s.accN.toNat)], hdigits, ?_⟩
    rw [hframe]
    rfl

/-- What a whole encode of `bytes` leaves (R100). -/
structure Encoded (base : List PortOutput) (bytes : List Sym) (rest : List HostInput) (t : State) : Prop where
  stage : Encoding base bytes .done (2 * bytes.length + 4) rest t
  greedy : GreedyTree t
  bitcnt : t.bitcnt.toNat = (bytes.flatMap (codeOf t)).length
  digits : t.out.flatMap byteDigits = bytes.flatMap (codeOf t) ++ List.replicate t.padn.toNat false

theorem run_finish (h : Encoding base bytes .pack (2 * bytes.length + 3) (presented [.finish] ++ rest) s)
    (hgreedy : GreedyTree s) (hpacked : Packed bytes s) :
    ∃ t, Host.Core.run Sys2Proof.core 1 s = .next t ∧ Encoded base bytes rest t := by
  set u : State := { s with hostIn := rest }
  have hfull : u.pklen = u.inlen := BitVec.eq_of_toNat_eq (hpacked.pklen.trans h.inlen.symm)
  have hexec := exec_finish_accepted (s := u) h.phase hfull
  have hinv := padLastByte_inv (s := u) (h.inv.congr rfl) h.phase hfull
  obtain ⟨emitted, hdigits, hframe⟩ := padLastByte_spec u
  -- A name for the padded state, as in BUILD.
  generalize padLastByte u = v at hexec hinv hdigits hframe
  have hbody : Advances u v emitted := by constructor <;> rw [hframe]
  obtain ⟨hrun, hstage⟩ := h.command (q := .done) rfl hexec hinv (by rw [hframe]) hbody
  have hcodes : codeOf (respondStatus v) = codeOf s := by
    refine codeOf_congr ?_ ?_
    · rw [respondStatus, respond_codeLen, hframe]
    · rw [respondStatus, respond_codeVal, hframe]
  have hbuffer : v.out.flatMap byteDigits = bitBuffer s ++ List.replicate v.padn.toNat false := by
    rw [← bitBuffer_of_accN_zero (by rw [hframe]), hdigits]
    rfl
  refine ⟨_, hrun, hstage, greedyTree_congr hgreedy ?_ ?_ ?_, ?_, ?_⟩
  · rw [respondStatus, respond_nodeW, hframe]
  · rw [respondStatus, respond_nodeL, hframe]
  · rw [respondStatus, respond_nodeR, hframe]
  · rw [hcodes, ← hpacked.bitcnt, respondStatus, respond_bitcnt, hframe]
  · rw [hcodes, ← hpacked.digits]
    exact hbuffer

end Stages

/-! ### The encode law (R100) -/

/-- The words of ENCODE, stage by stage. -/
theorem presented_encodeCommands (bytes : List Sym) (rest : List HostInput) :
    presented (encodeCommands bytes) ++ rest =
      presented [.clear] ++ (presented (bytes.map .count) ++ (presented [.build] ++ (presented [.derive] ++
        (presented (bytes.map .pack) ++ (presented [.finish] ++ rest))))) := by
  simp [presented, encodeCommands]

/-- ENCODE from any state: the stages one after the other. -/
theorem run_encode {s : State} {bytes : List Sym} {rest : List HostInput} (hlength : bytes.length ≤ 2 ^ 32 - 1)
    (hin : s.hostIn = presented (encodeCommands bytes) ++ rest) :
    ∃ t, Host.Core.run Sys2Proof.core (2 * bytes.length + 4) s = .next t ∧ Encoded s.portOut bytes rest t := by
  rw [presented_encodeCommands] at hin
  obtain ⟨s₁, hrun₁, h₁⟩ := run_clear hin
  obtain ⟨s₂, hrun₂, h₂⟩ := run_firstPass hlength h₁
  obtain ⟨s₃, hrun₃, h₃, hgreedy₃⟩ := run_build h₂
  obtain ⟨s₄, hrun₄, h₄, hgreedy₄, hpacked₄⟩ := run_derive h₃ hgreedy₃
  obtain ⟨s₅, hrun₅, h₅, hgreedy₅, hpacked₅⟩ := run_secondPass h₄ hgreedy₄ hpacked₄
  have hresponses : 1 + bytes.length + 1 + 1 + bytes.length = 2 * bytes.length + 3 := by omega
  rw [hresponses] at h₅
  obtain ⟨t, hrun₆, h₆⟩ := run_finish h₅ hgreedy₅ hpacked₅
  have hsteps : 2 * bytes.length + 4 = 1 + (bytes.length + (1 + (1 + (bytes.length + 1)))) := by omega
  refine ⟨t, ?_, h₆⟩
  rw [hsteps]
  exact run_trans (run_trans (run_trans (run_trans (run_trans hrun₁ hrun₂) hrun₃) hrun₄) hrun₅) hrun₆

/-- Settles O47: the stages of `run_encode`, and the invariant's line for phase DONE. -/
theorem encodeLaw : Obligations.EncodeLaw := by
  unfold Obligations.EncodeLaw
  intro s bytes rest hlength hin
  obtain ⟨t, hrun, hstage, hgreedy, hbitcnt, hdigits⟩ := run_encode hlength hin
  obtain ⟨herr, -, htree, htable, hpacker⟩ := hstage.inv.stage hstage.phase (by decide)
  obtain ⟨left, hport, hout, hresponses, hclean⟩ := hstage.answers.ex
  exact ⟨t, left, hrun, hstage.phase, herr, hstage.inlen, hpacker.pklen ▸ hstage.inlen, hstage.freq, hgreedy,
    htree.weights, htable, hbitcnt, hpacker.padn, hpacker.outlen, hpacker.out, hdigits, hstage.hostIn, hport, hout,
    hresponses, hclean⟩

/-! ### Two encodes of the same string (R100) -/

theorem byteDigits_injective : Function.Injective byteDigits := by
  intro v v' h
  have hfits (x : Byte) : (x.setWidth 255 : CodeVal).toNat = x.toNat := BitVec.toNat_setWidth_of_le (by decide)
  have hcodes : codeDigits 8#8 (v.setWidth 255) = codeDigits 8#8 (v'.setWidth 255) := by
    rw [codeDigits_byte, codeDigits_byte]
    exact h
  have hval := (codeDigits_inj hcodes (by rw [hfits]; exact v.isLt) (by rw [hfits]; exact v'.isLt)).2
  apply BitVec.eq_of_toNat_eq
  rw [← hfits v, ← hfits v', hval]

/-- The bytes can be read back from their digits, eight at a time. -/
theorem flatMap_byteDigits_inj : ∀ {bytes bytes' : List Byte}, bytes.flatMap byteDigits = bytes'.flatMap byteDigits →
    bytes = bytes' := by
  intro bytes
  induction bytes with
  | nil =>
    intro bytes' h
    have hlength := congrArg List.length h
    rw [length_flatMap_byteDigits, length_flatMap_byteDigits, List.length_nil] at hlength
    exact (List.length_eq_zero_iff.mp (by omega)).symm
  | cons v bytes ih =>
    intro bytes' h
    cases bytes' with
    | nil =>
      have hlength := congrArg List.length h
      rw [length_flatMap_byteDigits, length_flatMap_byteDigits, List.length_nil, List.length_cons] at hlength
      omega
    | cons v' bytes' =>
      rw [List.flatMap_cons, List.flatMap_cons] at h
      obtain ⟨hfirst, hrest⟩ := List.append_inj h (by simp [byteDigits])
      rw [byteDigits_injective hfirst, ih hrest]

/-- An exact sum that fits a counter is the counter's own sum. -/
theorem weight_inner_mod {t : State} (h : TreeWeights t) (k : Fin 255) :
    weight t (256 + k) = (weight t (leftChild t k) + weight t (rightChild t k)) % 2 ^ 32 := by
  have hlt : weight t (256 + k) < 2 ^ 32 := by
    rw [weight, dif_pos (by omega)]
    exact BitVec.isLt _
  rw [← h.inner k, Nat.mod_eq_of_lt hlt]

/-- What an encode leaves is determined by the string: the counts, the one greedy tree of them, its paths, and so the
digits. -/
theorem Encoded.unique {base base' : List PortOutput} {bytes : List Sym} {rest rest' : List HostInput} {t t' : State}
    (h : Encoded base bytes rest t) (h' : Encoded base' bytes rest' t') :
    t.out = t'.out ∧ t.bitcnt = t'.bitcnt ∧ t.padn = t'.padn ∧ t.freq = t'.freq ∧ t.nodeW = t'.nodeW ∧
      t.nodeL = t'.nodeL ∧ t.nodeR = t'.nodeR ∧ t.codeLen = t'.codeLen ∧ t.codeVal = t'.codeVal := by
  obtain ⟨-, -, htree, htable, hpacker⟩ := h.stage.inv.stage h.stage.phase (by decide)
  obtain ⟨-, -, htree', htable', hpacker'⟩ := h'.stage.inv.stage h'.stage.phase (by decide)
  have hfreq : t.freq = t'.freq := Vector.ext fun i hi =>
    BitVec.eq_of_toNat_eq ((h.stage.freq (BitVec.ofFin ⟨i, hi⟩)).trans (h'.stage.freq (BitVec.ofFin ⟨i, hi⟩)).symm)
  obtain ⟨hchildren, hweights⟩ := h.greedy.unique h'.greedy
    (fun sym => by rw [htree.weights.leaf, htree'.weights.leaf, hfreq])
    (weight_inner_mod htree.weights) (weight_inner_mod htree'.weights)
  obtain ⟨hw, hl, hr⟩ := tree_arrays_eq hchildren hweights
  obtain ⟨hlen, hval⟩ := table_unique htable htable' htree.links htree.root hl.symm hr.symm
    (htree'.root.trans htree.root.symm)
  have hcodes : codeOf t = codeOf t' := codeOf_congr hlen hval
  have hbitcnt : t.bitcnt = t'.bitcnt := BitVec.eq_of_toNat_eq (by rw [h.bitcnt, h'.bitcnt, hcodes])
  have hpadn : t.padn = t'.padn := BitVec.eq_of_toNat_eq (by rw [hpacker.padn, hpacker'.padn, hbitcnt])
  have hout : t.out = t'.out := flatMap_byteDigits_inj (by rw [h.digits, h'.digits, hcodes, hpadn])
  exact ⟨hout, hbitcnt, hpadn, hfreq, hw, hl, hr, hlen, hval⟩

/-- Settles O48: both runs are those of `run_encode`, and `Encoded.unique`. -/
theorem encodingTwiceGivesTheSameBytes : Obligations.EncodingTwiceGivesTheSameBytes := by
  unfold Obligations.EncodingTwiceGivesTheSameBytes
  intro s s' t t' bytes rest rest' hlength hin hin' hrun hrun'
  obtain ⟨u, hu, hencoded⟩ := run_encode hlength hin
  obtain ⟨u', hu', hencoded'⟩ := run_encode hlength hin'
  obtain rfl := Host.Outcome.next.inj (hu.symm.trans hrun)
  obtain rfl := Host.Outcome.next.inj (hu'.symm.trans hrun')
  exact hencoded.unique hencoded'

end Sys2Proof.Proofs
